-- ==== Sys2Proof/Word.lean ====
section
/-! DEFINITION. The word types of the machine (spec/00_scope.md R8, R11): widths only, no operation. -/

namespace Sys2Proof

/-- A doubleword of 64 bits: an integer or floating-point register, an address, the program counter
(R21, R24, R27, R50). -/
abbrev Word := BitVec 64

/-- A byte of 8 bits (R11). -/
abbrev Byte := BitVec 8

/-- An instruction word of 32 bits (R80). -/
abbrev InstrWord := BitVec 32

/-- A 5-bit register field: it names one of 32 integer registers or one of 32 floating-point registers
(R21, R27). -/
abbrev Reg := BitVec 5

end Sys2Proof
end

