-- ==== Sys2Proof/Config.lean ====
section
/-! DEFINITION. What an implementation or a launch fixes: the parameters of spec/00_scope.md R7 as plain data
(State carries them unchanged, log 1), and the free values, which no proof can see into. -/

namespace Sys2Proof

/-- The four arithmetic operations of the numerics record (R143). -/
inductive FpOp
  | mul | div | add | sub
deriving DecidableEq, Repr

/-- The five exceptions of IEEE 754 as a set: which ones an operation signals, or which ones trap
(`FP_TRAPS`, R143 item 7). -/
structure FpExceptions where
  invalid : Bool
  divByZero : Bool
  overflow : Bool
  underflow : Bool
  inexact : Bool
deriving DecidableEq, Repr

/-- The empty set of exceptions: the default of `FP_TRAPS` (R7). -/
def FpExceptions.empty : FpExceptions := ⟨false, false, false, false, false⟩

/-- `UNUSED_FIELDS` (R7, R92, D4). -/
inductive UnusedFields
  | refuse | ignore
deriving DecidableEq, Repr

/-- `NUMERICS` in its one open part, the bit pattern of a NaN result (R143 item 6, U5): the recommended A64
rule, or any NaN pattern that is a function of the operands. -/
inductive NanRule
  | a64 | free
deriving DecidableEq, Repr

/-- Whether a tiny result is detected before or after rounding; IEEE 754 leaves it to the implementer and the
spec does not speak of it (log 14). It matters only where underflow is in `FP_TRAPS`. -/
inductive Tininess
  | beforeRounding | afterRounding
deriving DecidableEq, Repr

/-- What an access does to a byte: each has a mark of its own (R50). -/
inductive AccessKind
  | read | write | fetch
deriving DecidableEq, Repr

/-- A run of existing byte addresses, `size` bytes from `base`, with its three marks (R50). -/
structure Region where
  base : Nat
  size : Nat
  readable : Bool
  writable : Bool
  executable : Bool
deriving DecidableEq, Repr

/-- `MEM_MAP` (R58): an address in no region does not exist; where regions overlap the first one in the list
gives the marks (log 24). -/
abbrev MemMap := List Region

/-- The parameters of R7 that hold for a whole run. -/
structure Config where
  memMap : MemMap
  haltPc : Word
  fpEnabled : Bool
  fpTraps : FpExceptions
  nanRule : NanRule
  tininess : Tininess
  stxrSpuriousFail : Bool
  unusedFields : UnusedFields
deriving DecidableEq, Repr

/-- The parameters at `State.reset`: R7's defaults where R7 gives one; `MEM_MAP` every address with all marks
and `HALT_PC` of 95_test_vectors.md section 9 where it gives none (DESIGN CHOICE, unsafe: log 3, 4, 14). -/
def Config.standard : Config where
  memMap := [⟨0, 2 ^ 64, true, true, true⟩]
  haltPc := 0xFFFFFFFFFFFFFFF0#64
  fpEnabled := true
  fpTraps := FpExceptions.empty
  nanRule := .a64
  tininess := .beforeRounding
  stxrSpuriousFail := true
  unusedFields := .refuse

/-- The `ISS` value drawn at the n-th draw of a run (R255, U4): a free value, log 10. -/
opaque Config.issValue : Nat → BitVec 25

/-- Whether the n-th draw of a run makes a matching `STXR` fail (R179, U6): a free value, log 11. -/
opaque Config.stxrFails : Nat → Bool

/-- The single-precision NaN result under `NanRule.free` (R143 item 6): a free value, log 13. -/
opaque Config.nanSingle : FpOp → BitVec 32 → BitVec 32 → BitVec 32

/-- The double-precision NaN result under `NanRule.free` (R143 item 6): a free value, log 13. -/
opaque Config.nanDouble : FpOp → BitVec 64 → BitVec 64 → BitVec 64

end Sys2Proof
end

