-- ==== Sys2Proof/Syntax.lean ====
section
/-! DEFINITION. The 55 instructions of spec/30_encoding.md R94 (spec/opcode_table.json), with the operand
fields each rule reads (R83 to R88), and the names the decoder refuses by. -/

namespace Sys2Proof

/-- The fourteen conditions of R124; codes 14 and 15 name none. -/
inductive Cond
  | eq | ne | hs | lo | mi | pl | vs | vc | hi | ls | ge | lt | gt | le
deriving DecidableEq, Repr

/-- The 55 rows of the opcode table, in its order (R94). -/
inductive Row
  | b | fmuls | fdivs | fcmps | fadds | fsubs | fmuld | fdivd | fcmpd | faddd
  | fsubd | sturb | ldurb | bCond | sturh | ldurh | and | add | addi | andi
  | bl | sdiv | udiv | mul | smulh | umulh | orr | adds | addis | orri
  | cbz | cbnz | sturw | ldursw | sturs | ldurs | stxr | ldxr | eor | sub
  | subi | eori | movz | lsr | lsl | br | ands | subs | subis | andis
  | movk | stur | ldur | sturd | ldurd
deriving DecidableEq, Repr

/-- A field of a word that some row does not use (R92). -/
inductive Field
  | rm         -- bits 20:16
  | shamt      -- bits 15:10
  | rd         -- bits 4:0
  | op         -- bits 11:10
  | dtAddress  -- bits 20:12
  | dtLow      -- bits 15:12, the low four bits of DT_address
  | rt4        -- bit 4
deriving DecidableEq, Repr

/-- One constructor per row. A register field of the integer file or of the floating-point file is a `Reg`;
an immediate is the field as it stands in the word (R91 says how it is extended). The fields a row does not
use are no operands (R92). -/
inductive Instr
  | b (address : BitVec 26)  -- B, R121
  | fmuls (rd rn rm : Reg)  -- FMULS, R145
  | fdivs (rd rn rm : Reg)  -- FDIVS, R146
  | fcmps (rn rm : Reg)  -- FCMPS, R147
  | fadds (rd rn rm : Reg)  -- FADDS, R148
  | fsubs (rd rn rm : Reg)  -- FSUBS, R149
  | fmuld (rd rn rm : Reg)  -- FMULD, R150
  | fdivd (rd rn rm : Reg)  -- FDIVD, R151
  | fcmpd (rn rm : Reg)  -- FCMPD, R152
  | faddd (rd rn rm : Reg)  -- FADDD, R153
  | fsubd (rd rn rm : Reg)  -- FSUBD, R154
  | sturb (rt rn : Reg) (offset : BitVec 9)  -- STURB, R171
  | ldurb (rt rn : Reg) (offset : BitVec 9)  -- LDURB, R172
  | bCond (cond : Cond) (address : BitVec 19)  -- B.cond, R123
  | sturh (rt rn : Reg) (offset : BitVec 9)  -- STURH, R173
  | ldurh (rt rn : Reg) (offset : BitVec 9)  -- LDURH, R174
  | and (rd rn rm : Reg)  -- AND, R201
  | add (rd rn rm : Reg)  -- ADD, R202
  | addi (rd rn : Reg) (imm : BitVec 12)  -- ADDI, R221
  | andi (rd rn : Reg) (imm : BitVec 12)  -- ANDI, R222
  | bl (address : BitVec 26)  -- BL, R122
  | sdiv (rd rn rm : Reg)  -- SDIV, R240
  | udiv (rd rn rm : Reg)  -- UDIV, R241
  | mul (rd rn rm : Reg)  -- MUL, R242
  | smulh (rd rn rm : Reg)  -- SMULH, R243
  | umulh (rd rn rm : Reg)  -- UMULH, R244
  | orr (rd rn rm : Reg)  -- ORR, R203
  | adds (rd rn rm : Reg)  -- ADDS, R204
  | addis (rd rn : Reg) (imm : BitVec 12)  -- ADDIS, R223
  | orri (rd rn : Reg) (imm : BitVec 12)  -- ORRI, R224
  | cbz (rt : Reg) (address : BitVec 19)  -- CBZ, R125
  | cbnz (rt : Reg) (address : BitVec 19)  -- CBNZ, R126
  | sturw (rt rn : Reg) (offset : BitVec 9)  -- STURW, R175
  | ldursw (rt rn : Reg) (offset : BitVec 9)  -- LDURSW, R176
  | sturs (rt rn : Reg) (offset : BitVec 9)  -- STURS, R177
  | ldurs (rt rn : Reg) (offset : BitVec 9)  -- LDURS, R178
  | stxr (rs rt rn : Reg)  -- STXR, R179
  | ldxr (rt rn : Reg)  -- LDXR, R180
  | eor (rd rn rm : Reg)  -- EOR, R205
  | sub (rd rn rm : Reg)  -- SUB, R206
  | subi (rd rn : Reg) (imm : BitVec 12)  -- SUBI, R225
  | eori (rd rn : Reg) (imm : BitVec 12)  -- EORI, R226
  | movz (rd : Reg) (imm : BitVec 16) (hw : BitVec 2)  -- MOVZ, R227
  | lsr (rd rn : Reg) (shamt : BitVec 6)  -- LSR, R207
  | lsl (rd rn : Reg) (shamt : BitVec 6)  -- LSL, R208
  | br (rn : Reg)  -- BR, R127
  | ands (rd rn rm : Reg)  -- ANDS, R209
  | subs (rd rn rm : Reg)  -- SUBS, R210
  | subis (rd rn : Reg) (imm : BitVec 12)  -- SUBIS, R228
  | andis (rd rn : Reg) (imm : BitVec 12)  -- ANDIS, R229
  | movk (rd : Reg) (imm : BitVec 16) (hw : BitVec 2)  -- MOVK, R230
  | stur (rt rn : Reg) (offset : BitVec 9)  -- STUR, R181
  | ldur (rt rn : Reg) (offset : BitVec 9)  -- LDUR, R182
  | sturd (rt rn : Reg) (offset : BitVec 9)  -- STURD, R183
  | ldurd (rt rn : Reg) (offset : BitVec 9)  -- LDURD, R184
deriving DecidableEq, Repr

/-- The row of the opcode table an instruction belongs to. -/
def Instr.row : Instr → Row
  | .b .. => .b
  | .fmuls .. => .fmuls
  | .fdivs .. => .fdivs
  | .fcmps .. => .fcmps
  | .fadds .. => .fadds
  | .fsubs .. => .fsubs
  | .fmuld .. => .fmuld
  | .fdivd .. => .fdivd
  | .fcmpd .. => .fcmpd
  | .faddd .. => .faddd
  | .fsubd .. => .fsubd
  | .sturb .. => .sturb
  | .ldurb .. => .ldurb
  | .bCond .. => .bCond
  | .sturh .. => .sturh
  | .ldurh .. => .ldurh
  | .and .. => .and
  | .add .. => .add
  | .addi .. => .addi
  | .andi .. => .andi
  | .bl .. => .bl
  | .sdiv .. => .sdiv
  | .udiv .. => .udiv
  | .mul .. => .mul
  | .smulh .. => .smulh
  | .umulh .. => .umulh
  | .orr .. => .orr
  | .adds .. => .adds
  | .addis .. => .addis
  | .orri .. => .orri
  | .cbz .. => .cbz
  | .cbnz .. => .cbnz
  | .sturw .. => .sturw
  | .ldursw .. => .ldursw
  | .sturs .. => .sturs
  | .ldurs .. => .ldurs
  | .stxr .. => .stxr
  | .ldxr .. => .ldxr
  | .eor .. => .eor
  | .sub .. => .sub
  | .subi .. => .subi
  | .eori .. => .eori
  | .movz .. => .movz
  | .lsr .. => .lsr
  | .lsl .. => .lsl
  | .br .. => .br
  | .ands .. => .ands
  | .subs .. => .subs
  | .subis .. => .subis
  | .andis .. => .andis
  | .movk .. => .movk
  | .stur .. => .stur
  | .ldur .. => .ldur
  | .sturd .. => .sturd
  | .ldurd .. => .ldurd

/-- The outcomes `Refused` of the decoder (R90, U2): words to which the spec gives no meaning. -/
inductive RefusedWord
  /-- A field the row does not use is not zero and `UNUSED_FIELDS = refuse` (R92). -/
  | unusedField (row : Row) (field : Field)
  /-- `B.cond` with condition 14 or 15 (R124). -/
  | condition (cond : BitVec 4)
  /-- `STXR` whose status register, not 31, is its data or its base register (R179). -/
  | stxrOverlap
deriving DecidableEq, Repr

end Sys2Proof
end

