-- ==== Sys2Proof/WellFormed.lean ====
section
/-! DEFINITION. Which terms of `Instr` are instructions of the machine. Every operand type already has exactly the
values its field admits, so one check is left: the register overlap of `STXR` (spec/42_loads_stores.md R179). -/

namespace Sys2Proof

/-- `STXR` with a status register other than 31 that is also its data or base register is refused (R90, R179). -/
def stxrOverlaps (rs rt rn : Reg) : Bool := rs != 31#5 && (rs == rt || rs == rn)

/-- Whether a term is an instruction the decoder can give. -/
def Instr.wellFormed : Instr → Bool
  | .stxr rs rt rn => !stxrOverlaps rs rt rn
  | _ => true

end Sys2Proof
end

