-- ==== Sys2Proof/Decode.lean ====
section
/-! DEFINITION. Bytes to words, the decoder of spec/30_encoding.md R90 and, after it, the encoder written from the
same tables (R83 to R88, R91, R94). -/

namespace Sys2Proof

/-! Byte order: the byte at the lowest address is the most significant one (spec/20_memory.md R52, R55). -/

/-- The number whose bytes, from the lowest address up, are the given ones (R52). -/
def beNat (bytes : List Byte) : Nat := bytes.foldl (fun acc b => acc * 256 + b.toNat) 0

/-- The `n` bytes of the low 8n bits of `v`, from the lowest address up (R52, R54). -/
def beBytes : Nat → Nat → List Byte
  | 0, _ => []
  | n + 1, v => BitVec.ofNat 8 (v / 256 ^ n) :: beBytes n v

/-- The instruction word that four fetched bytes form (R55). -/
def wordOfBytes (bytes : List Byte) : InstrWord := BitVec.ofNat 32 (beNat bytes)

/-- The four bytes an instruction word lies in, from the lowest address up (R55). -/
def bytesOfWord (w : InstrWord) : List Byte := beBytes 4 w.toNat

/-! The fields of a word (R83 to R88). -/

/-- The 11-bit opcode, bits 31:21 (R81). -/
def op11Field (w : InstrWord) : BitVec 11 := w.extractLsb' 21 11
/-- `Rm` of format R and `Rs` of `STXR`, bits 20:16. -/
def rmField (w : InstrWord) : Reg := w.extractLsb' 16 5
/-- `shamt`, bits 15:10. -/
def shamtField (w : InstrWord) : BitVec 6 := w.extractLsb' 10 6
/-- `Rn`, bits 9:5. -/
def rnField (w : InstrWord) : Reg := w.extractLsb' 5 5
/-- `Rd` or `Rt`, bits 4:0. -/
def rdField (w : InstrWord) : Reg := w.extractLsb' 0 5
/-- `ALU_immediate`, bits 21:10. -/
def aluField (w : InstrWord) : BitVec 12 := w.extractLsb' 10 12
/-- `DT_address`, bits 20:12. -/
def dtField (w : InstrWord) : BitVec 9 := w.extractLsb' 12 9
/-- `BR_address`, bits 25:0. -/
def brField (w : InstrWord) : BitVec 26 := w.extractLsb' 0 26
/-- `COND_BR_address`, bits 23:5. -/
def condBrField (w : InstrWord) : BitVec 19 := w.extractLsb' 5 19
/-- The condition code of `B.cond`, bits 3:0. -/
def condField (w : InstrWord) : BitVec 4 := w.extractLsb' 0 4
/-- `hw`, bits 22:21. -/
def hwField (w : InstrWord) : BitVec 2 := w.extractLsb' 21 2
/-- `MOV_immediate`, bits 20:5. -/
def movField (w : InstrWord) : BitVec 16 := w.extractLsb' 5 16

/-- `op` of format D, bits 11:10. -/
def opField (w : InstrWord) : BitVec 2 := w.extractLsb' 10 2
/-- The low four bits of `DT_address`, bits 15:12, unused in `STXR`. -/
def dtLowField (w : InstrWord) : BitVec 4 := w.extractLsb' 12 4
/-- `Rt[4]`, bit 4, unused in `B.cond`. -/
def rt4Field (w : InstrWord) : BitVec 1 := w.extractLsb' 4 1

/-- Whether a field that a row may leave unused is zero (R92). -/
def fieldIsZero (w : InstrWord) : Field → Bool
  | .rm => rmField w == 0
  | .shamt => shamtField w == 0
  | .rd => rdField w == 0
  | .op => opField w == 0
  | .dtAddress => dtField w == 0
  | .dtLow => dtLowField w == 0
  | .rt4 => rt4Field w == 0

/-! The opcode table (R94): the range of 11-bit opcodes and, on 13 rows, the Shamt (R82, R89). -/

/-- One row: the instruction, its first and last 11-bit opcode, its Shamt where the source gives one. -/
structure OpcodeRow where
  row : Row
  first : Nat
  last : Nat
  shamt : Option Nat
deriving DecidableEq, Repr

/-- Rows 1 to 14 of the table of R94. -/
def opcodeRows1 : List OpcodeRow := [
  ⟨.b, 0x0A0, 0x0BF, none⟩,
  ⟨.fmuls, 0x0F1, 0x0F1, some 0b000010⟩,
  ⟨.fdivs, 0x0F1, 0x0F1, some 0b000110⟩,
  ⟨.fcmps, 0x0F1, 0x0F1, some 0b001000⟩,
  ⟨.fadds, 0x0F1, 0x0F1, some 0b001010⟩,
  ⟨.fsubs, 0x0F1, 0x0F1, some 0b001110⟩,
  ⟨.fmuld, 0x0F3, 0x0F3, some 0b000010⟩,
  ⟨.fdivd, 0x0F3, 0x0F3, some 0b000110⟩,
  ⟨.fcmpd, 0x0F3, 0x0F3, some 0b001000⟩,
  ⟨.faddd, 0x0F3, 0x0F3, some 0b001010⟩,
  ⟨.fsubd, 0x0F3, 0x0F3, some 0b001110⟩,
  ⟨.sturb, 0x1C0, 0x1C0, none⟩,
  ⟨.ldurb, 0x1C2, 0x1C2, none⟩,
  ⟨.bCond, 0x2A0, 0x2A7, none⟩]

/-- Rows 15 to 28 of the table of R94. -/
def opcodeRows2 : List OpcodeRow := [
  ⟨.sturh, 0x3C0, 0x3C0, none⟩,
  ⟨.ldurh, 0x3C2, 0x3C2, none⟩,
  ⟨.and, 0x450, 0x450, none⟩,
  ⟨.add, 0x458, 0x458, none⟩,
  ⟨.addi, 0x488, 0x489, none⟩,
  ⟨.andi, 0x490, 0x491, none⟩,
  ⟨.bl, 0x4A0, 0x4BF, none⟩,
  ⟨.sdiv, 0x4D6, 0x4D6, some 0b000010⟩,
  ⟨.udiv, 0x4D6, 0x4D6, some 0b000011⟩,
  ⟨.mul, 0x4D8, 0x4D8, some 0b011111⟩,
  ⟨.smulh, 0x4DA, 0x4DA, none⟩,
  ⟨.umulh, 0x4DE, 0x4DE, none⟩,
  ⟨.orr, 0x550, 0x550, none⟩,
  ⟨.adds, 0x558, 0x558, none⟩]

/-- Rows 29 to 42 of the table of R94. -/
def opcodeRows3 : List OpcodeRow := [
  ⟨.addis, 0x588, 0x589, none⟩,
  ⟨.orri, 0x590, 0x591, none⟩,
  ⟨.cbz, 0x5A0, 0x5A7, none⟩,
  ⟨.cbnz, 0x5A8, 0x5AF, none⟩,
  ⟨.sturw, 0x5C0, 0x5C0, none⟩,
  ⟨.ldursw, 0x5C4, 0x5C4, none⟩,
  ⟨.sturs, 0x5E0, 0x5E0, none⟩,
  ⟨.ldurs, 0x5E2, 0x5E2, none⟩,
  ⟨.stxr, 0x640, 0x640, none⟩,
  ⟨.ldxr, 0x642, 0x642, none⟩,
  ⟨.eor, 0x650, 0x650, none⟩,
  ⟨.sub, 0x658, 0x658, none⟩,
  ⟨.subi, 0x688, 0x689, none⟩,
  ⟨.eori, 0x690, 0x691, none⟩]

/-- Rows 43 to 55 of the table of R94. -/
def opcodeRows4 : List OpcodeRow := [
  ⟨.movz, 0x694, 0x697, none⟩,
  ⟨.lsr, 0x69A, 0x69A, none⟩,
  ⟨.lsl, 0x69B, 0x69B, none⟩,
  ⟨.br, 0x6B0, 0x6B0, none⟩,
  ⟨.ands, 0x750, 0x750, none⟩,
  ⟨.subs, 0x758, 0x758, none⟩,
  ⟨.subis, 0x788, 0x789, none⟩,
  ⟨.andis, 0x790, 0x791, none⟩,
  ⟨.movk, 0x794, 0x797, none⟩,
  ⟨.stur, 0x7C0, 0x7C0, none⟩,
  ⟨.ldur, 0x7C2, 0x7C2, none⟩,
  ⟨.sturd, 0x7E0, 0x7E0, none⟩,
  ⟨.ldurd, 0x7E2, 0x7E2, none⟩]

/-- The opcode table, complete (R94). -/
def opcodeTable : List OpcodeRow := opcodeRows1 ++ opcodeRows2 ++ opcodeRows3 ++ opcodeRows4

/-- Whether an 11-bit opcode lies in a row's range (R82). -/
def inRange (op : BitVec 11) (r : OpcodeRow) : Bool := decide (r.first ≤ op.toNat) && decide (op.toNat ≤ r.last)

/-- Whether a word with this 11-bit opcode and Shamt is the row's (R82, R89). -/
def rowCovers (op : BitVec 11) (shamt : BitVec 6) (r : OpcodeRow) : Bool :=
  inRange op r &&
    (match r.shamt with
     | none => true
     | some k => shamt.toNat == k)

/-- The row of an 11-bit opcode and a Shamt, if any (R89, R90). -/
def rowFor (op : BitVec 11) (shamt : BitVec 6) : Option Row :=
  (opcodeTable.find? (rowCovers op shamt)).map (·.row)

/-- The row a word belongs to, if any (R90). -/
def rowOf (w : InstrWord) : Option Row := rowFor (op11Field w) (shamtField w)

/-- The fields a row does not use (R92). -/
def unusedFields : Row → List Field
  | .b | .fmuls | .fdivs | .fadds | .fsubs | .fmuld | .fdivd | .faddd | .fsubd | .addi | .andi
  | .bl | .sdiv | .udiv | .mul | .addis | .orri | .cbz | .cbnz | .subi | .eori | .movz | .subis
  | .andis | .movk => []
  | .fcmps | .fcmpd => [.rd]
  | .sturb | .ldurb | .sturh | .ldurh | .sturw | .ldursw | .sturs | .ldurs | .stur | .ldur | .sturd
  | .ldurd => [.op]
  | .bCond => [.rt4]
  | .and | .add | .smulh | .umulh | .orr | .adds | .eor | .sub | .ands | .subs => [.shamt]
  | .stxr => [.dtLow, .op]
  | .ldxr => [.dtAddress, .op]
  | .lsr | .lsl => [.rm]
  | .br => [.rm, .shamt, .rd]

/-- The condition a code names (R124); 14 and 15 name none. -/
def condOf (code : BitVec 4) : Option Cond :=
  match code.toNat with
  | 0 => some .eq | 1 => some .ne | 2 => some .hs | 3 => some .lo
  | 4 => some .mi | 5 => some .pl | 6 => some .vs | 7 => some .vc
  | 8 => some .hi | 9 => some .ls | 10 => some .ge | 11 => some .lt
  | 12 => some .gt | 13 => some .le
  | _ => none

/-- What a word is (R90): every word is exactly one of the three. -/
inductive Decoded
  | instr (i : Instr)
  | undefined
  | refused (why : RefusedWord)
deriving DecidableEq, Repr

/-- The operands a word of a row carries (R83 to R88, R100), and the two refusals that depend on them (R124, R179). -/
def operandsOf (row : Row) (w : InstrWord) : Decoded :=
  match row with
  | .b => .instr (.b (brField w))
  | .fmuls => .instr (.fmuls (rdField w) (rnField w) (rmField w))
  | .fdivs => .instr (.fdivs (rdField w) (rnField w) (rmField w))
  | .fcmps => .instr (.fcmps (rnField w) (rmField w))
  | .fadds => .instr (.fadds (rdField w) (rnField w) (rmField w))
  | .fsubs => .instr (.fsubs (rdField w) (rnField w) (rmField w))
  | .fmuld => .instr (.fmuld (rdField w) (rnField w) (rmField w))
  | .fdivd => .instr (.fdivd (rdField w) (rnField w) (rmField w))
  | .fcmpd => .instr (.fcmpd (rnField w) (rmField w))
  | .faddd => .instr (.faddd (rdField w) (rnField w) (rmField w))
  | .fsubd => .instr (.fsubd (rdField w) (rnField w) (rmField w))
  | .sturb => .instr (.sturb (rdField w) (rnField w) (dtField w))
  | .ldurb => .instr (.ldurb (rdField w) (rnField w) (dtField w))
  | .bCond =>
    match condOf (condField w) with
    | some c => .instr (.bCond c (condBrField w))
    | none => .refused (.condition (condField w))
  | .sturh => .instr (.sturh (rdField w) (rnField w) (dtField w))
  | .ldurh => .instr (.ldurh (rdField w) (rnField w) (dtField w))
  | .and => .instr (.and (rdField w) (rnField w) (rmField w))
  | .add => .instr (.add (rdField w) (rnField w) (rmField w))
  | .addi => .instr (.addi (rdField w) (rnField w) (aluField w))
  | .andi => .instr (.andi (rdField w) (rnField w) (aluField w))
  | .bl => .instr (.bl (brField w))
  | .sdiv => .instr (.sdiv (rdField w) (rnField w) (rmField w))
  | .udiv => .instr (.udiv (rdField w) (rnField w) (rmField w))
  | .mul => .instr (.mul (rdField w) (rnField w) (rmField w))
  | .smulh => .instr (.smulh (rdField w) (rnField w) (rmField w))
  | .umulh => .instr (.umulh (rdField w) (rnField w) (rmField w))
  | .orr => .instr (.orr (rdField w) (rnField w) (rmField w))
  | .adds => .instr (.adds (rdField w) (rnField w) (rmField w))
  | .addis => .instr (.addis (rdField w) (rnField w) (aluField w))
  | .orri => .instr (.orri (rdField w) (rnField w) (aluField w))
  | .cbz => .instr (.cbz (rdField w) (condBrField w))
  | .cbnz => .instr (.cbnz (rdField w) (condBrField w))
  | .sturw => .instr (.sturw (rdField w) (rnField w) (dtField w))
  | .ldursw => .instr (.ldursw (rdField w) (rnField w) (dtField w))
  | .sturs => .instr (.sturs (rdField w) (rnField w) (dtField w))
  | .ldurs => .instr (.ldurs (rdField w) (rnField w) (dtField w))
  | .stxr =>
    if stxrOverlaps (rmField w) (rdField w) (rnField w) then .refused .stxrOverlap
    else .instr (.stxr (rmField w) (rdField w) (rnField w))
  | .ldxr => .instr (.ldxr (rdField w) (rnField w))
  | .eor => .instr (.eor (rdField w) (rnField w) (rmField w))
  | .sub => .instr (.sub (rdField w) (rnField w) (rmField w))
  | .subi => .instr (.subi (rdField w) (rnField w) (aluField w))
  | .eori => .instr (.eori (rdField w) (rnField w) (aluField w))
  | .movz => .instr (.movz (rdField w) (movField w) (hwField w))
  | .lsr => .instr (.lsr (rdField w) (rnField w) (shamtField w))
  | .lsl => .instr (.lsl (rdField w) (rnField w) (shamtField w))
  | .br => .instr (.br (rnField w))
  | .ands => .instr (.ands (rdField w) (rnField w) (rmField w))
  | .subs => .instr (.subs (rdField w) (rnField w) (rmField w))
  | .subis => .instr (.subis (rdField w) (rnField w) (aluField w))
  | .andis => .instr (.andis (rdField w) (rnField w) (aluField w))
  | .movk => .instr (.movk (rdField w) (movField w) (hwField w))
  | .stur => .instr (.stur (rdField w) (rnField w) (dtField w))
  | .ldur => .instr (.ldur (rdField w) (rnField w) (dtField w))
  | .sturd => .instr (.sturd (rdField w) (rnField w) (dtField w))
  | .ldurd => .instr (.ldurd (rdField w) (rnField w) (dtField w))

/-- The first unused field of a row that is not zero in a word (R92). -/
def nonzeroUnused (row : Row) (w : InstrWord) : Option Field :=
  (unusedFields row).find? fun f => !fieldIsZero w f

/-- `Decode` (R90). With `UNUSED_FIELDS = ignore` a word decodes as if its unused fields were zero (R92). -/
def decode (mode : UnusedFields) (w : InstrWord) : Decoded :=
  match rowOf w with
  | none => .undefined
  | some row =>
    match mode, nonzeroUnused row w with
    | .refuse, some f => .refused (.unusedField row f)
    | .refuse, none => operandsOf row w
    | .ignore, _ => operandsOf row w

/-- The decoder on bytes as they lie in memory. -/
def decodeBytes (mode : UnusedFields) (bytes : List Byte) : Decoded := decode mode (wordOfBytes bytes)

/-- The instruction read from the word whose bits are the low `nbits` of `w` (bits above are zero), laid out as the
hardware stores it and decoded under the default `UNUSED_FIELDS = refuse` (R7). -/
def decodeTableWord (nbits w : Nat) : Option Instr :=
  match decodeBytes .refuse (bytesOfWord (BitVec.ofNat 32 (w % 2 ^ nbits))) with
  | .instr i => some i
  | .undefined => none
  | .refused _ => none

/-! The encoder: the six layouts and the opcode, Shamt and canonical zero fields of every row (R83 to R88, R92, R94). -/

/-- Format R (R83). -/
def encodeR (op : BitVec 11) (rm : Reg) (shamt : BitVec 6) (rn rd : Reg) : InstrWord :=
  op ++ rm ++ shamt ++ rn ++ rd
/-- Format I (R84). -/
def encodeI (op : BitVec 10) (imm : BitVec 12) (rn rd : Reg) : InstrWord := op ++ imm ++ rn ++ rd
/-- Format D (R85). -/
def encodeD (op : BitVec 11) (dt : BitVec 9) (op2 : BitVec 2) (rn rt : Reg) : InstrWord :=
  op ++ dt ++ op2 ++ rn ++ rt
/-- Format B (R86). -/
def encodeB (op : BitVec 6) (address : BitVec 26) : InstrWord := op ++ address
/-- Format CB (R87). -/
def encodeCB (op : BitVec 8) (address : BitVec 19) (rt : Reg) : InstrWord := op ++ address ++ rt
/-- Format IM (R88). -/
def encodeIM (op : BitVec 9) (hw : BitVec 2) (imm : BitVec 16) (rd : Reg) : InstrWord := op ++ hw ++ imm ++ rd

/-- The code of a condition (R124). -/
def codeOf : Cond → BitVec 4
  | .eq => 0 | .ne => 1 | .hs => 2 | .lo => 3 | .mi => 4 | .pl => 5 | .vs => 6 | .vc => 7
  | .hi => 8 | .ls => 9 | .ge => 10 | .lt => 11 | .gt => 12 | .le => 13

/-- The canonical word of an instruction (R94; the Encoding line of each instruction's rule). -/
def encode : Instr → InstrWord
  | .b address => encodeB 0b000101 address
  | .fmuls rd rn rm => encodeR 0b00011110001 rm 0b000010 rn rd
  | .fdivs rd rn rm => encodeR 0b00011110001 rm 0b000110 rn rd
  | .fcmps rn rm => encodeR 0b00011110001 rm 0b001000 rn 0
  | .fadds rd rn rm => encodeR 0b00011110001 rm 0b001010 rn rd
  | .fsubs rd rn rm => encodeR 0b00011110001 rm 0b001110 rn rd
  | .fmuld rd rn rm => encodeR 0b00011110011 rm 0b000010 rn rd
  | .fdivd rd rn rm => encodeR 0b00011110011 rm 0b000110 rn rd
  | .fcmpd rn rm => encodeR 0b00011110011 rm 0b001000 rn 0
  | .faddd rd rn rm => encodeR 0b00011110011 rm 0b001010 rn rd
  | .fsubd rd rn rm => encodeR 0b00011110011 rm 0b001110 rn rd
  | .sturb rt rn offset => encodeD 0b00111000000 offset 0 rn rt
  | .ldurb rt rn offset => encodeD 0b00111000010 offset 0 rn rt
  | .bCond cond address => encodeCB 0b01010100 address (0#1 ++ codeOf cond)
  | .sturh rt rn offset => encodeD 0b01111000000 offset 0 rn rt
  | .ldurh rt rn offset => encodeD 0b01111000010 offset 0 rn rt
  | .and rd rn rm => encodeR 0b10001010000 rm 0b000000 rn rd
  | .add rd rn rm => encodeR 0b10001011000 rm 0b000000 rn rd
  | .addi rd rn imm => encodeI 0b1001000100 imm rn rd
  | .andi rd rn imm => encodeI 0b1001001000 imm rn rd
  | .bl address => encodeB 0b100101 address
  | .sdiv rd rn rm => encodeR 0b10011010110 rm 0b000010 rn rd
  | .udiv rd rn rm => encodeR 0b10011010110 rm 0b000011 rn rd
  | .mul rd rn rm => encodeR 0b10011011000 rm 0b011111 rn rd
  | .smulh rd rn rm => encodeR 0b10011011010 rm 0b000000 rn rd
  | .umulh rd rn rm => encodeR 0b10011011110 rm 0b000000 rn rd
  | .orr rd rn rm => encodeR 0b10101010000 rm 0b000000 rn rd
  | .adds rd rn rm => encodeR 0b10101011000 rm 0b000000 rn rd
  | .addis rd rn imm => encodeI 0b1011000100 imm rn rd
  | .orri rd rn imm => encodeI 0b1011001000 imm rn rd
  | .cbz rt address => encodeCB 0b10110100 address rt
  | .cbnz rt address => encodeCB 0b10110101 address rt
  | .sturw rt rn offset => encodeD 0b10111000000 offset 0 rn rt
  | .ldursw rt rn offset => encodeD 0b10111000100 offset 0 rn rt
  | .sturs rt rn offset => encodeD 0b10111100000 offset 0 rn rt
  | .ldurs rt rn offset => encodeD 0b10111100010 offset 0 rn rt
  | .stxr rs rt rn => encodeD 0b11001000000 (rs ++ 0#4) 0 rn rt
  | .ldxr rt rn => encodeD 0b11001000010 0 0 rn rt
  | .eor rd rn rm => encodeR 0b11001010000 rm 0b000000 rn rd
  | .sub rd rn rm => encodeR 0b11001011000 rm 0b000000 rn rd
  | .subi rd rn imm => encodeI 0b1101000100 imm rn rd
  | .eori rd rn imm => encodeI 0b1101001000 imm rn rd
  | .movz rd imm hw => encodeIM 0b110100101 hw imm rd
  | .lsr rd rn shamt => encodeR 0b11010011010 0 shamt rn rd
  | .lsl rd rn shamt => encodeR 0b11010011011 0 shamt rn rd
  | .br rn => encodeR 0b11010110000 0 0 rn 0
  | .ands rd rn rm => encodeR 0b11101010000 rm 0b000000 rn rd
  | .subs rd rn rm => encodeR 0b11101011000 rm 0b000000 rn rd
  | .subis rd rn imm => encodeI 0b1111000100 imm rn rd
  | .andis rd rn imm => encodeI 0b1111001000 imm rn rd
  | .movk rd imm hw => encodeIM 0b111100101 hw imm rd
  | .stur rt rn offset => encodeD 0b11111000000 offset 0 rn rt
  | .ldur rt rn offset => encodeD 0b11111000010 offset 0 rn rt
  | .sturd rt rn offset => encodeD 0b11111100000 offset 0 rn rt
  | .ldurd rt rn offset => encodeD 0b11111100010 offset 0 rn rt

end Sys2Proof
end

