-- ==== Sys2Proof/Machine/State.lean ====
section
/-! DEFINITION. The machine's state (spec/10_state.md R20), as plain data, its value at reset (R36, R290), and the
reasons a step can stop. -/

namespace Sys2Proof.Machine

/-- The four condition flags (R25). -/
structure Flags where
  n : Bool
  z : Bool
  c : Bool
  v : Bool
deriving DecidableEq, Repr

/-- The exclusive monitor (R32). -/
inductive Monitor
  | clear
  | armed (addr : Word)
deriving DecidableEq, Repr

/-- The ten exception classes of the source (R251). -/
inductive ExcClass
  | unknown | simdDisabled | illegalState | supervisorCall | instructionAbort
  | pcAlignment | dataAbort | fpException | watchpoint | breakpoint
deriving DecidableEq, Repr

/-- What the run has come to (R265, R268): `ended` and `faulted` are terminal and repeat for ever (R253, log 9).
The outcomes `Refused` and `UnwrittenRead` of R268 are the step's outcomes `refused` and `fault`. -/
inductive RunStatus
  | running
  | ended
  | faulted (ec : ExcClass)
deriving DecidableEq, Repr

/-- Memory: the bytes something has written, addresses strictly rising; an address not listed is `unwritten`
(R33, R36, log 8). -/
abbrev Memory := List Host.Cell

/-- Every piece of state the spec gives the machine (R20), the run constants of R7 (`cfg`, log 1), and `draws`, the
model's own count of free values taken (log 12). `x[31]` is not stored: it reads as zero (R22). `none` in `esr`,
`faultPc`, `faultAddr` is the spec's "no exception recorded" (R36, log 7). -/
structure State where
  cfg : Config
  x : Vector Word 31
  pc : Word
  flags : Flags
  d : Vector Word 32
  esr : Option (BitVec 32)
  faultPc : Option Word
  faultAddr : Option Word
  monitor : Monitor
  mem : Memory
  run : RunStatus
  draws : Nat
deriving DecidableEq, Repr

/-- The model-level faults: not exceptions of the hardware. -/
inductive Fault
  /-- A fetch or a load reads a byte that nothing has written (R37, R256 orders 4 and 10). Safe: the hardware goes on
  with a value no source gives. -/
  | unwrittenRead (addr : Nat)
deriving DecidableEq, Repr

/-- The words to which the spec gives no meaning. -/
inductive Refusal
  /-- Raised by exec's arm of an instruction that has no meaning yet; safe. -/
  | notModelled (mnemonic : String)
  /-- Raised by a step whose word the decoder refuses (R90, R256 order 6, U2), and by `STXR` on overlapping registers
  (R179). Safe: the spec gives no effect. -/
  | refusedWord (why : RefusedWord)
deriving DecidableEq, Repr

/-- The machine right after reset (R36, R290): the spec's values for the monitor, `ESR` and the fault record, nothing
written in memory; `RESET_PC` of 95_test_vectors.md section 9 (log 2); every register and flag the spec leaves open at
zero (log 5, 6). -/
def State.reset : State where
  cfg := Config.standard
  x := Vector.replicate 31 0#64
  pc := 0x0000000000400000#64
  flags := ⟨false, false, false, false⟩
  d := Vector.replicate 32 0#64
  esr := none
  faultPc := none
  faultAddr := none
  monitor := .clear
  mem := []
  run := .running
  draws := 0

end Sys2Proof.Machine
end

