-- ==== Sys2Proof/Machine/Ops.lean ====
section
/-! DEFINITION. The named operations over registers and memory, taking an exception, and the ways an instruction ends
(spec/00_scope.md R9, R10). -/

namespace Sys2Proof.Machine

/-- The outcome of a step. -/
abbrev Result := Host.Outcome State Fault Refusal

/-! ## Registers -/

/-- `x[i]`: register 31 reads as 64 zero bits (R22). -/
def State.readX (s : State) (i : Reg) : Word :=
  if h : i.toNat < 31 then s.x[i.toNat] else 0#64

/-- `x[i] <- v`: a write to register 31 is discarded (R22). -/
def State.writeX (s : State) (i : Reg) (v : Word) : State :=
  if h : i.toNat < 31 then { s with x := s.x.set i.toNat v } else s

/-- `d[i]` (R27). -/
def State.readD (s : State) (i : Reg) : Word := s.d[i.toNat]'i.isLt

/-- `d[i] <- v` (R27). -/
def State.writeD (s : State) (i : Reg) (v : Word) : State := { s with d := s.d.set i.toNat v i.isLt }

/-- `s[i]`, the low 32 bits of `d[i]` (R27). -/
def State.readS (s : State) (i : Reg) : BitVec 32 := (s.readD i).extractLsb' 0 32

/-- `s[i] <- v`: bits 63:32 of `d[i]` become zero (R27). -/
def State.writeS (s : State) (i : Reg) (v : BitVec 32) : State := s.writeD i (v.setWidth 64)

/-- `flags <- f`: the four are always written together (R25). -/
def State.writeFlags (s : State) (f : Flags) : State := { s with flags := f }

/-- `pc <- target` (R9). -/
def State.jump (s : State) (target : Word) : State := { s with pc := target }

/-- `pc <- pc + 4`, modulo 2^64 (R24). -/
def State.advance (s : State) : State := s.jump (s.pc + 4#64)

/-- `monitor <- m` (R32). -/
def State.setMonitor (s : State) (m : Monitor) : State := { s with monitor := m }

/-! ## Memory -/

/-- The byte at an address; `none` where nothing has written it (R33, R37). -/
def Memory.read : Memory → Nat → Option Byte
  | [], _ => none
  | (k, v) :: m, a => if a = k then some v else Memory.read m a

/-- Write one byte, keeping the addresses in rising order. -/
def Memory.write : Memory → Nat → Byte → Memory
  | [], a, b => [(a, b)]
  | (k, v) :: m, a, b =>
    if a < k then (a, b) :: (k, v) :: m
    else if a = k then (k, b) :: m
    else (k, v) :: Memory.write m a b

/-- Addresses rise strictly, from `low` on, and are 64-bit addresses. -/
def Memory.sortedFrom (low : Nat) : Memory → Bool
  | [] => true
  | (k, _) :: m => decide (low ≤ k) && decide (k < 2 ^ 64) && Memory.sortedFrom (k + 1) m

/-- The canonical form of memory. An unlisted address holds no value, so no listed byte equals what it would read
as. -/
def Memory.wf (m : Memory) : Bool := Memory.sortedFrom 0 m

/-- What an access to memory gives: its result, one of the aborts, or the first `unwritten` byte (R37). -/
inductive Access (α : Type)
  | ok (value : α)
  | abort
  | unwritten (addr : Nat)
deriving DecidableEq, Repr

/-- The `n` bytes from `a` up. -/
def Memory.readBytes (m : Memory) (a : Nat) : Nat → Access (List Byte)
  | 0 => .ok []
  | n + 1 =>
    match m.read a with
    | none => .unwritten a
    | some b =>
      match Memory.readBytes m (a + 1) n with
      | .ok bs => .ok (b :: bs)
      | .abort => .abort
      | .unwritten u => .unwritten u

/-- Write bytes from `a` up. -/
def Memory.writeBytes (m : Memory) (a : Nat) : List Byte → Memory
  | [] => m
  | b :: bs => Memory.writeBytes (m.write a b) (a + 1) bs

/-- Whether a region holds an address. -/
def regionHolds (a : Nat) (r : Region) : Bool := decide (r.base ≤ a) && decide (a < r.base + r.size)

/-- The mark an access needs (R50). -/
def regionAllows (k : AccessKind) (r : Region) : Bool :=
  match k with
  | .read => r.readable
  | .write => r.writable
  | .fetch => r.executable

/-- Whether the byte at `a` exists and has the mark (R50, R58). -/
def permits (map : MemMap) (k : AccessKind) (a : Nat) : Bool :=
  match map.find? (regionHolds a) with
  | none => false
  | some r => regionAllows k r

/-- Whether each of the `n` bytes from `a` up exists and has the mark (R53 to R55). -/
def permitsAll (map : MemMap) (k : AccessKind) (a : Nat) : Nat → Bool
  | 0 => true
  | n + 1 => permits map k a && permitsAll map k (a + 1) n

/-- Whether an access of `n` bytes at `addr` is naturally aligned and every byte of it may be accessed so (R53, R54,
R56, R58). An aligned access does not cross 2^64, so the bytes are `addr.toNat` to `addr.toNat + n - 1` (log 23). -/
def State.accessible (s : State) (k : AccessKind) (addr : Word) (n : Nat) : Bool :=
  decide (addr.toNat % n = 0) && permitsAll s.cfg.memMap k addr.toNat n

/-- `MemRead(addr, n)` (R53): the bytes in rising order of address. -/
def memRead (s : State) (addr : Word) (n : Nat) : Access (List Byte) :=
  if s.accessible .read addr n then s.mem.readBytes addr.toNat n else .abort

/-- `MemWrite(addr, n, v)` (R54): the low 8n bits of `v`, most significant byte first, after all checks; `none` is Data
Abort. -/
def memWrite (s : State) (addr : Word) (n : Nat) (v : Nat) : Option State :=
  if s.accessible .write addr n then some { s with mem := s.mem.writeBytes addr.toNat (beBytes n v) } else none

/-! ## Exceptions -/

/-- The exceptions of R9's `raise`, with the address a class records (R252, R253). The last four are never raised. -/
inductive Exc
  | unknown
  | fpDisabled
  | instructionAbort (addr : Word)
  | pcAlignment (addr : Word)
  | dataAbort (addr : Word)
  | fpException
  | illegalState
  | supervisorCall
  | watchpoint
  | breakpoint
deriving DecidableEq, Repr

/-- The class of an exception (R252). -/
def Exc.cls : Exc → ExcClass
  | .unknown => .unknown
  | .fpDisabled => .simdDisabled
  | .instructionAbort _ => .instructionAbort
  | .pcAlignment _ => .pcAlignment
  | .dataAbort _ => .dataAbort
  | .fpException => .fpException
  | .illegalState => .illegalState
  | .supervisorCall => .supervisorCall
  | .watchpoint => .watchpoint
  | .breakpoint => .breakpoint

/-- The address `FAULT_ADDR` receives: classes 32, 34 and 36 only (R252, R253). -/
def Exc.addr : Exc → Option Word
  | .instructionAbort a => some a
  | .pcAlignment a => some a
  | .dataAbort a => some a
  | .unknown => none
  | .fpDisabled => none
  | .fpException => none
  | .illegalState => none
  | .supervisorCall => none
  | .watchpoint => none
  | .breakpoint => none

/-- The number of a class, the value of `ESR.EC` (R251). -/
def ExcClass.code : ExcClass → BitVec 6
  | .unknown => 0
  | .simdDisabled => 7
  | .illegalState => 14
  | .supervisorCall => 17
  | .instructionAbort => 32
  | .pcAlignment => 34
  | .dataAbort => 36
  | .fpException => 40
  | .watchpoint => 52
  | .breakpoint => 56

/-- `ESR = (EC << 26) | (IL << 25) | ISS` (R250), with `IL = 1` (R254). -/
def esrWord (ec : ExcClass) (iss : BitVec 25) : BitVec 32 := ec.code ++ 1#1 ++ iss

/-- Exception entry (R253): `ESR` with a drawn `ISS` (R255, log 10), `FAULT_PC` the instruction's address,
`FAULT_ADDR` where the class has one, the monitor cleared, the run ended in `Faulted(ec)`; nothing else. There is no
return from it (R258): no step follows but the same state again. -/
def takeException (e : Exc) (s : State) : State :=
  { s with
    esr := some (esrWord e.cls (Config.issValue s.draws))
    faultPc := some s.pc
    faultAddr :=
      match e.addr with
      | some a => some a
      | none => s.faultAddr
    monitor := .clear
    run := .faulted e.cls
    draws := s.draws + 1 }

/-! ## How an instruction ends -/

/-- `raise e`: the instruction writes nothing else (R9, R253). -/
def raise (e : Exc) (s : State) : Result := .next (takeException e s)

/-- Complete with `x[rd] <- v; pc <- pc + 4`. -/
def finishX (rd : Reg) (v : Word) (s : State) : Result := .next (s.writeX rd v).advance

/-- Complete with `x[rd] <- v; flags <- f; pc <- pc + 4`. -/
def finishXFlags (rd : Reg) (v : Word) (f : Flags) (s : State) : Result :=
  .next ((s.writeX rd v).writeFlags f).advance

/-- Complete a load of `n` bytes at `addr`: `put` writes the loaded bytes to the destination (R185). -/
def finishLoad (addr : Word) (n : Nat) (put : List Byte → State → State) (s : State) : Result :=
  match memRead s addr n with
  | .ok bytes => .next (put bytes s).advance
  | .abort => raise (.dataAbort addr) s
  | .unwritten a => .fault (.unwrittenRead a)

/-- Complete a store of the low 8n bits of `v` at `addr` (R185). -/
def finishStore (addr : Word) (n : Nat) (v : Nat) (s : State) : Result :=
  match memWrite s addr n v with
  | some t => .next t.advance
  | none => raise (.dataAbort addr) s

/-- The check every floating-point instruction makes before anything else (R144). -/
def ifFpEnabled (s : State) (body : Result) : Result :=
  if s.cfg.fpEnabled then body else raise .fpDisabled s

end Sys2Proof.Machine
end

