-- ==== Sys2Proof/Machine/Flags.lean ====
section
/-! DEFINITION. The flag computations (spec/43_integer_register.md R200, R209; spec/40_branches.md R124). -/

namespace Sys2Proof.Machine

/-- `AddWithCarry(a, b, cin)` (R200): the exact unsigned and signed sums, then the 64-bit result and the flags. -/
def addWithCarry (a b : Word) (cin : Bool) : Word × Flags :=
  let usum : Nat := a.toNat + b.toNat + cin.toNat
  let ssum : Int := a.toInt + b.toInt + cin.toNat
  let result : Word := BitVec.ofNat 64 usum
  (result,
    { n := result.msb
      z := result == 0#64
      c := decide (2 ^ 64 ≤ usum)
      v := decide (ssum < -2 ^ 63) || decide (2 ^ 63 ≤ ssum) })

/-- `a - b` is `AddWithCarry(a, NOT b, 1)` (R200). -/
def subWithFlags (a b : Word) : Word × Flags := addWithCarry a (~~~b) true

/-- The flags of `ANDS` and `ANDIS`: N and Z from the result, C and V cleared (R209, R229). -/
def logicFlags (r : Word) : Flags := { n := r.msb, z := r == 0#64, c := false, v := false }

/-- `ConditionHolds(cond, flags)` (R124). -/
def conditionHolds (c : Cond) (f : Flags) : Bool :=
  match c with
  | .eq => f.z
  | .ne => !f.z
  | .hs => f.c
  | .lo => !f.c
  | .mi => f.n
  | .pl => !f.n
  | .vs => f.v
  | .vc => !f.v
  | .hi => f.c && !f.z
  | .ls => !(f.c && !f.z)
  | .ge => f.n == f.v
  | .lt => f.n != f.v
  | .gt => !f.z && f.n == f.v
  | .le => !(!f.z && f.n == f.v)

end Sys2Proof.Machine
end

