-- ==== Sys2Proof/Machine/Operands.lean ====
section
/-! DEFINITION. How operands are assembled (spec/30_encoding.md R91) and where a load or store goes
(spec/42_loads_stores.md R170). -/

namespace Sys2Proof.Machine

/-- `ALUImm`: zero-extended, for the arithmetic and the logical instructions alike (R91, R220). -/
def aluImm (imm : BitVec 12) : Word := imm.setWidth 64

/-- `DTAddr`: a signed byte offset, not scaled (R91). -/
def dtAddr (offset : BitVec 9) : Word := offset.signExtend 64

/-- `BranchAddr`: a signed word offset (R91). -/
def branchAddr (address : BitVec 26) : Word := (address ++ 0b00#2).signExtend 64

/-- `CondBranchAddr`: a signed word offset (R91). -/
def condBranchAddr (address : BitVec 19) : Word := (address ++ 0b00#2).signExtend 64

/-- The bit position `16 * uint(hw)` of a wide immediate (R231). -/
def movShift (hw : BitVec 2) : Nat := 16 * hw.toNat

/-- `MOVImm`: the zero-extended immediate at its position (R91, R227). -/
def movImm (imm : BitVec 16) (hw : BitVec 2) : Word := imm.setWidth 64 <<< movShift hw

/-- The 16 bits `v[s+15 : s]` with the immediate in their place (R230). -/
def movKeep (v : Word) (imm : BitVec 16) (hw : BitVec 2) : Word :=
  (v &&& ~~~ movImm 0xFFFF#16 hw) ||| movImm imm hw

/-- `EA <- x[Rn] + sext_64(instr[20:12])`, modulo 2^64 (R170). -/
def State.effAddr (s : State) (rn : Reg) (offset : BitVec 9) : Word := s.readX rn + dtAddr offset

/-- A loaded value of `w` bits, zero-extended (R53, R185). -/
def loadZero (w : Nat) (bytes : List Byte) : Word := (BitVec.ofNat w (beNat bytes)).setWidth 64

/-- A loaded value of `w` bits, sign-extended (R176). -/
def loadSign (w : Nat) (bytes : List Byte) : Word := (BitVec.ofNat w (beNat bytes)).signExtend 64

end Sys2Proof.Machine
end

