-- ==== Sys2Proof/Machine/Branch.lean ====
section
/-! DEFINITION. The branches (spec/40_branches.md R120 to R127). A target is relative to the branch's own address. -/

namespace Sys2Proof.Machine

/-- Complete with `pc <- pc + offset`, modulo 2^64, or `pc <- pc + 4` where the branch is not taken (R120). -/
def finishBranch (taken : Bool) (offset : Word) (s : State) : Result :=
  .next (if taken then s.jump (s.pc + offset) else s.advance)

/-- `B` (R121). -/
def execB (address : BitVec 26) (s : State) : Result := finishBranch true (branchAddr address) s

/-- `BL` (R122): both right-hand sides use the `pc` of the `BL` itself. -/
def execBl (address : BitVec 26) (s : State) : Result :=
  finishBranch true (branchAddr address) (s.writeX 30#5 (s.pc + 4#64))

/-- `B.cond` (R123). -/
def execBCond (cond : Cond) (address : BitVec 19) (s : State) : Result :=
  finishBranch (conditionHolds cond s.flags) (condBranchAddr address) s

/-- `CBZ` (R125). -/
def execCbz (rt : Reg) (address : BitVec 19) (s : State) : Result :=
  finishBranch (s.readX rt == 0#64) (condBranchAddr address) s

/-- `CBNZ` (R126). -/
def execCbnz (rt : Reg) (address : BitVec 19) (s : State) : Result :=
  finishBranch (s.readX rt != 0#64) (condBranchAddr address) s

/-- `BR` (R127): the whole value of the register, no bit masked; a misaligned target is found by the next fetch. -/
def execBr (rn : Reg) (s : State) : Result := .next (s.jump (s.readX rn))

end Sys2Proof.Machine
end

