-- ==== Sys2Proof/Machine/Numerics.lean ====
section
/-! DEFINITION. The numerics record (spec/41_floating_point.md R140 to R143): IEEE 754 binary32 and binary64 on bit
patterns held as natural numbers, computed exactly and rounded once. -/

namespace Sys2Proof.Machine

/-- A format (R140): the widths of its exponent and fraction fields. -/
structure FpFormat where
  expBits : Nat
  fracBits : Nat
deriving DecidableEq, Repr

/-- Single precision (R140). -/
def FpFormat.single : FpFormat := ⟨8, 23⟩
/-- Double precision (R140). -/
def FpFormat.double : FpFormat := ⟨11, 52⟩

/-- `Bias`: 127 or 1023 (R141). -/
def fpBias (f : FpFormat) : Nat := 2 ^ (f.expBits - 1) - 1
/-- `MAX`: 255 or 2047 (R142). -/
def fpMax (f : FpFormat) : Nat := 2 ^ f.expBits - 1
/-- The exponent of the last fraction bit of a denormalised number: `1 - Bias - fracBits` (R141). -/
def fpMinExp (f : FpFormat) : Int := 1 - (fpBias f : Int) - f.fracBits

/-- The field `S` (R140). -/
def fpSign (f : FpFormat) (bits : Nat) : Bool := bits / 2 ^ (f.expBits + f.fracBits) % 2 == 1
/-- The field `Exponent` (R140). -/
def fpExponent (f : FpFormat) (bits : Nat) : Nat := bits / 2 ^ f.fracBits % 2 ^ f.expBits
/-- The field `Fraction` (R140). -/
def fpFraction (f : FpFormat) (bits : Nat) : Nat := bits % 2 ^ f.fracBits

/-- What a bit pattern denotes (R142). A finite number is `(-1)^neg * mag * 2^exp`. -/
inductive FpDatum
  | nan (signalling : Bool)
  | inf (neg : Bool)
  | finite (neg : Bool) (mag : Nat) (exp : Int)
deriving DecidableEq, Repr

/-- The table "IEEE 754 Symbols" (R142) with the values of R141. -/
def fpUnpack (f : FpFormat) (bits : Nat) : FpDatum :=
  let e := fpExponent f bits
  let m := fpFraction f bits
  if e = fpMax f then
    if m = 0 then .inf (fpSign f bits) else .nan (m / 2 ^ (f.fracBits - 1) % 2 == 0)
  else if e = 0 then .finite (fpSign f bits) m (fpMinExp f)
  else .finite (fpSign f bits) (2 ^ f.fracBits + m) ((e : Int) - fpBias f - f.fracBits)

/-- The pattern with a sign and the exponent and fraction fields `mag`. -/
def fpPack (f : FpFormat) (neg : Bool) (mag : Nat) : Nat := neg.toNat * 2 ^ (f.expBits + f.fracBits) + mag

/-- The exponent and fraction fields of infinity (R142). -/
def fpInfMag (f : FpFormat) : Nat := fpMax f * 2 ^ f.fracBits

/-- The exceptions an operation signals that are in `FP_TRAPS`: is there one (R143 item 7)? -/
def fpTrapped (traps signals : FpExceptions) : Bool :=
  (traps.invalid && signals.invalid) || (traps.divByZero && signals.divByZero) ||
    (traps.overflow && signals.overflow) || (traps.underflow && signals.underflow) ||
    (traps.inexact && signals.inexact)

/-- What an operation gives: a number or infinity by its pattern, or a NaN (`none`), whose pattern is open
(R143 item 6), and the exceptions IEEE 754 says it signals (log 15). -/
structure FpResult where
  bits : Option Nat
  signals : FpExceptions
deriving DecidableEq, Repr

/-- An exact result. -/
def fpExact (f : FpFormat) (neg : Bool) (mag : Nat) : FpResult := ⟨some (fpPack f neg mag), FpExceptions.empty⟩

/-- An invalid operation on operands that are no NaN (R143 item 4). -/
def fpInvalid : FpResult := ⟨none, { FpExceptions.empty with invalid := true }⟩

/-- Whether a datum is a signalling NaN (R142). -/
def fpSignalling : FpDatum → Bool
  | .nan q => q
  | .inf _ => false
  | .finite _ _ _ => false

/-- A NaN operand gives a NaN (R143 item 5); a signalling one signals invalid operation (log 15). -/
def fpNanOperand (a b : FpDatum) : FpResult :=
  ⟨none, { FpExceptions.empty with invalid := fpSignalling a || fpSignalling b }⟩

/-- `num / den / 2^q` as a quotient of natural numbers. -/
def ratioAt (num den : Nat) (q : Int) : Nat × Nat :=
  if 0 ≤ q then (num, den * 2 ^ q.toNat) else (num * 2 ^ (-q).toNat, den)

/-- The greatest `e` with `2^e ≤ num / den`, for positive `num` and `den`. -/
def ratioLog2 (num den : Nat) : Int :=
  let k : Int := (num.log2 : Int) - den.log2
  let r := ratioAt num den k
  if r.2 ≤ r.1 then k else k - 1

/-- The natural number nearest to `n / d`, the even one of two equally near (R143 item 2). -/
def nearestEven (n d : Nat) : Nat :=
  let m := n / d
  let r := n % d
  if 2 * r < d then m
  else if d < 2 * r then m + 1
  else if m % 2 = 0 then m
  else m + 1

/-- The exponent of the last place a result of magnitude `num / den` is rounded to: `fracBits` below its leading bit,
but never below the last place of the denormalised numbers (gradual underflow, R143 item 1). -/
def roundingPlace (f : FpFormat) (num den : Nat) : Int := max (ratioLog2 num den - f.fracBits) (fpMinExp f)

/-- Whether a non-zero magnitude `num / den` is tiny (log 14). -/
def fpTiny (f : FpFormat) (t : Tininess) (num den : Nat) : Bool :=
  let e := ratioLog2 num den
  let least : Int := 1 - fpBias f
  match t with
  | .beforeRounding => decide (e < least)
  | .afterRounding =>
    let r := ratioAt num den (e - f.fracBits)
    decide (e < least) && !(decide (e + 1 = least) && nearestEven r.1 r.2 == 2 ^ (f.fracBits + 1))

/-- Round the exact non-zero magnitude `num / den` to the format, to nearest, ties to even; a rounded magnitude too large
for it is infinity (R143 item 2). Counting from the least denormalised number, the fields of the number
`m * 2^q` with `q = roundingPlace` are `(q - fpMinExp) * 2^fracBits + m`: a carry out of `m` lands in the exponent. -/
def roundRatio (f : FpFormat) (t : Tininess) (neg : Bool) (num den : Nat) : FpResult :=
  let q := roundingPlace f num den
  let r := ratioAt num den q
  let mag := (q - fpMinExp f).toNat * 2 ^ f.fracBits + nearestEven r.1 r.2
  if fpInfMag f ≤ mag then
    ⟨some (fpPack f neg (fpInfMag f)), { FpExceptions.empty with overflow := true, inexact := true }⟩
  else
    ⟨some (fpPack f neg mag),
      { FpExceptions.empty with underflow := fpTiny f t num den, inexact := r.1 % r.2 != 0 }⟩

/-- Round the exact magnitude `num / den * 2^e`. -/
def roundScaled (f : FpFormat) (t : Tininess) (neg : Bool) (num den : Nat) (e : Int) : FpResult :=
  let r := ratioAt num den (-e)
  roundRatio f t neg r.1 r.2

/-- Multiplication (R143 items 2 to 5). -/
def fpMul (f : FpFormat) (t : Tininess) (a b : FpDatum) : FpResult :=
  match a, b with
  | .nan _, _ => fpNanOperand a b
  | .inf _, .nan _ => fpNanOperand a b
  | .finite _ _ _, .nan _ => fpNanOperand a b
  | .inf s, .inf u => fpExact f (s != u) (fpInfMag f)
  | .inf s, .finite u n _ => if n = 0 then fpInvalid else fpExact f (s != u) (fpInfMag f)
  | .finite s m _, .inf u => if m = 0 then fpInvalid else fpExact f (s != u) (fpInfMag f)
  | .finite s m e, .finite u n k =>
    if m * n = 0 then fpExact f (s != u) 0 else roundScaled f t (s != u) (m * n) 1 (e + k)

/-- Division (R143 items 2 to 5). -/
def fpDiv (f : FpFormat) (t : Tininess) (a b : FpDatum) : FpResult :=
  match a, b with
  | .nan _, _ => fpNanOperand a b
  | .inf _, .nan _ => fpNanOperand a b
  | .finite _ _ _, .nan _ => fpNanOperand a b
  | .inf _, .inf _ => fpInvalid
  | .inf s, .finite u _ _ => fpExact f (s != u) (fpInfMag f)
  | .finite s _ _, .inf u => fpExact f (s != u) 0
  | .finite s m e, .finite u n k =>
    if n = 0 then
      if m = 0 then fpInvalid
      else ⟨some (fpPack f (s != u) (fpInfMag f)), { FpExceptions.empty with divByZero := true }⟩
    else if m = 0 then fpExact f (s != u) 0
    else roundScaled f t (s != u) m n (e - k)

/-- A signed magnitude counted in units of `2^e`, for `e ≤ exp`. -/
def signedAt (neg : Bool) (mag : Nat) (exp e : Int) : Int :=
  let v : Int := (mag * 2 ^ (exp - e).toNat : Nat)
  if neg then -v else v

/-- Addition (R143 items 2 to 5); an exact zero is -0 only where both operands are negative zeros (item 3). -/
def fpAdd (f : FpFormat) (t : Tininess) (a b : FpDatum) : FpResult :=
  match a, b with
  | .nan _, _ => fpNanOperand a b
  | .inf _, .nan _ => fpNanOperand a b
  | .finite _ _ _, .nan _ => fpNanOperand a b
  | .inf s, .inf u => if s = u then fpExact f s (fpInfMag f) else fpInvalid
  | .inf s, .finite _ _ _ => fpExact f s (fpInfMag f)
  | .finite _ _ _, .inf u => fpExact f u (fpInfMag f)
  | .finite s m e, .finite u n k =>
    let low := min e k
    let sum := signedAt s m e low + signedAt u n k low
    if sum = 0 then fpExact f (s && u) 0 else roundScaled f t (decide (sum < 0)) sum.natAbs 1 low

/-- The number with the other sign; a NaN as it is. -/
def fpNegate : FpDatum → FpDatum
  | .nan q => .nan q
  | .inf s => .inf !s
  | .finite s m e => .finite (!s) m e

/-- Subtraction: the sum of the first operand and the negated second (R143 items 2 to 5, log 21). -/
def fpSub (f : FpFormat) (t : Tininess) (a b : FpDatum) : FpResult := fpAdd f t a (fpNegate b)

/-- The operation of the record, on data. -/
def fpApply (op : FpOp) (f : FpFormat) (t : Tininess) (a b : FpDatum) : FpResult :=
  match op with
  | .mul => fpMul f t a b
  | .div => fpDiv f t a b
  | .add => fpAdd f t a b
  | .sub => fpSub f t a b

/-! ## NaN results (R143 item 6, log 13) -/

/-- Whether a pattern is a NaN (R142). -/
def fpIsNan (f : FpFormat) (bits : Nat) : Bool := fpExponent f bits == fpMax f && fpFraction f bits != 0

/-- The default NaN: sign 0, exponent all ones, fraction `100...0` (R143 item 6). -/
def fpDefaultNan (f : FpFormat) : Nat := fpPack f false (fpInfMag f + 2 ^ (f.fracBits - 1))

/-- A NaN with its most significant fraction bit set (R143 item 6). -/
def fpQuiet (f : FpFormat) (bits : Nat) : Nat := bits ||| 2 ^ (f.fracBits - 1)

/-- The recommended A64 rule (R143 item 6). -/
def a64Nan (f : FpFormat) (a b : Nat) : Nat :=
  if fpSignalling (fpUnpack f a) then fpQuiet f a
  else if fpSignalling (fpUnpack f b) then fpQuiet f b
  else if fpIsNan f a then fpQuiet f a
  else if fpIsNan f b then fpQuiet f b
  else fpDefaultNan f

/-- A NaN pattern of the format: the drawn one, or the default NaN where what was drawn is none. -/
def asNan (f : FpFormat) (drawn : Nat) : Nat := if fpIsNan f drawn then drawn else fpDefaultNan f

/-- `NUMERICS.f(a, b)` at single precision, and what it signals (R143). -/
def numericsSingle (cfg : Config) (op : FpOp) (a b : BitVec 32) : BitVec 32 × FpExceptions :=
  let r := fpApply op .single cfg.tininess (fpUnpack .single a.toNat) (fpUnpack .single b.toNat)
  let bits :=
    match r.bits, cfg.nanRule with
    | some v, _ => v
    | none, .a64 => a64Nan .single a.toNat b.toNat
    | none, .free => asNan .single (Config.nanSingle op a b).toNat
  (BitVec.ofNat 32 bits, r.signals)

/-- `NUMERICS.f(a, b)` at double precision, and what it signals (R143). -/
def numericsDouble (cfg : Config) (op : FpOp) (a b : BitVec 64) : BitVec 64 × FpExceptions :=
  let r := fpApply op .double cfg.tininess (fpUnpack .double a.toNat) (fpUnpack .double b.toNat)
  let bits :=
    match r.bits, cfg.nanRule with
    | some v, _ => v
    | none, .a64 => a64Nan .double a.toNat b.toNat
    | none, .free => asNan .double (Config.nanDouble op a b).toNat
  (BitVec.ofNat 64 bits, r.signals)

/-! ## Comparison (R147, R152) -/

/-- The four outcomes of a compare. -/
inductive FpOrder
  | unordered | equal | less | greater
deriving DecidableEq, Repr

/-- The order of two integers. -/
def orderOf (x y : Int) : FpOrder := if x = y then .equal else if x < y then .less else .greater

/-- Compare two data as values; infinities compare as values, and +0 and -0 are equal (R147). -/
def fpCompare (a b : FpDatum) : FpOrder :=
  match a, b with
  | .nan _, _ => .unordered
  | .inf _, .nan _ => .unordered
  | .finite _ _ _, .nan _ => .unordered
  | .inf s, .inf u => if s = u then .equal else if s then .less else .greater
  | .inf s, .finite _ _ _ => if s then .less else .greater
  | .finite _ _ _, .inf u => if u then .greater else .less
  | .finite s m e, .finite u n k => orderOf (signedAt s m e (min e k)) (signedAt u n k (min e k))

/-- The four flag patterns (R147). -/
def compareFlags : FpOrder → Flags
  | .unordered => ⟨false, false, true, true⟩
  | .equal => ⟨false, true, true, false⟩
  | .less => ⟨true, false, false, false⟩
  | .greater => ⟨false, false, true, false⟩

/-- A compare signals invalid operation on a signalling NaN operand (R147, R152). -/
def compareSignals (a b : FpDatum) : FpExceptions :=
  { FpExceptions.empty with invalid := fpSignalling a || fpSignalling b }

end Sys2Proof.Machine
end

