-- ==== Sys2Proof/Machine/FloatingPoint.lean ====
section
/-! DEFINITION. The floating-point arithmetic and compare instructions (spec/41_floating_point.md R143 to R155). -/

namespace Sys2Proof.Machine

/-- A single-precision operation: `s[Rd] <- NUMERICS.f(s[Rn], s[Rm])`, or class 40 where a signalled exception traps
(R143 item 7, R144). -/
def finishArithS (op : FpOp) (rd rn rm : Reg) (s : State) : Result :=
  ifFpEnabled s
    (let r := numericsSingle s.cfg op (s.readS rn) (s.readS rm)
     if fpTrapped s.cfg.fpTraps r.2 then raise .fpException s else .next (s.writeS rd r.1).advance)

/-- A double-precision operation: `d[Rd] <- NUMERICS.f(d[Rn], d[Rm])`, or class 40 (R143 item 7, R144). -/
def finishArithD (op : FpOp) (rd rn rm : Reg) (s : State) : Result :=
  ifFpEnabled s
    (let r := numericsDouble s.cfg op (s.readD rn) (s.readD rm)
     if fpTrapped s.cfg.fpTraps r.2 then raise .fpException s else .next (s.writeD rd r.1).advance)

/-- A compare of two data: the flags, or class 40 (R143 item 7, R144, R147). -/
def finishCompare (a b : FpDatum) (s : State) : Result :=
  ifFpEnabled s
    (if fpTrapped s.cfg.fpTraps (compareSignals a b) then raise .fpException s
     else .next (s.writeFlags (compareFlags (fpCompare a b))).advance)

/-- `FMULS` (R145). -/
def execFmuls (rd rn rm : Reg) (s : State) : Result := finishArithS .mul rd rn rm s

/-- `FDIVS` (R146). -/
def execFdivs (rd rn rm : Reg) (s : State) : Result := finishArithS .div rd rn rm s

/-- `FCMPS` (R147). -/
def execFcmps (rn rm : Reg) (s : State) : Result :=
  finishCompare (fpUnpack .single (s.readS rn).toNat) (fpUnpack .single (s.readS rm).toNat) s

/-- `FADDS` (R148). -/
def execFadds (rd rn rm : Reg) (s : State) : Result := finishArithS .add rd rn rm s

/-- `FSUBS` (R149). -/
def execFsubs (rd rn rm : Reg) (s : State) : Result := finishArithS .sub rd rn rm s

/-- `FMULD` (R150). -/
def execFmuld (rd rn rm : Reg) (s : State) : Result := finishArithD .mul rd rn rm s

/-- `FDIVD` (R151). -/
def execFdivd (rd rn rm : Reg) (s : State) : Result := finishArithD .div rd rn rm s

/-- `FCMPD` (R152). -/
def execFcmpd (rn rm : Reg) (s : State) : Result :=
  finishCompare (fpUnpack .double (s.readD rn).toNat) (fpUnpack .double (s.readD rm).toNat) s

/-- `FADDD` (R153). -/
def execFaddd (rd rn rm : Reg) (s : State) : Result := finishArithD .add rd rn rm s

/-- `FSUBD` (R154). -/
def execFsubd (rd rn rm : Reg) (s : State) : Result := finishArithD .sub rd rn rm s

end Sys2Proof.Machine
end

