-- ==== Sys2Proof/Machine/IntegerImmediate.lean ====
section
/-! DEFINITION. The integer immediate and wide-move instructions (spec/44_integer_immediate.md R220 to R231). -/

namespace Sys2Proof.Machine

/-- `ADDI` (R221). -/
def execAddi (rd rn : Reg) (imm : BitVec 12) (s : State) : Result := finishX rd (s.readX rn + aluImm imm) s

/-- `ANDI` (R222). -/
def execAndi (rd rn : Reg) (imm : BitVec 12) (s : State) : Result := finishX rd (s.readX rn &&& aluImm imm) s

/-- `ADDIS` (R223). -/
def execAddis (rd rn : Reg) (imm : BitVec 12) (s : State) : Result :=
  let r := addWithCarry (s.readX rn) (aluImm imm) false
  finishXFlags rd r.1 r.2 s

/-- `ORRI` (R224). -/
def execOrri (rd rn : Reg) (imm : BitVec 12) (s : State) : Result := finishX rd (s.readX rn ||| aluImm imm) s

/-- `SUBI` (R225). -/
def execSubi (rd rn : Reg) (imm : BitVec 12) (s : State) : Result := finishX rd (s.readX rn - aluImm imm) s

/-- `EORI` (R226). -/
def execEori (rd rn : Reg) (imm : BitVec 12) (s : State) : Result := finishX rd (s.readX rn ^^^ aluImm imm) s

/-- `MOVZ` (R227). -/
def execMovz (rd : Reg) (imm : BitVec 16) (hw : BitVec 2) (s : State) : Result := finishX rd (movImm imm hw) s

/-- `SUBIS` (R228). -/
def execSubis (rd rn : Reg) (imm : BitVec 12) (s : State) : Result :=
  let r := subWithFlags (s.readX rn) (aluImm imm)
  finishXFlags rd r.1 r.2 s

/-- `ANDIS` (R229). -/
def execAndis (rd rn : Reg) (imm : BitVec 12) (s : State) : Result :=
  let r := s.readX rn &&& aluImm imm
  finishXFlags rd r (logicFlags r) s

/-- `MOVK` (R230). -/
def execMovk (rd : Reg) (imm : BitVec 16) (hw : BitVec 2) (s : State) : Result :=
  finishX rd (movKeep (s.readX rd) imm hw) s

end Sys2Proof.Machine
end

