-- ==== Sys2Proof/Machine/IntegerRegister.lean ====
section
/-! DEFINITION. The integer register instructions (spec/43_integer_register.md R201 to R211). -/

namespace Sys2Proof.Machine

/-- `AND` (R201). -/
def execAnd (rd rn rm : Reg) (s : State) : Result := finishX rd (s.readX rn &&& s.readX rm) s

/-- `ADD` (R202). -/
def execAdd (rd rn rm : Reg) (s : State) : Result := finishX rd (s.readX rn + s.readX rm) s

/-- `ORR` (R203). -/
def execOrr (rd rn rm : Reg) (s : State) : Result := finishX rd (s.readX rn ||| s.readX rm) s

/-- `ADDS` (R204). -/
def execAdds (rd rn rm : Reg) (s : State) : Result :=
  let r := addWithCarry (s.readX rn) (s.readX rm) false
  finishXFlags rd r.1 r.2 s

/-- `EOR` (R205). -/
def execEor (rd rn rm : Reg) (s : State) : Result := finishX rd (s.readX rn ^^^ s.readX rm) s

/-- `SUB` (R206). -/
def execSub (rd rn rm : Reg) (s : State) : Result := finishX rd (s.readX rn - s.readX rm) s

/-- `LSR` (R207). -/
def execLsr (rd rn : Reg) (shamt : BitVec 6) (s : State) : Result := finishX rd (s.readX rn >>> shamt.toNat) s

/-- `LSL` (R208). -/
def execLsl (rd rn : Reg) (shamt : BitVec 6) (s : State) : Result := finishX rd (s.readX rn <<< shamt.toNat) s

/-- `ANDS` (R209). -/
def execAnds (rd rn rm : Reg) (s : State) : Result :=
  let r := s.readX rn &&& s.readX rm
  finishXFlags rd r (logicFlags r) s

/-- `SUBS` (R210). -/
def execSubs (rd rn rm : Reg) (s : State) : Result :=
  let r := subWithFlags (s.readX rn) (s.readX rm)
  finishXFlags rd r.1 r.2 s

end Sys2Proof.Machine
end

