-- ==== Sys2Proof/Machine/LoadStore.lean ====
section
/-! DEFINITION. The loads and stores (spec/42_loads_stores.md R170 to R185). -/

namespace Sys2Proof.Machine

/-- `STURB` (R171). -/
def execSturb (rt rn : Reg) (offset : BitVec 9) (s : State) : Result :=
  finishStore (s.effAddr rn offset) 1 (s.readX rt).toNat s

/-- `LDURB` (R172). -/
def execLdurb (rt rn : Reg) (offset : BitVec 9) (s : State) : Result :=
  finishLoad (s.effAddr rn offset) 1 (fun bytes t => t.writeX rt (loadZero 8 bytes)) s

/-- `STURH` (R173). -/
def execSturh (rt rn : Reg) (offset : BitVec 9) (s : State) : Result :=
  finishStore (s.effAddr rn offset) 2 (s.readX rt).toNat s

/-- `LDURH` (R174). -/
def execLdurh (rt rn : Reg) (offset : BitVec 9) (s : State) : Result :=
  finishLoad (s.effAddr rn offset) 2 (fun bytes t => t.writeX rt (loadZero 16 bytes)) s

/-- `STURW` (R175). -/
def execSturw (rt rn : Reg) (offset : BitVec 9) (s : State) : Result :=
  finishStore (s.effAddr rn offset) 4 (s.readX rt).toNat s

/-- `LDURSW` (R176). -/
def execLdursw (rt rn : Reg) (offset : BitVec 9) (s : State) : Result :=
  finishLoad (s.effAddr rn offset) 4 (fun bytes t => t.writeX rt (loadSign 32 bytes)) s

/-- `STURS` (R177): the bits of `s[Rt]`, unchanged. -/
def execSturs (rt rn : Reg) (offset : BitVec 9) (s : State) : Result :=
  ifFpEnabled s (finishStore (s.effAddr rn offset) 4 (s.readS rt).toNat s)

/-- `LDURS` (R178). -/
def execLdurs (rt rn : Reg) (offset : BitVec 9) (s : State) : Result :=
  ifFpEnabled s
    (finishLoad (s.effAddr rn offset) 4 (fun bytes t => t.writeS rt (BitVec.ofNat 32 (beNat bytes))) s)

/-- `STXR` (R179): the checks first, whether or not the store is performed; then the store if the monitor is armed for
exactly this address and no failure is drawn; the status in `x[Rs]` and the monitor cleared either way. The draw is
`false` unless `STXR_SPURIOUS_FAIL` allows it (log 11). -/
def execStxr (rs rt rn : Reg) (s : State) : Result :=
  if stxrOverlaps rs rt rn then .refused (.refusedWord .stxrOverlap)
  else
    let ea := s.readX rn
    match memWrite s ea 8 (s.readX rt).toNat with
    | none => raise (.dataAbort ea) s
    | some stored =>
      let drawn := { s with draws := s.draws + 1 }
      if s.monitor = .armed ea ∧ (s.cfg.stxrSpuriousFail && Config.stxrFails s.draws) = false then
        .next (({ drawn with mem := stored.mem }.writeX rs 0#64).setMonitor .clear).advance
      else .next ((drawn.writeX rs 1#64).setMonitor .clear).advance

/-- `LDXR` (R180): a load that arms the monitor for exactly the address it used. -/
def execLdxr (rt rn : Reg) (s : State) : Result :=
  let ea := s.readX rn
  finishLoad ea 8 (fun bytes t => (t.writeX rt (loadZero 64 bytes)).setMonitor (.armed ea)) s

/-- `STUR` (R181): does not touch the monitor. -/
def execStur (rt rn : Reg) (offset : BitVec 9) (s : State) : Result :=
  finishStore (s.effAddr rn offset) 8 (s.readX rt).toNat s

/-- `LDUR` (R182). -/
def execLdur (rt rn : Reg) (offset : BitVec 9) (s : State) : Result :=
  finishLoad (s.effAddr rn offset) 8 (fun bytes t => t.writeX rt (loadZero 64 bytes)) s

/-- `STURD` (R183): the bits of `d[Rt]`, unchanged. -/
def execSturd (rt rn : Reg) (offset : BitVec 9) (s : State) : Result :=
  ifFpEnabled s (finishStore (s.effAddr rn offset) 8 (s.readD rt).toNat s)

/-- `LDURD` (R184). -/
def execLdurd (rt rn : Reg) (offset : BitVec 9) (s : State) : Result :=
  ifFpEnabled s
    (finishLoad (s.effAddr rn offset) 8 (fun bytes t => t.writeD rt (BitVec.ofNat 64 (beNat bytes))) s)

end Sys2Proof.Machine
end

