-- ==== Sys2Proof/Machine/MultiplyDivide.lean ====
section
/-! DEFINITION. The multiply and divide instructions (spec/45_multiply_divide.md R240 to R246). Operands are taken to
integers, the result computed exactly and cut to 64 bits. -/

namespace Sys2Proof.Machine

/-- The quotient of `SDIV`: rounded toward zero, 0 for a zero divisor (R240). -/
def signedQuotient (a b : Word) : Word := if b = 0#64 then 0#64 else BitVec.ofInt 64 (a.toInt.tdiv b.toInt)

/-- The quotient of `UDIV`: 0 for a zero divisor (R241). -/
def unsignedQuotient (a b : Word) : Word := if b = 0#64 then 0#64 else BitVec.ofNat 64 (a.toNat / b.toNat)

/-- The low 64 bits of a product (R242). -/
def productLow (a b : Word) : Word := BitVec.ofNat 64 (a.toNat * b.toNat)

/-- Bits 127:64 of the signed product, rounded toward minus infinity (R243). -/
def signedProductHigh (a b : Word) : Word := BitVec.ofInt 64 ((a.toInt * b.toInt).fdiv (2 ^ 64))

/-- Bits 127:64 of the unsigned product (R244). -/
def unsignedProductHigh (a b : Word) : Word := BitVec.ofNat 64 (a.toNat * b.toNat / 2 ^ 64)

/-- `SDIV` (R240). -/
def execSdiv (rd rn rm : Reg) (s : State) : Result := finishX rd (signedQuotient (s.readX rn) (s.readX rm)) s

/-- `UDIV` (R241). -/
def execUdiv (rd rn rm : Reg) (s : State) : Result := finishX rd (unsignedQuotient (s.readX rn) (s.readX rm)) s

/-- `MUL` (R242). -/
def execMul (rd rn rm : Reg) (s : State) : Result := finishX rd (productLow (s.readX rn) (s.readX rm)) s

/-- `SMULH` (R243). -/
def execSmulh (rd rn rm : Reg) (s : State) : Result := finishX rd (signedProductHigh (s.readX rn) (s.readX rm)) s

/-- `UMULH` (R244). -/
def execUmulh (rd rn rm : Reg) (s : State) : Result := finishX rd (unsignedProductHigh (s.readX rn) (s.readX rm)) s

end Sys2Proof.Machine
end

