-- ==== Sys2Proof/Machine/Dispatch.lean ====
section
/-! DEFINITION. The meaning of each of the 55 instructions, one arm per constructor. -/

namespace Sys2Proof.Machine

-- What one instruction does from a state (spec/00_scope.md R10).
def exec (i : Instr) (s : State) : Host.Outcome State Fault Refusal :=
  match i with
  | .b address => Sys2Proof.Machine.execB address s
  | .fmuls rd rn rm => Sys2Proof.Machine.execFmuls rd rn rm s
  | .fdivs rd rn rm => Sys2Proof.Machine.execFdivs rd rn rm s
  | .fcmps rn rm => Sys2Proof.Machine.execFcmps rn rm s
  | .fadds rd rn rm => Sys2Proof.Machine.execFadds rd rn rm s
  | .fsubs rd rn rm => Sys2Proof.Machine.execFsubs rd rn rm s
  | .fmuld rd rn rm => Sys2Proof.Machine.execFmuld rd rn rm s
  | .fdivd rd rn rm => Sys2Proof.Machine.execFdivd rd rn rm s
  | .fcmpd rn rm => Sys2Proof.Machine.execFcmpd rn rm s
  | .faddd rd rn rm => Sys2Proof.Machine.execFaddd rd rn rm s
  | .fsubd rd rn rm => Sys2Proof.Machine.execFsubd rd rn rm s
  | .sturb rt rn offset => Sys2Proof.Machine.execSturb rt rn offset s
  | .ldurb rt rn offset => Sys2Proof.Machine.execLdurb rt rn offset s
  | .bCond cond address => Sys2Proof.Machine.execBCond cond address s
  | .sturh rt rn offset => Sys2Proof.Machine.execSturh rt rn offset s
  | .ldurh rt rn offset => Sys2Proof.Machine.execLdurh rt rn offset s
  | .and rd rn rm => Sys2Proof.Machine.execAnd rd rn rm s
  | .add rd rn rm => Sys2Proof.Machine.execAdd rd rn rm s
  | .addi rd rn imm => Sys2Proof.Machine.execAddi rd rn imm s
  | .andi rd rn imm => Sys2Proof.Machine.execAndi rd rn imm s
  | .bl address => Sys2Proof.Machine.execBl address s
  | .sdiv rd rn rm => Sys2Proof.Machine.execSdiv rd rn rm s
  | .udiv rd rn rm => Sys2Proof.Machine.execUdiv rd rn rm s
  | .mul rd rn rm => Sys2Proof.Machine.execMul rd rn rm s
  | .smulh rd rn rm => Sys2Proof.Machine.execSmulh rd rn rm s
  | .umulh rd rn rm => Sys2Proof.Machine.execUmulh rd rn rm s
  | .orr rd rn rm => Sys2Proof.Machine.execOrr rd rn rm s
  | .adds rd rn rm => Sys2Proof.Machine.execAdds rd rn rm s
  | .addis rd rn imm => Sys2Proof.Machine.execAddis rd rn imm s
  | .orri rd rn imm => Sys2Proof.Machine.execOrri rd rn imm s
  | .cbz rt address => Sys2Proof.Machine.execCbz rt address s
  | .cbnz rt address => Sys2Proof.Machine.execCbnz rt address s
  | .sturw rt rn offset => Sys2Proof.Machine.execSturw rt rn offset s
  | .ldursw rt rn offset => Sys2Proof.Machine.execLdursw rt rn offset s
  | .sturs rt rn offset => Sys2Proof.Machine.execSturs rt rn offset s
  | .ldurs rt rn offset => Sys2Proof.Machine.execLdurs rt rn offset s
  | .stxr rs rt rn => Sys2Proof.Machine.execStxr rs rt rn s
  | .ldxr rt rn => Sys2Proof.Machine.execLdxr rt rn s
  | .eor rd rn rm => Sys2Proof.Machine.execEor rd rn rm s
  | .sub rd rn rm => Sys2Proof.Machine.execSub rd rn rm s
  | .subi rd rn imm => Sys2Proof.Machine.execSubi rd rn imm s
  | .eori rd rn imm => Sys2Proof.Machine.execEori rd rn imm s
  | .movz rd imm hw => Sys2Proof.Machine.execMovz rd imm hw s
  | .lsr rd rn shamt => Sys2Proof.Machine.execLsr rd rn shamt s
  | .lsl rd rn shamt => Sys2Proof.Machine.execLsl rd rn shamt s
  | .br rn => Sys2Proof.Machine.execBr rn s
  | .ands rd rn rm => Sys2Proof.Machine.execAnds rd rn rm s
  | .subs rd rn rm => Sys2Proof.Machine.execSubs rd rn rm s
  | .subis rd rn imm => Sys2Proof.Machine.execSubis rd rn imm s
  | .andis rd rn imm => Sys2Proof.Machine.execAndis rd rn imm s
  | .movk rd imm hw => Sys2Proof.Machine.execMovk rd imm hw s
  | .stur rt rn offset => Sys2Proof.Machine.execStur rt rn offset s
  | .ldur rt rn offset => Sys2Proof.Machine.execLdur rt rn offset s
  | .sturd rt rn offset => Sys2Proof.Machine.execSturd rt rn offset s
  | .ldurd rt rn offset => Sys2Proof.Machine.execLdurd rt rn offset s

end Sys2Proof.Machine
end

