-- ==== Sys2Proof/Machine/Fetch.lean ====
section
/-! DEFINITION. What happens in a step before an instruction's own rule: the end of the run, the fetch, the decoder, in
the order of spec/60_exceptions.md R256. -/

namespace Sys2Proof.Machine

/-- What a fetch gives (R55). -/
inductive Fetched
  | word (w : InstrWord)
  | raised (e : Exc)
  | unwritten (addr : Nat)
deriving DecidableEq, Repr

/-- `Fetch()` (R55): alignment, then the executable marks, then the four bytes, big-endian. -/
def fetch (s : State) : Fetched :=
  if s.pc.toNat % 4 ≠ 0 then .raised (.pcAlignment s.pc)
  else if permitsAll s.cfg.memMap .fetch s.pc.toNat 4 then
    match s.mem.readBytes s.pc.toNat 4 with
    | .ok bytes => .word (wordOfBytes bytes)
    | .abort => .raised (.instructionAbort s.pc)
    | .unwritten a => .unwritten a
  else .raised (.instructionAbort s.pc)

/-- What a step does: run an instruction, or what it has come to without one. -/
inductive Prepared
  | run (i : Instr)
  | done (o : Result)

/-- Fetch and decode, orders 2 to 6 of R256. -/
def prepareRunning (s : State) : Prepared :=
  match fetch s with
  | .raised e => .done (raise e s)
  | .unwritten a => .done (.fault (.unwrittenRead a))
  | .word w =>
    match decode s.cfg.unusedFields w with
    | .undefined => .done (raise .unknown s)
    | .refused why => .done (.refused (.refusedWord why))
    | .instr i => .run i

/-- A terminal state repeats for ever (R253, log 9); `pc = HALT_PC` ends the run before any fetch (R293); else fetch and
decode. -/
def prepare (s : State) : Prepared :=
  match s.run with
  | .ended => .done (.next s)
  | .faulted _ => .done (.next s)
  | .running => if s.pc = s.cfg.haltPc then .done (.next { s with run := .ended }) else prepareRunning s

/-- The instruction word whose bits are the low `nbits` of `w`, stored where the next fetch reads (big-endian, R55). -/
def storeFetchWord (s : State) (nbits w : Nat) : State :=
  { s with mem := s.mem.writeBytes s.pc.toNat (bytesOfWord (BitVec.ofNat 32 (w % 2 ^ nbits))) }

end Sys2Proof.Machine
end

