-- ==== Sys2Proof/Machine/Step.lean ====
section
/-! DEFINITION. One step of the machine (spec/00_scope.md R10, spec/60_exceptions.md R256). -/

namespace Sys2Proof.Machine

/-- One step: the next state (the instruction's, an exception's, or the end of the run), a model-level fault, or a
refusal. -/
def step (s : State) : Host.Outcome State Fault Refusal :=
  match prepare s with
  | .run i => exec i s
  | .done o => o

/-- `s` with an instruction word stored where `step` fetches next (log 22). From reset, and in every state that runs
with `pc` aligned, executable and not `HALT_PC`, the next step fetches exactly it. -/
def State.withFetchWord (s : State) (nbits w : Nat) : State := storeFetchWord s nbits w

end Sys2Proof.Machine
end

