-- ==== Sys2Proof/Machine/Launch.lean ====
section
/-! DEFINITION. The launch state (spec/70_reset_and_hazards.md R290): what the host builds before the first step.
`State.reset` is the launch with nothing loaded. -/

namespace Sys2Proof.Machine

/-- What a launch gives (R290): `RESET_PC`, the partial map `LAUNCH_REGS`, and the launch memory as bytes at addresses. -/
structure Launch where
  resetPc : Word
  x : List (Reg × Word)
  d : List (Reg × Word)
  flags : Option Flags
  mem : List Host.Cell
deriving DecidableEq, Repr

/-- Lay an instruction word down at an address, big-endian (R290). -/
def wordCells (addr : Nat) (w : InstrWord) : List Host.Cell :=
  (bytesOfWord w).zipIdx.map fun (b, i) => (addr + i, b)

/-- The launch memory in canonical form; an address is taken modulo 2^64 (R50). -/
def launchMemory (cells : List Host.Cell) : Memory :=
  cells.foldl (fun m c => m.write (c.1 % 2 ^ 64) c.2) []

/-- The launch state (R290). A register or flag the launch gives no value holds the value it has in `State.reset`
(log 5, 6). -/
def launch (cfg : Config) (l : Launch) : State :=
  let s : State :=
    { State.reset with
      cfg := cfg
      pc := l.resetPc
      flags := l.flags.getD State.reset.flags
      mem := launchMemory l.mem }
  let s := l.x.foldl (fun t r => t.writeX r.1 r.2) s
  l.d.foldl (fun t r => t.writeD r.1 r.2) s

end Sys2Proof.Machine
end

