-- ==== Sys2Proof/Safety.lean ====
section
/-! DEFINITION. The terms in which statements about the machine are made: what an instruction may write, what an exception
leaves, what a state of the machine always satisfies, and the value of a floating-point pattern as a rational number. -/

namespace Sys2Proof

/-! ## What an instruction may write -/

/-- The integer register an instruction writes: its destination, `x[30]` for `BL` (R21), the status register of `STXR`. -/
def Instr.intDest : Instr → Option Reg
  | .ldurb rt _ _ => some rt
  | .ldurh rt _ _ => some rt
  | .and rd _ _ => some rd
  | .add rd _ _ => some rd
  | .addi rd _ _ => some rd
  | .andi rd _ _ => some rd
  | .bl _ => some 30#5
  | .sdiv rd _ _ => some rd
  | .udiv rd _ _ => some rd
  | .mul rd _ _ => some rd
  | .smulh rd _ _ => some rd
  | .umulh rd _ _ => some rd
  | .orr rd _ _ => some rd
  | .adds rd _ _ => some rd
  | .addis rd _ _ => some rd
  | .orri rd _ _ => some rd
  | .ldursw rt _ _ => some rt
  | .stxr rs _ _ => some rs
  | .ldxr rt _ => some rt
  | .eor rd _ _ => some rd
  | .sub rd _ _ => some rd
  | .subi rd _ _ => some rd
  | .eori rd _ _ => some rd
  | .movz rd _ _ => some rd
  | .lsr rd _ _ => some rd
  | .lsl rd _ _ => some rd
  | .ands rd _ _ => some rd
  | .subs rd _ _ => some rd
  | .subis rd _ _ => some rd
  | .andis rd _ _ => some rd
  | .movk rd _ _ => some rd
  | .ldur rt _ _ => some rt
  | .b .. | .fmuls .. | .fdivs .. | .fcmps .. | .fadds .. | .fsubs .. | .fmuld .. | .fdivd .. | .fcmpd ..
  | .faddd .. | .fsubd .. | .sturb .. | .bCond .. | .sturh .. | .cbz .. | .cbnz .. | .sturw .. | .sturs ..
  | .ldurs .. | .br .. | .stur .. | .sturd .. | .ldurd .. => none

/-- The floating-point register an instruction writes (R27). -/
def Instr.fpDest : Instr → Option Reg
  | .fmuls rd _ _ => some rd
  | .fdivs rd _ _ => some rd
  | .fadds rd _ _ => some rd
  | .fsubs rd _ _ => some rd
  | .fmuld rd _ _ => some rd
  | .fdivd rd _ _ => some rd
  | .faddd rd _ _ => some rd
  | .fsubd rd _ _ => some rd
  | .ldurs rt _ _ => some rt
  | .ldurd rt _ _ => some rt
  | .b .. | .fcmps .. | .fcmpd .. | .sturb .. | .ldurb .. | .bCond .. | .sturh .. | .ldurh .. | .and ..
  | .add .. | .addi .. | .andi .. | .bl .. | .sdiv .. | .udiv .. | .mul .. | .smulh .. | .umulh ..
  | .orr .. | .adds .. | .addis .. | .orri .. | .cbz .. | .cbnz .. | .sturw .. | .ldursw .. | .sturs ..
  | .stxr .. | .ldxr .. | .eor .. | .sub .. | .subi .. | .eori .. | .movz .. | .lsr .. | .lsl .. | .br ..
  | .ands .. | .subs .. | .subis .. | .andis .. | .movk .. | .stur .. | .ldur .. | .sturd .. => none

/-- The instructions that write the flags (R25). -/
def Instr.writesFlags : Instr → Bool
  | .fcmps .. | .fcmpd .. | .adds .. | .addis .. | .ands .. | .subs .. | .subis .. | .andis .. => true
  | .b .. | .fmuls .. | .fdivs .. | .fadds .. | .fsubs .. | .fmuld .. | .fdivd .. | .faddd .. | .fsubd ..
  | .sturb .. | .ldurb .. | .bCond .. | .sturh .. | .ldurh .. | .and .. | .add .. | .addi .. | .andi ..
  | .bl .. | .sdiv .. | .udiv .. | .mul .. | .smulh .. | .umulh .. | .orr .. | .orri .. | .cbz ..
  | .cbnz .. | .sturw .. | .ldursw .. | .sturs .. | .ldurs .. | .stxr .. | .ldxr .. | .eor .. | .sub ..
  | .subi .. | .eori .. | .movz .. | .lsr .. | .lsl .. | .br .. | .movk .. | .stur .. | .ldur ..
  | .sturd .. | .ldurd .. => false

/-- The fourteen instructions that raise class 7 when the floating-point unit is disabled (R144, R252). -/
def Instr.usesFpUnit : Instr → Bool
  | .fmuls .. | .fdivs .. | .fcmps .. | .fadds .. | .fsubs .. | .fmuld .. | .fdivd .. | .fcmpd ..
  | .faddd .. | .fsubd .. | .sturs .. | .ldurs .. | .sturd .. | .ldurd .. => true
  | .b .. | .sturb .. | .ldurb .. | .bCond .. | .sturh .. | .ldurh .. | .and .. | .add .. | .addi ..
  | .andi .. | .bl .. | .sdiv .. | .udiv .. | .mul .. | .smulh .. | .umulh .. | .orr .. | .adds ..
  | .addis .. | .orri .. | .cbz .. | .cbnz .. | .sturw .. | .ldursw .. | .stxr .. | .ldxr .. | .eor ..
  | .sub .. | .subi .. | .eori .. | .movz .. | .lsr .. | .lsl .. | .br .. | .ands .. | .subs .. | .subis ..
  | .andis .. | .movk .. | .stur .. | .ldur .. => false

/-- The six branches (40_branches.md). -/
def Instr.isBranch : Instr → Bool
  | .b .. | .bCond .. | .bl .. | .cbz .. | .cbnz .. | .br .. => true
  | .fmuls .. | .fdivs .. | .fcmps .. | .fadds .. | .fsubs .. | .fmuld .. | .fdivd .. | .fcmpd ..
  | .faddd .. | .fsubd .. | .sturb .. | .ldurb .. | .sturh .. | .ldurh .. | .and .. | .add .. | .addi ..
  | .andi .. | .sdiv .. | .udiv .. | .mul .. | .smulh .. | .umulh .. | .orr .. | .adds .. | .addis ..
  | .orri .. | .sturw .. | .ldursw .. | .sturs .. | .ldurs .. | .stxr .. | .ldxr .. | .eor .. | .sub ..
  | .subi .. | .eori .. | .movz .. | .lsr .. | .lsl .. | .ands .. | .subs .. | .subis .. | .andis ..
  | .movk .. | .stur .. | .ldur .. | .sturd .. | .ldurd .. => false

/-- The bits of a word its row does not use (R92). -/
def unusedMask : Row → InstrWord
  | .b | .fmuls | .fdivs | .fadds | .fsubs | .fmuld | .fdivd | .faddd | .fsubd
  | .addi | .andi | .bl | .sdiv | .udiv | .mul | .addis | .orri | .cbz
  | .cbnz | .subi | .eori | .movz | .subis | .andis | .movk => 0x00000000#32
  | .fcmps | .fcmpd => 0x0000001F#32
  | .sturb | .ldurb | .sturh | .ldurh | .sturw | .ldursw | .sturs | .ldurs
  | .stur | .ldur | .sturd | .ldurd => 0x00000C00#32
  | .bCond => 0x00000010#32
  | .and | .add | .smulh | .umulh | .orr | .adds | .stxr | .eor | .sub
  | .ands | .subs => 0x0000FC00#32
  | .ldxr => 0x001FFC00#32
  | .lsr | .lsl => 0x001F0000#32
  | .br => 0x001FFC1F#32

/-- The word of an R- or D-layout line "`base | (Rm << 16) | (Rn << 5) | Rd`". -/
def wordR (base : InstrWord) (rm rn rd : Reg) : InstrWord :=
  base ||| (rm.setWidth 32 <<< 16) ||| (rn.setWidth 32 <<< 5) ||| rd.setWidth 32

/-- The word of an I-format line "`base | (ALU_immediate << 10) | (Rn << 5) | Rd`", and of a shift, whose `shamt` stands at
bit 10 too. -/
def wordI (base : InstrWord) (imm : BitVec 12) (rn rd : Reg) : InstrWord :=
  base ||| (imm.setWidth 32 <<< 10) ||| (rn.setWidth 32 <<< 5) ||| rd.setWidth 32

/-- The word of a D-format line "`base | ((offset AND 0x1FF) << 12) | (Rn << 5) | Rt`". -/
def wordD (base : InstrWord) (offset : BitVec 9) (rn rt : Reg) : InstrWord :=
  base ||| (offset.setWidth 32 <<< 12) ||| (rn.setWidth 32 <<< 5) ||| rt.setWidth 32

/-- The word of an IM-format line "`base | (hw << 21) | (MOV_immediate << 5) | Rd`". -/
def wordIM (base : InstrWord) (hw : BitVec 2) (imm : BitVec 16) (rd : Reg) : InstrWord :=
  base ||| (hw.setWidth 32 <<< 21) ||| (imm.setWidth 32 <<< 5) ||| rd.setWidth 32

/-- The word of a CB-format line "`base | (COND_BR_address << 5) | Rt`". -/
def wordCB (base : InstrWord) (address : BitVec 19) (rt : BitVec 5) : InstrWord :=
  base ||| (address.setWidth 32 <<< 5) ||| rt.setWidth 32

namespace Machine

/-- The address an instruction stores to and the number of bytes, by the expression its meaning uses. -/
def storeTarget (i : Instr) (s : State) : Option (Word × Nat) :=
  match i with
  | .sturb _ rn offset => some (s.effAddr rn offset, 1)
  | .sturh _ rn offset => some (s.effAddr rn offset, 2)
  | .sturw _ rn offset => some (s.effAddr rn offset, 4)
  | .sturs _ rn offset => some (s.effAddr rn offset, 4)
  | .stxr _ _ rn => some (s.readX rn, 8)
  | .stur _ rn offset => some (s.effAddr rn offset, 8)
  | .sturd _ rn offset => some (s.effAddr rn offset, 8)
  | .b .. | .fmuls .. | .fdivs .. | .fcmps .. | .fadds .. | .fsubs .. | .fmuld .. | .fdivd .. | .fcmpd ..
  | .faddd .. | .fsubd .. | .ldurb .. | .bCond .. | .ldurh .. | .and .. | .add .. | .addi .. | .andi ..
  | .bl .. | .sdiv .. | .udiv .. | .mul .. | .smulh .. | .umulh .. | .orr .. | .adds .. | .addis ..
  | .orri .. | .cbz .. | .cbnz .. | .ldursw .. | .ldurs .. | .ldxr .. | .eor .. | .sub .. | .subi ..
  | .eori .. | .movz .. | .lsr .. | .lsl .. | .br .. | .ands .. | .subs .. | .subis .. | .andis ..
  | .movk .. | .ldur .. | .ldurd .. => none

/-- The access of the fourteen loads and stores: its kind, address and number of bytes (R51, R170). -/
def dataAccess (i : Instr) (s : State) : Option (AccessKind × Word × Nat) :=
  match i with
  | .sturb _ rn offset => some (.write, s.effAddr rn offset, 1)
  | .ldurb _ rn offset => some (.read, s.effAddr rn offset, 1)
  | .sturh _ rn offset => some (.write, s.effAddr rn offset, 2)
  | .ldurh _ rn offset => some (.read, s.effAddr rn offset, 2)
  | .sturw _ rn offset => some (.write, s.effAddr rn offset, 4)
  | .ldursw _ rn offset => some (.read, s.effAddr rn offset, 4)
  | .sturs _ rn offset => some (.write, s.effAddr rn offset, 4)
  | .ldurs _ rn offset => some (.read, s.effAddr rn offset, 4)
  | .stxr _ _ rn => some (.write, s.readX rn, 8)
  | .ldxr _ rn => some (.read, s.readX rn, 8)
  | .stur _ rn offset => some (.write, s.effAddr rn offset, 8)
  | .ldur _ rn offset => some (.read, s.effAddr rn offset, 8)
  | .sturd _ rn offset => some (.write, s.effAddr rn offset, 8)
  | .ldurd _ rn offset => some (.read, s.effAddr rn offset, 8)
  | .b .. | .fmuls .. | .fdivs .. | .fcmps .. | .fadds .. | .fsubs .. | .fmuld .. | .fdivd .. | .fcmpd ..
  | .faddd .. | .fsubd .. | .bCond .. | .and .. | .add .. | .addi .. | .andi .. | .bl .. | .sdiv ..
  | .udiv .. | .mul .. | .smulh .. | .umulh .. | .orr .. | .adds .. | .addis .. | .orri .. | .cbz ..
  | .cbnz .. | .eor .. | .sub .. | .subi .. | .eori .. | .movz .. | .lsr .. | .lsl .. | .br .. | .ands ..
  | .subs .. | .subis .. | .andis .. | .movk .. => none

/-! ## Frames -/

/-- The exception record, the outcome of the run and the run constants are as they were. -/
structure SameRecord (s t : State) : Prop where
  esr : t.esr = s.esr
  faultPc : t.faultPc = s.faultPc
  faultAddr : t.faultAddr = s.faultAddr
  run : t.run = s.run
  cfg : t.cfg = s.cfg

/-- Every integer register is as it was. -/
def SameX (s t : State) : Prop := ∀ r, t.readX r = s.readX r

/-- Every floating-point register is as it was. -/
def SameD (s t : State) : Prop := ∀ r, t.readD r = s.readD r

/-- Every byte of memory reads as it did. -/
def SameMemory (s t : State) : Prop := ∀ a, t.mem.read a = s.mem.read a

/-- Every byte outside the `n` bytes from `a` up reads as it did. -/
def SameMemoryOutside (a n : Nat) (s t : State) : Prop := ∀ b, b < a ∨ a + n ≤ b → t.mem.read b = s.mem.read b

/-- `t` is `s` with the integer register `rd` written, register 31 discarding it (R22): no other
register, no byte, not the record. The flags, the monitor and `pc` are stated beside it. -/
structure WroteX (rd : Reg) (v : Word) (s t : State) : Prop where
  written : t.readX rd = if rd = 31#5 then 0#64 else v
  others : ∀ r, r ≠ rd → t.readX r = s.readX r
  fp : SameD s t
  memory : SameMemory s t
  record : SameRecord s t

/-- `t` is `s` with the floating-point register `rd` written and nothing else; the flags, the monitor and `pc` are
stated beside it. -/
structure WroteD (rd : Reg) (v : Word) (s t : State) : Prop where
  written : t.readD rd = v
  others : ∀ r, r ≠ rd → t.readD r = s.readD r
  int : SameX s t
  memory : SameMemory s t
  record : SameRecord s t

/-- `t` is `s` with the `n` bytes from `a` up stored, most significant byte of the low 8n bits of `v` first (R54), no
register, flag or other byte changed, `pc` advanced. -/
structure Stored (a : Word) (n : Nat) (v : Word) (s t : State) : Prop where
  bytes : ∀ i, i < n → t.mem.read (a.toNat + i) = some (v.extractLsb' (8 * (n - 1 - i)) 8)
  memory : SameMemoryOutside a.toNat n s t
  int : SameX s t
  fp : SameD s t
  flags : t.flags = s.flags
  monitor : t.monitor = s.monitor
  record : SameRecord s t
  pc : t.pc = s.pc + 4#64

/-- `t` is `s` with `pc` at `target` and nothing else changed. -/
structure Jumped (target : Word) (s t : State) : Prop where
  pc : t.pc = target
  int : SameX s t
  fp : SameD s t
  memory : SameMemory s t
  flags : t.flags = s.flags
  monitor : t.monitor = s.monitor
  record : SameRecord s t

/-- `t` is `s` after exception entry (R253): `EC` the class, `IL` 1, some `ISS`; the address where the class has one; nothing
else but the monitor and the outcome of the run. -/
structure Took (e : Exc) (s t : State) : Prop where
  esr : ∃ iss : BitVec 25, t.esr = some (e.cls.code ++ 1#1 ++ iss)
  faultPc : t.faultPc = some s.pc
  faultAddr : t.faultAddr = if e.addr.isSome then e.addr else s.faultAddr
  monitor : t.monitor = .clear
  run : t.run = .faulted e.cls
  int : SameX s t
  fp : SameD s t
  memory : SameMemory s t
  flags : t.flags = s.flags
  pc : t.pc = s.pc
  cfg : t.cfg = s.cfg

/-! ## How an instruction answers -/

/-- `i` completes with `x[rd] <- v` and `pc <- pc + 4`; flags, monitor and all else unchanged. -/
def Computes (i : Instr) (rd : Reg) (v : Word) (s : State) : Prop :=
  ∃ t, exec i s = .next t ∧ WroteX rd v s t ∧ t.flags = s.flags ∧ t.monitor = s.monitor ∧ t.pc = s.pc + 4#64

/-- `i` completes with `x[rd] <- v`, `flags <- f` and `pc <- pc + 4`; the monitor and all else unchanged. -/
def ComputesWithFlags (i : Instr) (rd : Reg) (v : Word) (f : Flags) (s : State) : Prop :=
  ∃ t, exec i s = .next t ∧ WroteX rd v s t ∧ t.flags = f ∧ t.monitor = s.monitor ∧ t.pc = s.pc + 4#64

/-- `i` completes with `d[rd] <- v` and `pc <- pc + 4`; flags, monitor and all else unchanged. -/
def ComputesD (i : Instr) (rd : Reg) (v : Word) (s : State) : Prop :=
  ∃ t, exec i s = .next t ∧ WroteD rd v s t ∧ t.flags = s.flags ∧ t.monitor = s.monitor ∧ t.pc = s.pc + 4#64

/-- `i` completes as a store of the low 8n bits of `v` at `a`. -/
def Stores (i : Instr) (a : Word) (n : Nat) (v : Word) (s : State) : Prop :=
  ∃ t, exec i s = .next t ∧ Stored a n v s t

/-- `i` completes as a jump to `target`. -/
def JumpsTo (i : Instr) (target : Word) (s : State) : Prop := ∃ t, exec i s = .next t ∧ Jumped target s t

/-- `i` raises `e`: the next state is the one after exception entry. -/
def Raises (i : Instr) (e : Exc) (s : State) : Prop := ∃ t, exec i s = .next t ∧ Took e s t

/-- The `n` bytes from `a` up are aligned and may be accessed so (R53, R54, R56, R58). -/
def MayAccess (s : State) (k : AccessKind) (a : Word) (n : Nat) : Prop :=
  a.toNat % n = 0 ∧ ∀ j, j < n → permits s.cfg.memMap k (a.toNat + j) = true

/-- The `n` bytes from `a` up may be read and hold `b 0`, `b 1`, …. -/
def Holds (s : State) (a : Word) (n : Nat) (b : Nat → Byte) : Prop :=
  MayAccess s .read a n ∧ ∀ j, j < n → s.mem.read (a.toNat + j) = some (b j)

/-- Two bytes as a halfword, the byte at the lower address the more significant (R52). -/
def be16 (b : Nat → Byte) : BitVec 16 := b 0 ++ b 1

/-- Four bytes as a word (R52). -/
def be32 (b : Nat → Byte) : BitVec 32 := b 0 ++ b 1 ++ b 2 ++ b 3

/-- Eight bytes as a doubleword (R52). -/
def be64 (b : Nat → Byte) : BitVec 64 := b 0 ++ b 1 ++ b 2 ++ b 3 ++ b 4 ++ b 5 ++ b 6 ++ b 7

/-- What `STXR` does beside storing, whether or not it stores (R179): the status register, the monitor cleared, `pc`
advanced; no other register, no flag, not the record. -/
structure StxrEnds (rs : Reg) (status : Word) (s t : State) : Prop where
  status : t.readX rs = if rs = 31#5 then 0#64 else status
  others : ∀ r, r ≠ rs → t.readX r = s.readX r
  fp : SameD s t
  flags : t.flags = s.flags
  monitor : t.monitor = .clear
  record : SameRecord s t
  pc : t.pc = s.pc + 4#64

/-- `STXR` stored: status 0 and the eight bytes of the data register at `a`, no other byte (R179). -/
def StxrStored (rs : Reg) (a v : Word) (s t : State) : Prop :=
  StxrEnds rs 0#64 s t ∧ SameMemoryOutside a.toNat 8 s t ∧
    ∀ j, j < 8 → t.mem.read (a.toNat + j) = some (v.extractLsb' (8 * (7 - j)) 8)

/-- `STXR` did not store: status 1 and memory unchanged (R179). -/
def StxrFailed (rs : Reg) (s t : State) : Prop := StxrEnds rs 1#64 s t ∧ SameMemory s t

/-- An integer load of `n` bytes at `a` (R53, R185): it completes with `value` of the bytes in `x[rt]` where they may be
read, and is Data Abort where they may not. -/
def LoadsX (i : Instr) (rt : Reg) (a : Word) (n : Nat) (value : (Nat → Byte) → Word) (s : State) : Prop :=
  (∀ b, Holds s a n b → Computes i rt (value b) s) ∧ (¬MayAccess s .read a n → Raises i (.dataAbort a) s)

/-- A floating-point load of `n` bytes at `a` (R53, R144, R185): class 7 where the unit is disabled, else as an integer load
but into `d[rt]`. -/
def LoadsD (i : Instr) (rt : Reg) (a : Word) (n : Nat) (value : (Nat → Byte) → Word) (s : State) : Prop :=
  (s.cfg.fpEnabled = false → Raises i .fpDisabled s) ∧
    (s.cfg.fpEnabled = true → (∀ b, Holds s a n b → ComputesD i rt (value b) s) ∧
      (¬MayAccess s .read a n → Raises i (.dataAbort a) s))

/-- A store of the low 8n bits of `v` at `a` (R54, R185): it completes where the bytes may be written, and is Data Abort
where they may not. -/
def StoresAt (i : Instr) (a : Word) (n : Nat) (v : Word) (s : State) : Prop :=
  (MayAccess s .write a n → Stores i a n v s) ∧ (¬MayAccess s .write a n → Raises i (.dataAbort a) s)

/-- A floating-point store (R54, R144, R185). -/
def StoresAtD (i : Instr) (a : Word) (n : Nat) (v : Word) (s : State) : Prop :=
  (s.cfg.fpEnabled = false → Raises i .fpDisabled s) ∧ (s.cfg.fpEnabled = true → StoresAt i a n v s)

/-- An exception is in both sets: a signalled one is in `FP_TRAPS` (R143 item 7). -/
abbrev Trapped (traps signals : FpExceptions) : Prop :=
  (traps.invalid = true ∧ signals.invalid = true) ∨ (traps.divByZero = true ∧ signals.divByZero = true) ∨
    (traps.overflow = true ∧ signals.overflow = true) ∨ (traps.underflow = true ∧ signals.underflow = true) ∨
    (traps.inexact = true ∧ signals.inexact = true)

/-- What the ten floating-point arithmetic and compare instructions signal (R143 item 7, log 15), `none` for the others. -/
def fpSignals (i : Instr) (s : State) : Option FpExceptions :=
  match i with
  | .fmuls _ rn rm => some (numericsSingle s.cfg .mul (s.readS rn) (s.readS rm)).2
  | .fdivs _ rn rm => some (numericsSingle s.cfg .div (s.readS rn) (s.readS rm)).2
  | .fcmps rn rm => some (compareSignals (fpUnpack .single (s.readS rn).toNat) (fpUnpack .single (s.readS rm).toNat))
  | .fadds _ rn rm => some (numericsSingle s.cfg .add (s.readS rn) (s.readS rm)).2
  | .fsubs _ rn rm => some (numericsSingle s.cfg .sub (s.readS rn) (s.readS rm)).2
  | .fmuld _ rn rm => some (numericsDouble s.cfg .mul (s.readD rn) (s.readD rm)).2
  | .fdivd _ rn rm => some (numericsDouble s.cfg .div (s.readD rn) (s.readD rm)).2
  | .fcmpd rn rm => some (compareSignals (fpUnpack .double (s.readD rn).toNat) (fpUnpack .double (s.readD rm).toNat))
  | .faddd _ rn rm => some (numericsDouble s.cfg .add (s.readD rn) (s.readD rm)).2
  | .fsubd _ rn rm => some (numericsDouble s.cfg .sub (s.readD rn) (s.readD rm)).2
  | .b .. | .sturb .. | .ldurb .. | .bCond .. | .sturh .. | .ldurh .. | .and .. | .add .. | .addi .. | .andi ..
  | .bl .. | .sdiv .. | .udiv .. | .mul .. | .smulh .. | .umulh .. | .orr .. | .adds .. | .addis ..
  | .orri .. | .cbz .. | .cbnz .. | .sturw .. | .ldursw .. | .sturs .. | .ldurs .. | .stxr .. | .ldxr ..
  | .eor .. | .sub .. | .subi .. | .eori .. | .movz .. | .lsr .. | .lsl .. | .br .. | .ands .. | .subs ..
  | .subis .. | .andis .. | .movk .. | .stur .. | .ldur .. | .sturd .. | .ldurd .. => none

/-- An arithmetic instruction whose numerics record gives `value` and `signals`: class 7 where the unit is
disabled, class 40 where a signalled exception traps, else `d[rd] <- value` (R143 item 7, R144). -/
def ComputesFp (i : Instr) (rd : Reg) (value : Word) (signals : FpExceptions) (s : State) : Prop :=
  (s.cfg.fpEnabled = false → Raises i .fpDisabled s) ∧
    (s.cfg.fpEnabled = true → Trapped s.cfg.fpTraps signals → Raises i .fpException s) ∧
    (s.cfg.fpEnabled = true → ¬Trapped s.cfg.fpTraps signals → ComputesD i rd value s)

/-- The four bytes at `pc` hold the word `w`, big-endian (R55). -/
def WordAtPc (s : State) (w : InstrWord) : Prop :=
  ∀ j, j < 4 → s.mem.read (s.pc.toNat + j) = some (w.extractLsb' (8 * (3 - j)) 8)

/-- The next step gets past orders 1 to 4 of R256 and decodes the word `w`. -/
def Fetches (s : State) (w : InstrWord) : Prop :=
  s.run = .running ∧ s.pc ≠ s.cfg.haltPc ∧ MayAccess s .fetch s.pc 4 ∧ WordAtPc s w

/-- The next step runs the instruction `i`. -/
def Runs (s : State) (i : Instr) : Prop := ∃ w, Fetches s w ∧ decode s.cfg.unusedFields w = .instr i

/-! ## The invariant -/

/-- An armed monitor holds a doubleword-aligned address (R32). -/
def monitorAligned : Monitor → Prop
  | .clear => True
  | .armed a => a.toNat % 8 = 0

/-- The classes that record an address (R252). -/
def recordsAddress : ExcClass → Bool
  | .instructionAbort | .pcAlignment | .dataAbort => true
  | .unknown | .simdDisabled | .illegalState | .supervisorCall | .fpException | .watchpoint | .breakpoint => false

/-- The classes the machine raises (R252). -/
def raisable : ExcClass → Bool
  | .unknown | .simdDisabled | .instructionAbort | .pcAlignment | .dataAbort | .fpException => true
  | .illegalState | .supervisorCall | .watchpoint | .breakpoint => false

/-- What the record holds (R253, R36): nothing before an exception; after it the class with `IL` 1, the address of the
instruction, an address where the class has one, and a clear monitor. -/
def recordAgrees (s : State) : Prop :=
  match s.run with
  | .faulted ec =>
    (∃ iss : BitVec 25, s.esr = some (ec.code ++ 1#1 ++ iss)) ∧ s.faultPc = some s.pc ∧
      s.faultAddr.isSome = recordsAddress ec ∧ s.monitor = .clear ∧ raisable ec = true
  | .running => s.esr = none ∧ s.faultPc = none ∧ s.faultAddr = none
  | .ended => s.esr = none ∧ s.faultPc = none ∧ s.faultAddr = none ∧ s.pc = s.cfg.haltPc

/-- What every state of a run satisfies: memory in canonical form, an armed monitor aligned, the record in agreement with the
outcome of the run. -/
structure State.Inv (s : State) : Prop where
  memory : s.mem.wf = true
  monitor : monitorAligned s.monitor
  record : recordAgrees s

/-! ## Floating-point values -/

/-- A number, not an infinity and not a NaN (R142). -/
abbrev fpFinite (f : FpFormat) (bits : Nat) : Prop := fpExponent f bits ≠ fpMax f

/-- The value of a finite pattern: `(-1)^S x (1 + Fraction) x 2^(Exponent - Bias)`, and for a denormalised number
`(-1)^S x Fraction x 2^(1 - Bias)` (R141). -/
def fpValue (f : FpFormat) (bits : Nat) : ℚ :=
  let fraction : ℚ := fpFraction f bits / 2 ^ f.fracBits
  let sign : ℚ := if fpSign f bits then -1 else 1
  if fpExponent f bits = 0 then sign * fraction * 2 ^ (1 - fpBias f : ℤ)
  else sign * (1 + fraction) * 2 ^ ((fpExponent f bits : ℤ) - fpBias f)

/-- ± 0 (R142). -/
abbrev fpIsZero (f : FpFormat) (bits : Nat) : Prop := fpExponent f bits = 0 ∧ fpFraction f bits = 0

/-- ± ∞ (R142). -/
abbrev fpIsInf (f : FpFormat) (bits : Nat) : Prop := fpExponent f bits = fpMax f ∧ fpFraction f bits = 0

/-- The value of a pattern that is no NaN, with the infinities below and above all numbers (R141, R147). -/
def fpExtended (f : FpFormat) (bits : Nat) : WithBot (WithTop ℚ) :=
  if fpExponent f bits = fpMax f then (if fpSign f bits then ⊥ else ((⊤ : WithTop ℚ) : WithBot (WithTop ℚ)))
  else ((fpValue f bits : WithTop ℚ) : WithBot (WithTop ℚ))

/-- The invalid operations on operands that are no NaN (R143 item 4). -/
def fpInvalidPair (f : FpFormat) (op : FpOp) (x y : Nat) : Prop :=
  match op with
  | .mul => (fpIsZero f x ∧ fpIsInf f y) ∨ (fpIsInf f x ∧ fpIsZero f y)
  | .div => (fpIsZero f x ∧ fpIsZero f y) ∨ (fpIsInf f x ∧ fpIsInf f y)
  | .add => fpIsInf f x ∧ fpIsInf f y ∧ fpSign f x ≠ fpSign f y
  | .sub => fpIsInf f x ∧ fpIsInf f y ∧ fpSign f x = fpSign f y

/-- A signalling NaN: its most significant fraction bit is 0 (R142). -/
abbrev fpIsSignalling (f : FpFormat) (bits : Nat) : Prop :=
  fpIsNan f bits = true ∧ fpFraction f bits < 2 ^ (f.fracBits - 1)

/-- The four flag patterns of a compare, by the values of the operands (R147). -/
def CompareSets (f : FpFormat) (x y : Nat) (flags : Flags) : Prop :=
  ((fpIsNan f x = true ∨ fpIsNan f y = true) → flags = ⟨false, false, true, true⟩) ∧
    (fpIsNan f x = false → fpIsNan f y = false →
      (fpExtended f x = fpExtended f y → flags = ⟨false, true, true, false⟩) ∧
        (fpExtended f x < fpExtended f y → flags = ⟨true, false, false, false⟩) ∧
        (fpExtended f y < fpExtended f x → flags = ⟨false, false, true, false⟩))

/-- A compare of the patterns `x` and `y` (R143 item 7, R144, R147): class 7 where the unit is disabled; class 40 where invalid
operation traps and an operand is a signalling NaN; else the flags, and nothing else. -/
def Compares (i : Instr) (f : FpFormat) (x y : Nat) (s : State) : Prop :=
  (s.cfg.fpEnabled = false → Raises i .fpDisabled s) ∧
    (s.cfg.fpEnabled = true → s.cfg.fpTraps.invalid = true ∧ (fpIsSignalling f x ∨ fpIsSignalling f y) →
      Raises i .fpException s) ∧
    (s.cfg.fpEnabled = true → ¬(s.cfg.fpTraps.invalid = true ∧ (fpIsSignalling f x ∨ fpIsSignalling f y)) →
      ∃ t, exec i s = .next t ∧ CompareSets f x y t.flags ∧ SameX s t ∧ SameD s t ∧ SameMemory s t ∧
        t.monitor = s.monitor ∧ SameRecord s t ∧ t.pc = s.pc + 4#64)

/-- The exact result of an operation. -/
def exactResult (op : FpOp) (x y : ℚ) : ℚ :=
  match op with
  | .mul => x * y
  | .div => x / y
  | .add => x + y
  | .sub => x - y

/-- The result is a NaN where an operand is one or the operation is invalid, and nowhere else (R143 items 2, 4, 5). -/
def NanLaw (f : FpFormat) (op : FpOp) (x y r : Nat) : Prop :=
  fpIsNan f r = true ↔ fpIsNan f x = true ∨ fpIsNan f y = true ∨ fpInvalidPair f op x y

/-- The pattern of a NaN result by the recommended A64 rule (R143 item 6). -/
def A64NanLaw (f : FpFormat) (op : FpOp) (x y r : Nat) : Prop :=
  (fpIsSignalling f x → r = x ||| 2 ^ (f.fracBits - 1)) ∧
    (¬fpIsSignalling f x → fpIsSignalling f y → r = y ||| 2 ^ (f.fracBits - 1)) ∧
    (¬fpIsSignalling f x → ¬fpIsSignalling f y → fpIsNan f x = true → r = x ||| 2 ^ (f.fracBits - 1)) ∧
    (¬fpIsSignalling f x → ¬fpIsSignalling f y → fpIsNan f x = false → fpIsNan f y = true →
      r = y ||| 2 ^ (f.fracBits - 1)) ∧
    (fpInvalidPair f op x y → r = fpMax f * 2 ^ f.fracBits + 2 ^ (f.fracBits - 1))

/-- Signs of products and quotients, and what infinities and zeros give in them (R143 items 2, 3). -/
def ProductSpecials (f : FpFormat) (op : FpOp) (x y r : Nat) : Prop :=
  (fpIsNan f r = false → fpSign f r = (fpSign f x != fpSign f y)) ∧
    (op = .mul → fpIsInf f x → fpIsNan f y = false → ¬fpIsZero f y → fpIsInf f r) ∧
    (op = .mul → fpIsInf f y → fpIsNan f x = false → ¬fpIsZero f x → fpIsInf f r) ∧
    (op = .mul → fpFinite f x → fpFinite f y → fpIsZero f x ∨ fpIsZero f y → fpIsZero f r) ∧
    (op = .div → fpIsInf f x → fpFinite f y → fpIsInf f r) ∧
    (op = .div → fpFinite f x → fpIsInf f y → fpIsZero f r) ∧
    (op = .div → fpFinite f x → ¬fpIsZero f x → fpIsZero f y → fpIsInf f r) ∧
    (op = .div → fpIsZero f x → fpFinite f y → ¬fpIsZero f y → fpIsZero f r)

/-- What infinities and exact zeros give in sums (`negated` false) and differences (true); `sy` is the sign of the second
term (R143 items 2, 3). -/
def SumSpecials (f : FpFormat) (negated : Bool) (x y r : Nat) : Prop :=
  let sy := fpSign f y != negated
  (fpIsInf f x → fpFinite f y → r = x) ∧
    (fpFinite f x → fpIsInf f y → fpIsInf f r ∧ fpSign f r = sy) ∧
    (fpIsInf f x → fpIsInf f y → fpSign f x = sy → r = x) ∧
    (fpFinite f x → fpFinite f y → exactResult (if negated then .sub else .add) (fpValue f x) (fpValue f y) = 0 →
      r = if fpIsZero f x ∧ fpIsZero f y ∧ fpSign f x = true ∧ sy = true then 2 ^ (f.expBits + f.fracBits) else 0)

/-- A magnitude from half a last place above the largest finite number on: rounded, it is too large for the format (R143
item 2). -/
abbrev fpTooLarge (f : FpFormat) (x : ℚ) : Prop := (2 : ℚ) ^ (fpBias f + 1) - 2 ^ (fpBias f - f.fracBits - 1) ≤ |x|

/-- `r` is `x` rounded to the format, to nearest, ties to even (R143 item 2): from half a last place above the largest finite
number on it is infinity with the sign of `x`; below that it is a number no other number is nearer to `x` than, and where
another is as near, the last bit of `r` is 0. -/
def CorrectlyRounded (f : FpFormat) (x : ℚ) (r : Nat) : Prop :=
  if fpTooLarge f x then r = fpPack f (decide (x < 0)) (fpInfMag f)
  else
    r < 2 ^ (1 + f.expBits + f.fracBits) ∧ fpFinite f r ∧
      ∀ c, c < 2 ^ (1 + f.expBits + f.fracBits) → fpFinite f c →
        |fpValue f r - x| ≤ |fpValue f c - x| ∧
          (|fpValue f c - x| = |fpValue f r - x| → fpValue f c ≠ fpValue f r → r % 2 = 0)

/-! ## What an operation signals (R143 item 7): IEEE 754's conditions, in terms of the operands (log 14, 15) -/

/-- Invalid operation: an operand is a signalling NaN, or the operation is invalid on operands that are no NaN. -/
def InvalidSignal (f : FpFormat) (op : FpOp) (x y : Nat) (signals : FpExceptions) : Prop :=
  signals.invalid = true ↔ fpIsSignalling f x ∨ fpIsSignalling f y ∨ fpInvalidPair f op x y

/-- Division by zero: a finite non-zero number divided by a zero. -/
def DivByZeroSignal (f : FpFormat) (op : FpOp) (x y : Nat) (signals : FpExceptions) : Prop :=
  signals.divByZero = true ↔ op = .div ∧ fpFinite f x ∧ ¬fpIsZero f x ∧ fpIsZero f y

/-- An operation with a NaN or an infinity, or a division by zero, rounds nothing: no overflow, underflow or inexact. -/
def UnroundedSignals (f : FpFormat) (op : FpOp) (x y : Nat) (signals : FpExceptions) : Prop :=
  ¬fpFinite f x ∨ ¬fpFinite f y ∨ (op = .div ∧ fpIsZero f y) →
    signals.overflow = false ∧ signals.underflow = false ∧ signals.inexact = false

/-- A non-zero magnitude below the least normalised number: as it is, or once rounded as if the exponent had no least value
(half a last place below that number it rounds up to it). IEEE 754 leaves the choice open (log 14). -/
def Tiny (f : FpFormat) (t : Tininess) (x : ℚ) : Prop :=
  x ≠ 0 ∧
    match t with
    | .beforeRounding => |x| < (2 : ℚ) ^ (1 - fpBias f : ℤ)
    | .afterRounding => |x| < (2 : ℚ) ^ (1 - fpBias f : ℤ) - (2 : ℚ) ^ (1 - fpBias f - f.fracBits - 2 : ℤ)

/-- The exact result `x` of finite operands, rounded to `r`: overflow where the rounded magnitude is too large for the format,
inexact where `r` is not `x`, an infinity from overflow included, underflow where `x` is tiny. -/
structure RoundedSignals (f : FpFormat) (t : Tininess) (x : ℚ) (r : Nat) (signals : FpExceptions) : Prop where
  overflow : signals.overflow = true ↔ fpTooLarge f x
  inexact : signals.inexact = true ↔ fpIsInf f r ∨ fpValue f r ≠ x
  underflow : signals.underflow = true ↔ Tiny f t x

end Machine

end Sys2Proof
end

