-- ==== Sys2Proof/Certificates/Slice0/Obligations.lean ====
section
/-! DEFINITION. The statements for the provers, from the numbered rules of spec/. Each is a proposition about the machine of
Sys2Proof/Machine; the terms they use beside the machine's own are those of Sys2Proof/Safety.lean. -/

open Sys2Proof Sys2Proof.Machine

/-- Decoding inverts encoding for every instruction and every operand (R83 to R88, R90, R94). -/
def Obligations.DecodeInvertsEncode : Prop :=
  ∀ (mode : UnusedFields) (i : Instr), i.wellFormed = true → decode mode (encode i) = .instr i

/-- Under `refuse`, a word that decodes is the canonical word of what it decodes to (R90, R92). -/
def Obligations.EncodeInvertsDecode : Prop :=
  ∀ (w : InstrWord) (i : Instr), decode .refuse w = .instr i → encode i = w ∧ i.wellFormed = true

/-- The opcode table: no two ranges overlap but for rows told apart by Shamt; 143 opcodes are occupied (R82, R89, R93,
R94). -/
def Obligations.OpcodeRowsAreDisjoint : Prop :=
  opcodeTable.length = 55 ∧
    opcodeTable.Pairwise (fun a b => a.last < b.first ∨
      (a.first = a.last ∧ b.first = b.last ∧ a.first = b.first ∧ a.shamt.isSome = true ∧ b.shamt.isSome = true ∧
        a.shamt ≠ b.shamt)) ∧
    (List.range 2048).countP (fun op => opcodeTable.any fun r => decide (r.first ≤ op) && decide (op ≤ r.last)) = 143

/-- `Undefined` (R90, R93): the 11-bit opcode lies in no row's range, or the Shamt matches no row of its opcode. -/
def Obligations.UndefinedWordsMatchNoRow : Prop :=
  ∀ (mode : UnusedFields) (w : InstrWord), decode mode w = .undefined ↔
    ∀ r ∈ opcodeTable, ¬(r.first ≤ w.toNat / 2 ^ 21 ∧ w.toNat / 2 ^ 21 ≤ r.last ∧
      (r.shamt = none ∨ r.shamt = some (w.toNat / 2 ^ 10 % 2 ^ 6)))

/-- `Refused` (R90): an unused field that is not zero under `refuse`, `B.cond` with condition 14 or 15, `STXR` with
overlapping registers; nothing else. -/
def Obligations.RefusedWordsAreTheListedOnes : Prop :=
  ∀ (mode : UnusedFields) (w : InstrWord), (∃ why, decode mode w = .refused why) ↔
    ∃ row, rowOf w = some row ∧
      ((mode = .refuse ∧ w &&& unusedMask row ≠ 0#32) ∨ (row = .bCond ∧ 14 ≤ (w.extractLsb' 0 4).toNat) ∨
        (row = .stxr ∧ w.extractLsb' 16 5 ≠ 31#5 ∧
          (w.extractLsb' 16 5 = w.extractLsb' 0 5 ∨ w.extractLsb' 16 5 = w.extractLsb' 5 5)))

/-- `UNUSED_FIELDS` (R92): `refuse` refuses, `ignore` decodes as if the field were zero. -/
def Obligations.UnusedFieldsFollowThePolicy : Prop :=
  ∀ (w : InstrWord) (row : Row), rowOf w = some row →
    (w &&& unusedMask row ≠ 0#32 → ∃ f, decode .refuse w = .refused (.unusedField row f)) ∧
      (w &&& unusedMask row = 0#32 → decode .refuse w = decode .ignore w) ∧
      decode .ignore w = decode .ignore (w &&& ~~~unusedMask row) ∧
      decode .ignore w = decode .refuse (w &&& ~~~unusedMask row)

/-- Example words of the rules and of `95_test_vectors.md` section 2 decode as the spec says. -/
def Obligations.SpecWordsDecode : Prop :=
  decode .refuse 0x8B0A02A9#32 = .instr (.add 9#5 21#5 10#5) ∧
    decode .refuse 0xD3600E6B#32 = .instr (.lsl 11#5 19#5 3#6) ∧
    decode .refuse 0xD100639C#32 = .instr (.subi 28#5 28#5 24#12) ∧
    decode .refuse 0xF2D7DDE9#32 = .instr (.movk 9#5 0xBEEF#16 2#2) ∧
    decode .refuse 0x9ACB0949#32 = .instr (.sdiv 9#5 10#5 11#5) ∧
    decode .refuse 0x94000010#32 = .instr (.bl 16#26) ∧
    decode .refuse 0x54000040#32 = .instr (.bCond .eq 2#19) ∧
    decode .refuse 0xB5FFFFCA#32 = .instr (.cbnz 10#5 0x7FFFE#19) ∧
    decode .refuse 0xD60003C0#32 = .instr (.br 30#5) ∧
    decode .refuse 0xF85F82C9#32 = .instr (.ldur 9#5 22#5 0x1F8#9) ∧
    decode .refuse 0xC8090297#32 = .instr (.stxr 9#5 23#5 20#5) ∧
    decode .refuse 0xBC000264#32 = .instr (.sturs 4#5 19#5 0#9) ∧
    decode .refuse 0x1E263882#32 = .instr (.fsubs 2#5 4#5 6#5) ∧
    decode .refuse 0x1E622020#32 = .instr (.fcmpd 1#5 2#5) ∧
    decode .refuse 0x00000000#32 = .undefined ∧ decode .refuse 0x9B0B0149#32 = .undefined ∧
    decode .refuse 0xD503201F#32 = .undefined ∧
    decode .refuse 0x8B0A06A9#32 = .refused (.unusedField .add .shamt) ∧
    decode .refuse 0x5400004E#32 = .refused (.condition 14#4) ∧
    decode .refuse 0xC8090289#32 = .refused .stxrOverlap

/-- One step is fetch, decode and the instruction's rule (R10, R55); nothing is done around `exec`. -/
def Obligations.StepRunsDecodedInstruction : Prop :=
  ∀ (s : State) (i : Instr), Runs s i → step s = exec i s

/-- Orders 1 to 6 of R256. -/
def Obligations.StepChecksInOrder : Prop :=
  ∀ s : State, s.run = .running →
    (s.pc = s.cfg.haltPc → step s = .next { s with run := .ended }) ∧
      (s.pc ≠ s.cfg.haltPc →
        (s.pc.toNat % 4 ≠ 0 → ∃ t, step s = .next t ∧ Took (.pcAlignment s.pc) s t) ∧
          (s.pc.toNat % 4 = 0 → (∃ j, j < 4 ∧ permits s.cfg.memMap .fetch (s.pc.toNat + j) = false) →
            ∃ t, step s = .next t ∧ Took (.instructionAbort s.pc) s t) ∧
          (MayAccess s .fetch s.pc 4 → ∀ j, j < 4 → (∀ k, k < j → (s.mem.read (s.pc.toNat + k)).isSome = true) →
            s.mem.read (s.pc.toNat + j) = none → step s = .fault (.unwrittenRead (s.pc.toNat + j))) ∧
          (∀ w, Fetches s w → decode s.cfg.unusedFields w = .undefined →
            ∃ t, step s = .next t ∧ Took .unknown s t) ∧
          (∀ w why, Fetches s w → decode s.cfg.unusedFields w = .refused why →
            step s = .refused (.refusedWord why)))

/-- No instruction executes after the end or a fault; the terminal state repeats (R253, R268; the model's choice of
the two presentations, log 9). -/
def Obligations.TerminalStatesRepeat : Prop :=
  ∀ s : State, s.run ≠ .running → step s = .next s

/-- `withFetchWord` stands for the load of a program (R290, log 22): only the four bytes at `pc` change, and the next
step runs the word. -/
def Obligations.StepAfterWithFetchWord : Prop :=
  (∀ (s : State) (nbits w : Nat) (i : Instr), s.run = .running → s.pc ≠ s.cfg.haltPc → MayAccess s .fetch s.pc 4 →
      decode s.cfg.unusedFields (BitVec.ofNat 32 (w % 2 ^ nbits)) = .instr i →
      step (s.withFetchWord nbits w) = exec i (s.withFetchWord nbits w)) ∧
    (∀ (s : State) (nbits w : Nat), SameX s (s.withFetchWord nbits w) ∧ SameD s (s.withFetchWord nbits w) ∧
      SameMemoryOutside s.pc.toNat 4 s (s.withFetchWord nbits w) ∧ SameRecord s (s.withFetchWord nbits w) ∧
      (s.withFetchWord nbits w).flags = s.flags ∧ (s.withFetchWord nbits w).monitor = s.monitor ∧
      (s.withFetchWord nbits w).pc = s.pc) ∧
    (∀ (nbits w : Nat) (i : Instr), decodeTableWord nbits w = some i →
      step (State.reset.withFetchWord nbits w) = exec i (State.reset.withFetchWord nbits w))

/-- The invariant `State.Inv` at reset (R36). -/
def Obligations.InvariantAtReset : Prop :=
  State.reset.Inv

/-- `State.Inv` is kept by every step (R32, R253, R254, R293). -/
def Obligations.StepKeepsInvariant : Prop :=
  ∀ s t : State, s.Inv → step s = .next t → t.Inv

/-- The invariant `State.Inv` at every launch (R290). -/
def Obligations.LaunchSatisfiesInvariant : Prop :=
  ∀ (cfg : Config) (l : Launch), (launch cfg l).Inv

/-- The launch state (R290, R36); a register the launch does not give is the model's choice (log 5, 6) and not spoken
of. -/
def Obligations.LaunchStateHoldsWhatItIsGiven : Prop :=
  ∀ (cfg : Config) (l : Launch),
    (launch cfg l).cfg = cfg ∧ (launch cfg l).pc = l.resetPc ∧ (launch cfg l).monitor = .clear ∧
      (launch cfg l).esr = none ∧ (launch cfg l).faultPc = none ∧ (launch cfg l).faultAddr = none ∧
      (launch cfg l).run = .running ∧ (launch cfg l).readX 31#5 = 0#64 ∧
      (∀ f, l.flags = some f → (launch cfg l).flags = f) ∧
      ((l.x.map Prod.fst).Nodup → ∀ r v, (r, v) ∈ l.x → r ≠ 31#5 → (launch cfg l).readX r = v) ∧
      ((l.d.map Prod.fst).Nodup → ∀ r v, (r, v) ∈ l.d → (launch cfg l).readD r = v) ∧
      ((l.mem.map Prod.fst).Nodup → (∀ c ∈ l.mem, c.1 < 2 ^ 64) →
        (∀ c ∈ l.mem, (launch cfg l).mem.read c.1 = some c.2) ∧
          ∀ a, (∀ c ∈ l.mem, c.1 ≠ a) → (launch cfg l).mem.read a = none)

/-- Reset (R36): the spec's values, then the model's choices for what the spec leaves open (log 2: `pc`; log 5:
registers; log 6: flags; log 3, 4: parameters). -/
def Obligations.ResetLeaves : Prop :=
  (State.reset.monitor = .clear ∧ State.reset.esr = none ∧ State.reset.faultPc = none ∧ State.reset.faultAddr = none ∧
      State.reset.readX 31#5 = 0#64 ∧ State.reset.run = .running ∧ ∀ a, State.reset.mem.read a = none) ∧
    (State.reset.pc = 0x0000000000400000#64 ∧ (∀ r, State.reset.readX r = 0#64) ∧ (∀ r, State.reset.readD r = 0#64) ∧
      State.reset.flags = ⟨false, false, false, false⟩ ∧ State.reset.cfg = Config.standard)

/-- The parameters of R7 are fixed for a run (R20, R63). -/
def Obligations.StepKeepsRunConstants : Prop :=
  ∀ s t : State, step s = .next t → t.cfg = s.cfg

/-- The table of R252, row by row; the four other classes are unreachable. What an operation signals is the model's
reading of IEEE 754 (log 14, 15). -/
def Obligations.OnlySixClassesAreRaised : Prop :=
  ∀ (s t : State) (ec : ExcClass), s.run = .running → step s = .next t → t.run = .faulted ec →
    match ec with
    | .unknown => t.faultAddr = s.faultAddr ∧ ∃ w, Fetches s w ∧ decode s.cfg.unusedFields w = .undefined
    | .simdDisabled =>
      t.faultAddr = s.faultAddr ∧ s.cfg.fpEnabled = false ∧ ∃ i, Runs s i ∧ i.usesFpUnit = true
    | .instructionAbort =>
      t.faultAddr = some s.pc ∧ s.pc.toNat % 4 = 0 ∧
        ∃ j, j < 4 ∧ permits s.cfg.memMap .fetch (s.pc.toNat + j) = false
    | .pcAlignment => t.faultAddr = some s.pc ∧ s.pc.toNat % 4 ≠ 0
    | .dataAbort =>
      ∃ i k a n, Runs s i ∧ dataAccess i s = some (k, a, n) ∧ ¬MayAccess s k a n ∧ t.faultAddr = some a
    | .fpException =>
      t.faultAddr = s.faultAddr ∧ s.cfg.fpEnabled = true ∧
        ∃ i signals, Runs s i ∧ fpSignals i s = some signals ∧ Trapped s.cfg.fpTraps signals
    | .illegalState | .supervisorCall | .watchpoint | .breakpoint => False

/-- With the default parameters only classes 0, 32, 34 and 36 can occur (R252). -/
def Obligations.DefaultParametersRaiseFourClasses : Prop :=
  ∀ (s t : State) (ec : ExcClass), s.run = .running → s.cfg.fpEnabled = true → s.cfg.fpTraps = FpExceptions.empty →
    step s = .next t → t.run = .faulted ec →
      ec.code = 0#6 ∨ ec.code = 32#6 ∨ ec.code = 34#6 ∨ ec.code = 36#6

/-- Exception entry (R253). The `iss` is a draw: some value, none named (R255). That a step from the faulted state
gives the same state is the model's choice of presentation (log 9, DESIGN CHOICE): R253 leaves no step defined there.
The clause on `FAULT_ADDR` says that an address is recorded, less than R253's `info.addr`; `OnlySixClassesAreRaised`
says which. -/
def Obligations.ExceptionEntryWritesOnlyTheRecord : Prop :=
  ∀ (s t : State) (ec : ExcClass), s.run = .running → step s = .next t → t.run = .faulted ec →
    (∃ iss : Nat, iss < 2 ^ 25 ∧ t.esr = some (BitVec.ofNat 32 (ec.code.toNat * 2 ^ 26 + 1 * 2 ^ 25 + iss))) ∧
      t.faultPc = some s.pc ∧
      (if ec.code = 32#6 ∨ ec.code = 34#6 ∨ ec.code = 36#6 then
        ∃ e : Exc, e.cls = ec ∧ e.addr.isSome = true ∧ t.faultAddr = e.addr
      else t.faultAddr = s.faultAddr) ∧
      t.monitor = .clear ∧ SameX s t ∧ SameD s t ∧ t.flags = s.flags ∧ SameMemory s t ∧ t.pc = s.pc ∧
      step t = .next t

/-- The last column of R251's table. -/
def Obligations.ExceptionClassTable : Prop :=
  esrWord .unknown 0 = 0x02000000#32 ∧ esrWord .simdDisabled 0 = 0x1E000000#32 ∧
    esrWord .illegalState 0 = 0x3A000000#32 ∧ esrWord .supervisorCall 0 = 0x46000000#32 ∧
    esrWord .instructionAbort 0 = 0x82000000#32 ∧ esrWord .pcAlignment 0 = 0x8A000000#32 ∧
    esrWord .dataAbort 0 = 0x92000000#32 ∧ esrWord .fpException 0 = 0xA2000000#32 ∧
    esrWord .watchpoint 0 = 0xD2000000#32 ∧ esrWord .breakpoint 0 = 0xE2000000#32 ∧
    ∀ ec : ExcClass, ec.code.toNat ∈ [0, 7, 14, 17, 32, 34, 36, 40, 52, 56]

/-- Only `BR` can produce a misaligned `pc` (R57, R120). -/
def Obligations.MisalignedPcOnlyFromBr : Prop :=
  ∀ s t : State, s.pc.toNat % 4 = 0 → step s = .next t → t.pc.toNat % 4 ≠ 0 →
    ∃ rn, Runs s (.br rn) ∧ t.pc = s.readX rn

/-- The frame of every instruction. `storeTarget` is the address expression the meanings use. -/
def Obligations.InstructionFrame : Prop :=
  ∀ (i : Instr) (s t : State), exec i s = .next t →
    (∃ e, Took e s t) ∨
      ((∀ r, i.intDest ≠ some r → t.readX r = s.readX r) ∧ (∀ r, i.fpDest ≠ some r → t.readD r = s.readD r) ∧
        (i.writesFlags = false → t.flags = s.flags) ∧
        ((∀ rt rn, i ≠ .ldxr rt rn) → (∀ rs rt rn, i ≠ .stxr rs rt rn) → t.monitor = s.monitor) ∧
        SameRecord s t ∧ (i.isBranch = false → t.pc = s.pc + 4#64) ∧
        (storeTarget i s = none → SameMemory s t) ∧
        ∀ a n, storeTarget i s = some (a, n) → SameMemoryOutside a.toNat n s t)

/-- Only `B.cond` reads a flag (R25). -/
def Obligations.OnlyConditionalBranchReadsFlags : Prop :=
  ∀ (i : Instr) (s : State) (f : Flags), (∀ c a, i ≠ .bCond c a) →
    match exec i s with
    | .next t => ∃ g, exec i (s.writeFlags f) = .next (t.writeFlags g) ∧
        (i.writesFlags = false → g = f) ∧ (i.writesFlags = true → g = t.flags ∨ ((∃ e, Took e s t) ∧ g = f))
    | .fault x => exec i (s.writeFlags f) = .fault x
    | .refused r => exec i (s.writeFlags f) = .refused r

/-- No instruction reads `ESR` or the fault record (R30, R31). -/
def Obligations.NoInstructionReadsTheRecord : Prop :=
  ∀ (i : Instr) (s : State) (e : Option (BitVec 32)) (p a : Option Word),
    match exec i s with
    | .next t => ∃ u, exec i { s with esr := e, faultPc := p, faultAddr := a } = .next u ∧
        SameX t u ∧ SameD t u ∧ SameMemory t u ∧ u.flags = t.flags ∧ u.pc = t.pc ∧ u.monitor = t.monitor ∧
        u.run = t.run ∧ u.cfg = t.cfg
    | .fault x => exec i { s with esr := e, faultPc := p, faultAddr := a } = .fault x
    | .refused r => exec i { s with esr := e, faultPc := p, faultAddr := a } = .refused r

/-- No refusal, and one stop only: a load of a byte that nothing has written (R37). That it is the only one is the
model's choice (log 31, with log 5 and 6; DESIGN CHOICE, unsafe): R37 and order 8 of R256 also stop an instruction
that reads an unwritten register or flag; here every register and flag holds a value. -/
def Obligations.WellFormedInstructionsProceed : Prop :=
  ∀ (i : Instr) (s : State), i.wellFormed = true →
    (∃ t, exec i s = .next t) ∨
      ∃ a n j, dataAccess i s = some (.read, a, n) ∧ j < n ∧ s.mem.read (a.toNat + j) = none ∧
        exec i s = .fault (.unwrittenRead (a.toNat + j))

/-- The zero register (R22). -/
def Obligations.ZeroRegisterReadsZeroAndDiscards : Prop :=
  (∀ s : State, s.readX 31#5 = 0#64) ∧
    ∀ (i : Instr) (s t : State), i.intDest = some 31#5 → exec i s = .next t → SameX s t

/-- `AND` (R201), `ORR` (R203), `EOR` (R205). -/
def Obligations.RegisterLogic : Prop :=
  ∀ (rd rn rm : Reg) (s : State),
    (Computes (.and rd rn rm) rd (s.readX rn &&& s.readX rm) s ∧ encode (.and rd rn rm) = wordR 0x8A000000#32 rm rn rd) ∧
      (Computes (.orr rd rn rm) rd (s.readX rn ||| s.readX rm) s ∧
        encode (.orr rd rn rm) = wordR 0xAA000000#32 rm rn rd) ∧
      (Computes (.eor rd rn rm) rd (s.readX rn ^^^ s.readX rm) s ∧
        encode (.eor rd rn rm) = wordR 0xCA000000#32 rm rn rd)

/-- `ADD` (R202), `SUB` (R206). -/
def Obligations.RegisterAddSub : Prop :=
  ∀ (rd rn rm : Reg) (s : State),
    (Computes (.add rd rn rm) rd (BitVec.ofNat 64 ((s.readX rn).toNat + (s.readX rm).toNat)) s ∧
        encode (.add rd rn rm) = wordR 0x8B000000#32 rm rn rd) ∧
      (Computes (.sub rd rn rm) rd (BitVec.ofInt 64 ((s.readX rn).toNat - (s.readX rm).toNat)) s ∧
        encode (.sub rd rn rm) = wordR 0xCB000000#32 rm rn rd)

/-- `ADDS` (R204), `SUBS` (R210), `AddWithCarry` (R200): the flags in terms of the operands; subtraction as
`AddWithCarry(a, NOT b, 1)`. -/
def Obligations.RegisterAddSubFlags : Prop :=
  (∀ (rd rn rm : Reg) (s : State), ∀ a b : Word, a = s.readX rn → b = s.readX rm →
      (ComputesWithFlags (.adds rd rn rm) rd (a + b)
          ⟨(a + b).msb, decide (a + b = 0#64), decide (2 ^ 64 ≤ a.toNat + b.toNat),
            decide (a.toInt + b.toInt < -2 ^ 63 ∨ 2 ^ 63 ≤ a.toInt + b.toInt)⟩ s ∧
        encode (.adds rd rn rm) = wordR 0xAB000000#32 rm rn rd) ∧
      (ComputesWithFlags (.subs rd rn rm) rd (a - b)
          ⟨(a - b).msb, decide (a = b), decide (b.toNat ≤ a.toNat),
            decide (a.toInt - b.toInt < -2 ^ 63 ∨ 2 ^ 63 ≤ a.toInt - b.toInt)⟩ s ∧
        encode (.subs rd rn rm) = wordR 0xEB000000#32 rm rn rd)) ∧
    (∀ a b : Word, addWithCarry a (~~~b) true = (a - b,
        ⟨(a - b).msb, decide (a = b), decide (b.toNat ≤ a.toNat),
          decide (a.toInt - b.toInt < -2 ^ 63 ∨ 2 ^ 63 ≤ a.toInt - b.toInt)⟩)) ∧
    ∀ (a b : Word) (cin : Bool),
      addWithCarry a b cin = (BitVec.ofNat 64 (a.toNat + b.toNat + cin.toNat),
        ⟨(BitVec.ofNat 64 (a.toNat + b.toNat + cin.toNat)).msb,
          decide (BitVec.ofNat 64 (a.toNat + b.toNat + cin.toNat) = 0#64),
          decide (2 ^ 64 ≤ a.toNat + b.toNat + cin.toNat),
          decide (a.toInt + b.toInt + cin.toNat < -2 ^ 63 ∨ 2 ^ 63 ≤ a.toInt + b.toInt + cin.toNat)⟩)

/-- `ANDS` (R209), `ANDIS` (R229). -/
def Obligations.AndSetsFlags : Prop :=
  (∀ (rd rn rm : Reg) (s : State),
      ComputesWithFlags (.ands rd rn rm) rd (s.readX rn &&& s.readX rm)
          ⟨(s.readX rn &&& s.readX rm).msb, decide (s.readX rn &&& s.readX rm = 0#64), false, false⟩ s ∧
        encode (.ands rd rn rm) = wordR 0xEA000000#32 rm rn rd) ∧
    ∀ (rd rn : Reg) (imm : BitVec 12) (s : State),
      ComputesWithFlags (.andis rd rn imm) rd (s.readX rn &&& imm.setWidth 64)
          ⟨false, decide (s.readX rn &&& imm.setWidth 64 = 0#64), false, false⟩ s ∧
        encode (.andis rd rn imm) = wordI 0xF2000000#32 imm rn rd

/-- `LSR` (R207), `LSL` (R208). -/
def Obligations.ShiftsMultiplyAndDivideByPowers : Prop :=
  ∀ (rd rn : Reg) (shamt : BitVec 6) (s : State),
    (Computes (.lsr rd rn shamt) rd (BitVec.ofNat 64 ((s.readX rn).toNat / 2 ^ shamt.toNat)) s ∧
        encode (.lsr rd rn shamt) = wordI 0xD3400000#32 (shamt.setWidth 12) rn rd) ∧
      (Computes (.lsl rd rn shamt) rd (BitVec.ofNat 64 ((s.readX rn).toNat * 2 ^ shamt.toNat)) s ∧
        encode (.lsl rd rn shamt) = wordI 0xD3600000#32 (shamt.setWidth 12) rn rd)

/-- `ADDI` (R221), `SUBI` (R225). -/
def Obligations.ImmediateAddSub : Prop :=
  ∀ (rd rn : Reg) (imm : BitVec 12) (s : State),
    (Computes (.addi rd rn imm) rd (BitVec.ofNat 64 ((s.readX rn).toNat + imm.toNat)) s ∧
        encode (.addi rd rn imm) = wordI 0x91000000#32 imm rn rd) ∧
      (Computes (.subi rd rn imm) rd (BitVec.ofInt 64 ((s.readX rn).toNat - imm.toNat)) s ∧
        encode (.subi rd rn imm) = wordI 0xD1000000#32 imm rn rd)

/-- `ADDIS` (R223), `SUBIS` (R228). -/
def Obligations.ImmediateAddSubFlags : Prop :=
  ∀ (rd rn : Reg) (imm : BitVec 12) (s : State), ∀ a b : Word, a = s.readX rn → b = imm.setWidth 64 →
    (ComputesWithFlags (.addis rd rn imm) rd (a + b)
        ⟨(a + b).msb, decide (a + b = 0#64), decide (2 ^ 64 ≤ a.toNat + imm.toNat),
          decide (2 ^ 63 ≤ a.toInt + (imm.toNat : Int))⟩ s ∧
        encode (.addis rd rn imm) = wordI 0xB1000000#32 imm rn rd) ∧
      (ComputesWithFlags (.subis rd rn imm) rd (a - b)
        ⟨(a - b).msb, decide (a = b), decide (imm.toNat ≤ a.toNat),
          decide (a.toInt - (imm.toNat : Int) < -2 ^ 63)⟩ s ∧
        encode (.subis rd rn imm) = wordI 0xF1000000#32 imm rn rd)

/-- `ANDI` (R222), `ORRI` (R224), `EORI` (R226). -/
def Obligations.ImmediateLogic : Prop :=
  ∀ (rd rn : Reg) (imm : BitVec 12) (s : State),
    (Computes (.andi rd rn imm) rd (s.readX rn &&& imm.setWidth 64) s ∧
        encode (.andi rd rn imm) = wordI 0x92000000#32 imm rn rd) ∧
      (Computes (.orri rd rn imm) rd (s.readX rn ||| imm.setWidth 64) s ∧
        encode (.orri rd rn imm) = wordI 0xB2000000#32 imm rn rd) ∧
      (Computes (.eori rd rn imm) rd (s.readX rn ^^^ imm.setWidth 64) s ∧
        encode (.eori rd rn imm) = wordI 0xD2000000#32 imm rn rd)

/-- `MOVZ` (R227), `MOVK` (R230), the position of the immediate (R231). (That MOVK's register must have been written,
R37, is not kept: log 5.) -/
def Obligations.MoveWide : Prop :=
  ∀ (rd : Reg) (imm : BitVec 16) (hw : BitVec 2) (s : State),
    (Computes (.movz rd imm hw) rd (BitVec.ofNat 64 (imm.toNat * 2 ^ (16 * hw.toNat))) s ∧
        encode (.movz rd imm hw) = wordIM 0xD2800000#32 hw imm rd) ∧
      (∃ v, Computes (.movk rd imm hw) rd v s ∧
        ∀ j, j < 64 → v.getLsbD j = if 16 * hw.toNat ≤ j ∧ j ≤ 16 * hw.toNat + 15 then imm.getLsbD (j - 16 * hw.toNat)
          else (s.readX rd).getLsbD j) ∧
      encode (.movk rd imm hw) = wordIM 0xF2800000#32 hw imm rd

/-- `MUL` (R242), `SMULH` (R243), `UMULH` (R244), by the laws of R246. -/
def Obligations.MultiplyHalves : Prop :=
  ∀ (rd rn rm : Reg) (s : State),
    (∃ lo hs hu : Word, Computes (.mul rd rn rm) rd lo s ∧ Computes (.smulh rd rn rm) rd hs s ∧
        Computes (.umulh rd rn rm) rd hu s ∧
        hu.toNat * 2 ^ 64 + lo.toNat = (s.readX rn).toNat * (s.readX rm).toNat ∧
        hs.toInt * 2 ^ 64 + (lo.toNat : Int) = (s.readX rn).toInt * (s.readX rm).toInt) ∧
      encode (.mul rd rn rm) = wordR 0x9B007C00#32 rm rn rd ∧
      encode (.smulh rd rn rm) = wordR 0x9B400000#32 rm rn rd ∧
      encode (.umulh rd rn rm) = wordR 0x9BC00000#32 rm rn rd

/-- `SDIV` (R240), `UDIV` (R241), by the laws of R246. -/
def Obligations.DivideLaws : Prop :=
  ∀ (rd rn rm : Reg) (s : State), ∀ a b : Word, a = s.readX rn → b = s.readX rm →
    (∃ q : Word, Computes (.sdiv rd rn rm) rd q s ∧ (b = 0#64 → q = 0#64) ∧
        (a.toInt = -2 ^ 63 → b.toInt = -1 → q = a) ∧
        (b ≠ 0#64 → ¬(a.toInt = -2 ^ 63 ∧ b.toInt = -1) → ∃ r : Int, a.toInt = q.toInt * b.toInt + r ∧
          |r| < |b.toInt| ∧ (r = 0 ∨ (0 < r ∧ 0 < a.toInt) ∨ (r < 0 ∧ a.toInt < 0)))) ∧
      (∃ q : Word, Computes (.udiv rd rn rm) rd q s ∧ (b = 0#64 → q = 0#64) ∧
        (b ≠ 0#64 → ∃ r : Nat, a.toNat = q.toNat * b.toNat + r ∧ r < b.toNat)) ∧
      encode (.sdiv rd rn rm) = wordR 0x9AC00800#32 rm rn rd ∧ encode (.udiv rd rn rm) = wordR 0x9AC00C00#32 rm rn rd

/-- `B` (R121), `BL` (R122). -/
def Obligations.BranchAndLink : Prop :=
  ∀ (address : BitVec 26) (s : State),
    (JumpsTo (.b address) (BitVec.ofInt 64 (s.pc.toNat + 4 * address.toInt)) s ∧
        encode (.b address) = 0x14000000#32 ||| address.setWidth 32) ∧
      (∃ t, exec (.bl address) s = .next t ∧ WroteX 30#5 (s.pc + 4#64) s t ∧ t.flags = s.flags ∧
        t.monitor = s.monitor ∧ t.pc = BitVec.ofInt 64 (s.pc.toNat + 4 * address.toInt)) ∧
      encode (.bl address) = 0x94000000#32 ||| address.setWidth 32

/-- `B.cond` (R123). (Flags at launch hold a value in this model: log 6.) -/
def Obligations.ConditionalBranch : Prop :=
  ∀ (c : Cond) (address : BitVec 19) (s : State),
    JumpsTo (.bCond c address)
        (if conditionHolds c s.flags then BitVec.ofInt 64 (s.pc.toNat + 4 * address.toInt) else s.pc + 4#64) s ∧
      encode (.bCond c address) = wordCB 0x54000000#32 address ((codeOf c).setWidth 5)

/-- The condition table (R124), with the meaning of each condition after `SUBS` and `SUBIS` of a, b. -/
def Obligations.ConditionTable : Prop :=
  (∀ code : BitVec 4, condOf code = [Cond.eq, .ne, .hs, .lo, .mi, .pl, .vs, .vc, .hi, .ls, .ge, .lt, .gt, .le][code.toNat]?) ∧
    (∀ f : Flags, (conditionHolds .eq f ↔ f.z = true) ∧ (conditionHolds .ne f ↔ f.z = false) ∧
      (conditionHolds .hs f ↔ f.c = true) ∧ (conditionHolds .lo f ↔ f.c = false) ∧
      (conditionHolds .mi f ↔ f.n = true) ∧ (conditionHolds .pl f ↔ f.n = false) ∧
      (conditionHolds .vs f ↔ f.v = true) ∧ (conditionHolds .vc f ↔ f.v = false) ∧
      (conditionHolds .hi f ↔ f.c = true ∧ f.z = false) ∧ (conditionHolds .ls f ↔ ¬(f.c = true ∧ f.z = false)) ∧
      (conditionHolds .ge f ↔ f.n = f.v) ∧ (conditionHolds .lt f ↔ f.n ≠ f.v) ∧
      (conditionHolds .gt f ↔ f.z = false ∧ f.n = f.v) ∧ (conditionHolds .le f ↔ ¬(f.z = false ∧ f.n = f.v))) ∧
    ∀ (i : Instr) (rd rn : Reg) (s : State) (a b : Word), a = s.readX rn →
      ((∃ rm, i = .subs rd rn rm ∧ b = s.readX rm) ∨ (∃ imm, i = .subis rd rn imm ∧ b = imm.setWidth 64)) →
      ∃ t, exec i s = .next t ∧
        (conditionHolds .eq t.flags ↔ a = b) ∧ (conditionHolds .ne t.flags ↔ a ≠ b) ∧
        (conditionHolds .hs t.flags ↔ b.toNat ≤ a.toNat) ∧ (conditionHolds .lo t.flags ↔ a.toNat < b.toNat) ∧
        (conditionHolds .mi t.flags ↔ (a - b).toInt < 0) ∧ (conditionHolds .pl t.flags ↔ 0 ≤ (a - b).toInt) ∧
        (conditionHolds .vs t.flags ↔ (a - b).toInt ≠ a.toInt - b.toInt) ∧
        (conditionHolds .vc t.flags ↔ (a - b).toInt = a.toInt - b.toInt) ∧
        (conditionHolds .hi t.flags ↔ b.toNat < a.toNat) ∧ (conditionHolds .ls t.flags ↔ a.toNat ≤ b.toNat) ∧
        (conditionHolds .ge t.flags ↔ b.toInt ≤ a.toInt) ∧ (conditionHolds .lt t.flags ↔ a.toInt < b.toInt) ∧
        (conditionHolds .gt t.flags ↔ b.toInt < a.toInt) ∧ (conditionHolds .le t.flags ↔ a.toInt ≤ b.toInt)

/-- `CBZ` (R125), `CBNZ` (R126). -/
def Obligations.CompareAndBranch : Prop :=
  ∀ (rt : Reg) (address : BitVec 19) (s : State),
    (JumpsTo (.cbz rt address)
        (if s.readX rt = 0#64 then BitVec.ofInt 64 (s.pc.toNat + 4 * address.toInt) else s.pc + 4#64) s ∧
        encode (.cbz rt address) = wordCB 0xB4000000#32 address rt) ∧
      (JumpsTo (.cbnz rt address)
        (if s.readX rt ≠ 0#64 then BitVec.ofInt 64 (s.pc.toNat + 4 * address.toInt) else s.pc + 4#64) s ∧
        encode (.cbnz rt address) = wordCB 0xB5000000#32 address rt)

/-- `BR` (R127). -/
def Obligations.BranchRegister : Prop :=
  ∀ (rn : Reg) (s : State), encode (.br rn) = wordR 0xD6000000#32 0#5 rn 0#5 ∧
    ∃ t, exec (.br rn) s = .next t ∧ Jumped (s.readX rn) s t ∧
      (t.run = .running → s.readX rn ≠ t.cfg.haltPc → (s.readX rn).extractLsb' 0 2 ≠ 0#2 →
        ∃ u, step t = .next u ∧ Took (.pcAlignment (s.readX rn)) t u ∧ u.faultPc = some (s.readX rn) ∧
          u.faultAddr = some (s.readX rn))

/-- `LDURB` (R172), `LDURH` (R174), `LDURSW` (R176), `LDUR` (R182). -/
def Obligations.IntegerLoads : Prop :=
  ∀ (rt rn : Reg) (offset : BitVec 9) (s : State),
    (LoadsX (.ldurb rt rn offset) rt (s.readX rn + offset.signExtend 64) 1 (fun b => (b 0).setWidth 64) s ∧
        encode (.ldurb rt rn offset) = wordD 0x38400000#32 offset rn rt) ∧
      (LoadsX (.ldurh rt rn offset) rt (s.readX rn + offset.signExtend 64) 2 (fun b => (be16 b).setWidth 64) s ∧
        encode (.ldurh rt rn offset) = wordD 0x78400000#32 offset rn rt) ∧
      (LoadsX (.ldursw rt rn offset) rt (s.readX rn + offset.signExtend 64) 4 (fun b => (be32 b).signExtend 64) s ∧
        encode (.ldursw rt rn offset) = wordD 0xB8800000#32 offset rn rt) ∧
      (LoadsX (.ldur rt rn offset) rt (s.readX rn + offset.signExtend 64) 8 be64 s ∧
        encode (.ldur rt rn offset) = wordD 0xF8400000#32 offset rn rt)

/-- `STURB` (R171), `STURH` (R173), `STURW` (R175), `STUR` (R181). -/
def Obligations.IntegerStores : Prop :=
  ∀ (rt rn : Reg) (offset : BitVec 9) (s : State),
    (StoresAt (.sturb rt rn offset) (s.readX rn + offset.signExtend 64) 1 (s.readX rt) s ∧
        encode (.sturb rt rn offset) = wordD 0x38000000#32 offset rn rt) ∧
      (StoresAt (.sturh rt rn offset) (s.readX rn + offset.signExtend 64) 2 (s.readX rt) s ∧
        encode (.sturh rt rn offset) = wordD 0x78000000#32 offset rn rt) ∧
      (StoresAt (.sturw rt rn offset) (s.readX rn + offset.signExtend 64) 4 (s.readX rt) s ∧
        encode (.sturw rt rn offset) = wordD 0xB8000000#32 offset rn rt) ∧
      (StoresAt (.stur rt rn offset) (s.readX rn + offset.signExtend 64) 8 (s.readX rt) s ∧
        encode (.stur rt rn offset) = wordD 0xF8000000#32 offset rn rt)

/-- `LDURS` (R178), `LDURD` (R184). -/
def Obligations.FloatingPointLoads : Prop :=
  ∀ (rt rn : Reg) (offset : BitVec 9) (s : State),
    (LoadsD (.ldurs rt rn offset) rt (s.readX rn + offset.signExtend 64) 4 (fun b => (be32 b).setWidth 64) s ∧
        encode (.ldurs rt rn offset) = wordD 0xBC400000#32 offset rn rt) ∧
      (LoadsD (.ldurd rt rn offset) rt (s.readX rn + offset.signExtend 64) 8 be64 s ∧
        encode (.ldurd rt rn offset) = wordD 0xFC400000#32 offset rn rt)

/-- `STURS` (R177), `STURD` (R183). -/
def Obligations.FloatingPointStores : Prop :=
  ∀ (rt rn : Reg) (offset : BitVec 9) (s : State),
    (StoresAtD (.sturs rt rn offset) (s.readX rn + offset.signExtend 64) 4 (s.readD rt) s ∧
        encode (.sturs rt rn offset) = wordD 0xBC000000#32 offset rn rt) ∧
      (StoresAtD (.sturd rt rn offset) (s.readX rn + offset.signExtend 64) 8 (s.readD rt) s ∧
        encode (.sturd rt rn offset) = wordD 0xFC000000#32 offset rn rt)

/-- Data Abort (R56, and the marks of R58) for each of the fourteen loads and stores. -/
def Obligations.MisalignedOrForbiddenAccessAborts : Prop :=
  ∀ (i : Instr) (s : State) (k : AccessKind) (a : Word) (n : Nat), dataAccess i s = some (k, a, n) →
    i.wellFormed = true → (i.usesFpUnit = true → s.cfg.fpEnabled = true) → ¬MayAccess s k a n →
      Raises i (.dataAbort a) s ∧
        ∀ t, exec i s = .next t → t.faultAddr = some a ∧ SameMemory s t ∧ SameX s t ∧ SameD s t

/-- Order 10 of R256: a load that reads an `unwritten` byte (R37). -/
def Obligations.UnwrittenLoadIsAModelFault : Prop :=
  ∀ (i : Instr) (s : State) (a : Word) (n j : Nat), dataAccess i s = some (.read, a, n) →
    (i.usesFpUnit = true → s.cfg.fpEnabled = true) → MayAccess s .read a n → j < n →
    (∀ k, k < j → (s.mem.read (a.toNat + k)).isSome = true) → s.mem.read (a.toNat + j) = none →
      exec i s = .fault (.unwrittenRead (a.toNat + j))

/-- `LDXR` (R180). -/
def Obligations.LoadExclusive : Prop :=
  ∀ (rt rn : Reg) (s : State), encode (.ldxr rt rn) = wordR 0xC8400000#32 0#5 rn rt ∧
    (∀ b, Holds s (s.readX rn) 8 b → ∃ t, exec (.ldxr rt rn) s = .next t ∧ WroteX rt (be64 b) s t ∧
      t.flags = s.flags ∧ t.monitor = .armed (s.readX rn) ∧ t.pc = s.pc + 4#64) ∧
    (¬MayAccess s .read (s.readX rn) 8 →
      ∃ t, exec (.ldxr rt rn) s = .next t ∧ Took (.dataAbort (s.readX rn)) s t ∧ t.monitor = .clear)

/-- `STXR` (R179). The draw is free: the statement holds for every value of it. -/
def Obligations.StoreExclusive : Prop :=
  ∀ (rs rt rn : Reg) (s : State), encode (.stxr rs rt rn) = wordR 0xC8000000#32 rs rn rt ∧
    (rs ≠ 31#5 ∧ (rs = rt ∨ rs = rn) → exec (.stxr rs rt rn) s = .refused (.refusedWord .stxrOverlap)) ∧
    (¬(rs ≠ 31#5 ∧ (rs = rt ∨ rs = rn)) →
      (¬MayAccess s .write (s.readX rn) 8 → Raises (.stxr rs rt rn) (.dataAbort (s.readX rn)) s) ∧
      (MayAccess s .write (s.readX rn) 8 →
        ∃ t, exec (.stxr rs rt rn) s = .next t ∧
          (if s.monitor = .armed (s.readX rn) then
            StxrStored rs (s.readX rn) (s.readX rt) s t ∨ (s.cfg.stxrSpuriousFail = true ∧ StxrFailed rs s t)
          else StxrFailed rs s t)))

/-- The exclusive pair (R66). -/
def Obligations.ExclusivePair : Prop :=
  ∀ (rt rn rs r2 : Reg) (s : State) (b : Nat → Byte), s.cfg.stxrSpuriousFail = false → Holds s (s.readX rn) 8 b →
    MayAccess s .write (s.readX rn) 8 → rt ≠ rn ∨ rn = 31#5 → stxrOverlaps rs r2 rn = false →
      ∃ t u v, exec (.ldxr rt rn) s = .next t ∧ exec (.stxr rs r2 rn) t = .next u ∧
        StxrStored rs (s.readX rn) (t.readX r2) t u ∧ exec (.stxr rs r2 rn) u = .next v ∧ StxrFailed rs u v

/-- Mixed-width accesses (R55). -/
def Obligations.MixedWidthAccess : Prop :=
  ∀ (s t : State) (a v : Word), memWrite s a 8 v.toNat = some t →
    ((∀ j, j < 8 → permits t.cfg.memMap .read (a.toNat + j) = true) →
      (∃ b, memRead t a 4 = .ok b ∧ BitVec.ofNat 32 (beNat b) = v.extractLsb' 32 32) ∧
        (∃ b, memRead t (a + 4#64) 4 = .ok b ∧ BitVec.ofNat 32 (beNat b) = v.extractLsb' 0 32) ∧
        (∃ b, memRead t (a + 7#64) 1 = .ok b ∧ BitVec.ofNat 8 (beNat b) = v.extractLsb' 0 8) ∧
        (∃ b, memRead t a 8 = .ok b ∧ BitVec.ofNat 64 (beNat b) = v)) ∧
      ((∀ j, j < 4 → permits t.cfg.memMap .fetch (a.toNat + j) = true) →
        fetch (t.jump a) = .word (v.extractLsb' 32 32))

/-- The floating-point enable (R144). -/
def Obligations.DisabledUnitRaisesClassSeven : Prop :=
  (∀ (i : Instr) (s : State), i.usesFpUnit = true → s.cfg.fpEnabled = false → Raises i .fpDisabled s) ∧
    Exc.fpDisabled.cls.code = 7#6 ∧ Config.standard.fpEnabled = true

/-- R145, R146, R148, R149 at single precision; the signalled exceptions are the model's reading of IEEE 754 (log 14,
15). -/
def Obligations.FloatingPointArithmeticSingle : Prop :=
  ∀ (rd rn rm : Reg) (s : State),
    (ComputesFp (.fmuls rd rn rm) rd ((numericsSingle s.cfg .mul (s.readS rn) (s.readS rm)).1.setWidth 64)
          (numericsSingle s.cfg .mul (s.readS rn) (s.readS rm)).2 s ∧
        encode (.fmuls rd rn rm) = wordR 0x1E200800#32 rm rn rd) ∧
      (ComputesFp (.fdivs rd rn rm) rd ((numericsSingle s.cfg .div (s.readS rn) (s.readS rm)).1.setWidth 64)
          (numericsSingle s.cfg .div (s.readS rn) (s.readS rm)).2 s ∧
        encode (.fdivs rd rn rm) = wordR 0x1E201800#32 rm rn rd) ∧
      (ComputesFp (.fadds rd rn rm) rd ((numericsSingle s.cfg .add (s.readS rn) (s.readS rm)).1.setWidth 64)
          (numericsSingle s.cfg .add (s.readS rn) (s.readS rm)).2 s ∧
        encode (.fadds rd rn rm) = wordR 0x1E202800#32 rm rn rd) ∧
      (ComputesFp (.fsubs rd rn rm) rd ((numericsSingle s.cfg .sub (s.readS rn) (s.readS rm)).1.setWidth 64)
          (numericsSingle s.cfg .sub (s.readS rn) (s.readS rm)).2 s ∧
        encode (.fsubs rd rn rm) = wordR 0x1E203800#32 rm rn rd)

/-- R150, R151, R153, R154 at double precision; the signalled exceptions are the model's reading of IEEE 754 (log 14,
15). -/
def Obligations.FloatingPointArithmeticDouble : Prop :=
  ∀ (rd rn rm : Reg) (s : State),
    (ComputesFp (.fmuld rd rn rm) rd (numericsDouble s.cfg .mul (s.readD rn) (s.readD rm)).1
          (numericsDouble s.cfg .mul (s.readD rn) (s.readD rm)).2 s ∧
        encode (.fmuld rd rn rm) = wordR 0x1E600800#32 rm rn rd) ∧
      (ComputesFp (.fdivd rd rn rm) rd (numericsDouble s.cfg .div (s.readD rn) (s.readD rm)).1
          (numericsDouble s.cfg .div (s.readD rn) (s.readD rm)).2 s ∧
        encode (.fdivd rd rn rm) = wordR 0x1E601800#32 rm rn rd) ∧
      (ComputesFp (.faddd rd rn rm) rd (numericsDouble s.cfg .add (s.readD rn) (s.readD rm)).1
          (numericsDouble s.cfg .add (s.readD rn) (s.readD rm)).2 s ∧
        encode (.faddd rd rn rm) = wordR 0x1E602800#32 rm rn rd) ∧
      (ComputesFp (.fsubd rd rn rm) rd (numericsDouble s.cfg .sub (s.readD rn) (s.readD rm)).1
          (numericsDouble s.cfg .sub (s.readD rn) (s.readD rm)).2 s ∧
        encode (.fsubd rd rn rm) = wordR 0x1E603800#32 rm rn rd)

/-- `FCMPS` (R147), `FCMPD` (R152), by the rational values of the operands. -/
def Obligations.FloatingPointCompare : Prop :=
  ∀ (rn rm : Reg) (s : State),
    (Compares (.fcmps rn rm) .single (s.readS rn).toNat (s.readS rm).toNat s ∧
        encode (.fcmps rn rm) = wordR 0x1E202000#32 rm rn 0#5) ∧
      (Compares (.fcmpd rn rm) .double (s.readD rn).toNat (s.readD rm).toNat s ∧
        encode (.fcmpd rn rm) = wordR 0x1E602000#32 rm rn 0#5)

/-- Rounding (R143 items 1 and 2), against the rational values of R141, and the overflow, inexact and underflow of
item 7. That these are the conditions is the model's reading of IEEE 754, to which item 7 refers (PRESUMED, log 15),
and that underflow is signalled on every tiny result, detected by a parameter, is the model's own (log 14). -/
def Obligations.FloatingPointRounding : Prop :=
  (∀ (cfg : Config) (op : FpOp) (a b : BitVec 32), fpFinite .single a.toNat → fpFinite .single b.toNat →
      (op = .div → ¬fpIsZero .single b.toNat) →
      CorrectlyRounded .single (exactResult op (fpValue .single a.toNat) (fpValue .single b.toNat))
        (numericsSingle cfg op a b).1.toNat ∧
      RoundedSignals .single cfg.tininess (exactResult op (fpValue .single a.toNat) (fpValue .single b.toNat))
        (numericsSingle cfg op a b).1.toNat (numericsSingle cfg op a b).2) ∧
    ∀ (cfg : Config) (op : FpOp) (a b : BitVec 64), fpFinite .double a.toNat → fpFinite .double b.toNat →
      (op = .div → ¬fpIsZero .double b.toNat) →
      CorrectlyRounded .double (exactResult op (fpValue .double a.toNat) (fpValue .double b.toNat))
        (numericsDouble cfg op a b).1.toNat ∧
      RoundedSignals .double cfg.tininess (exactResult op (fpValue .double a.toNat) (fpValue .double b.toNat))
        (numericsDouble cfg op a b).1.toNat (numericsDouble cfg op a b).2

/-- NaN results (R143 items 4 to 6) and the invalid operation of item 7. The A64 pattern is the recommended default, a
parameter of the model (log 13); when invalid operation is signalled is the model's reading of IEEE 754 (PRESUMED, log
15). -/
def Obligations.NanResults : Prop :=
  (∀ (cfg : Config) (op : FpOp) (a b : BitVec 32),
      NanLaw .single op a.toNat b.toNat (numericsSingle cfg op a b).1.toNat ∧
        InvalidSignal .single op a.toNat b.toNat (numericsSingle cfg op a b).2 ∧
        (cfg.nanRule = .a64 → A64NanLaw .single op a.toNat b.toNat (numericsSingle cfg op a b).1.toNat) ∧
        ∀ cfg' : Config, cfg'.nanRule = cfg.nanRule → (numericsSingle cfg' op a b).1 = (numericsSingle cfg op a b).1) ∧
    ∀ (cfg : Config) (op : FpOp) (a b : BitVec 64),
      NanLaw .double op a.toNat b.toNat (numericsDouble cfg op a b).1.toNat ∧
        InvalidSignal .double op a.toNat b.toNat (numericsDouble cfg op a b).2 ∧
        (cfg.nanRule = .a64 → A64NanLaw .double op a.toNat b.toNat (numericsDouble cfg op a b).1.toNat) ∧
        ∀ cfg' : Config, cfg'.nanRule = cfg.nanRule → (numericsDouble cfg' op a b).1 = (numericsDouble cfg op a b).1

/-- Zeros and infinities (R143 items 2 and 3) and the division by zero of item 7; when it is signalled, and that
nothing else is where nothing is rounded, is the model's reading of IEEE 754 (PRESUMED, log 15). -/
def Obligations.ZeroAndInfinityResults : Prop :=
  (∀ (cfg : Config) (a b : BitVec 32),
      (∀ op, op = .mul ∨ op = .div →
        ProductSpecials .single op a.toNat b.toNat (numericsSingle cfg op a b).1.toNat) ∧
        (∀ op, DivByZeroSignal .single op a.toNat b.toNat (numericsSingle cfg op a b).2 ∧
          UnroundedSignals .single op a.toNat b.toNat (numericsSingle cfg op a b).2) ∧
        SumSpecials .single false a.toNat b.toNat (numericsSingle cfg .add a b).1.toNat ∧
        SumSpecials .single true a.toNat b.toNat (numericsSingle cfg .sub a b).1.toNat) ∧
    ∀ (cfg : Config) (a b : BitVec 64),
      (∀ op, op = .mul ∨ op = .div →
        ProductSpecials .double op a.toNat b.toNat (numericsDouble cfg op a b).1.toNat) ∧
        (∀ op, DivByZeroSignal .double op a.toNat b.toNat (numericsDouble cfg op a b).2 ∧
          UnroundedSignals .double op a.toNat b.toNat (numericsDouble cfg op a b).2) ∧
        SumSpecials .double false a.toNat b.toNat (numericsDouble cfg .add a b).1.toNat ∧
        SumSpecials .double true a.toNat b.toNat (numericsDouble cfg .sub a b).1.toNat
end

