-- ==== Sys2Proof/Laws/Decode.lean ====
section
/-! SUPPORT. What each field of an encoded word is (spec/30_encoding.md R83 to R88), and how the opcode table is read. -/

namespace Sys2Proof

/-! ## The fields of the six layouts -/

@[simp] theorem op11Field_encodeR (op : BitVec 11) (rm : BitVec 5) (shamt : BitVec 6) (rn : BitVec 5) (rd : BitVec 5) :
    op11Field (encodeR op rm shamt rn rd) = op := by
  unfold op11Field encodeR
  rw [BitVec.extractLsb'_append_eq_of_le (by decide),
    BitVec.extractLsb'_append_eq_of_le (by decide),
    BitVec.extractLsb'_append_eq_of_le (by decide),
    BitVec.extractLsb'_append_eq_of_le (by decide)]
  exact BitVec.extractLsb'_eq_self

@[simp] theorem rmField_encodeR (op : BitVec 11) (rm : BitVec 5) (shamt : BitVec 6) (rn : BitVec 5) (rd : BitVec 5) :
    rmField (encodeR op rm shamt rn rd) = rm := by
  unfold rmField encodeR
  rw [BitVec.extractLsb'_append_eq_of_le (by decide),
    BitVec.extractLsb'_append_eq_of_le (by decide),
    BitVec.extractLsb'_append_eq_of_le (by decide),
    BitVec.extractLsb'_append_eq_of_add_le (by decide)]
  exact BitVec.extractLsb'_eq_self

@[simp] theorem shamtField_encodeR (op : BitVec 11) (rm : BitVec 5) (shamt : BitVec 6) (rn : BitVec 5) (rd : BitVec 5) :
    shamtField (encodeR op rm shamt rn rd) = shamt := by
  unfold shamtField encodeR
  rw [BitVec.extractLsb'_append_eq_of_le (by decide),
    BitVec.extractLsb'_append_eq_of_le (by decide),
    BitVec.extractLsb'_append_eq_of_add_le (by decide)]
  exact BitVec.extractLsb'_eq_self

@[simp] theorem rnField_encodeR (op : BitVec 11) (rm : BitVec 5) (shamt : BitVec 6) (rn : BitVec 5) (rd : BitVec 5) :
    rnField (encodeR op rm shamt rn rd) = rn := by
  unfold rnField encodeR
  rw [BitVec.extractLsb'_append_eq_of_le (by decide),
    BitVec.extractLsb'_append_eq_of_add_le (by decide)]
  exact BitVec.extractLsb'_eq_self

@[simp] theorem rdField_encodeR (op : BitVec 11) (rm : BitVec 5) (shamt : BitVec 6) (rn : BitVec 5) (rd : BitVec 5) :
    rdField (encodeR op rm shamt rn rd) = rd := by
  unfold rdField encodeR
  rw [BitVec.extractLsb'_append_eq_of_add_le (by decide)]
  exact BitVec.extractLsb'_eq_self

@[simp] theorem aluField_encodeI (op : BitVec 10) (imm : BitVec 12) (rn : BitVec 5) (rd : BitVec 5) :
    aluField (encodeI op imm rn rd) = imm := by
  unfold aluField encodeI
  rw [BitVec.extractLsb'_append_eq_of_le (by decide),
    BitVec.extractLsb'_append_eq_of_le (by decide),
    BitVec.extractLsb'_append_eq_of_add_le (by decide)]
  exact BitVec.extractLsb'_eq_self

@[simp] theorem rnField_encodeI (op : BitVec 10) (imm : BitVec 12) (rn : BitVec 5) (rd : BitVec 5) :
    rnField (encodeI op imm rn rd) = rn := by
  unfold rnField encodeI
  rw [BitVec.extractLsb'_append_eq_of_le (by decide),
    BitVec.extractLsb'_append_eq_of_add_le (by decide)]
  exact BitVec.extractLsb'_eq_self

@[simp] theorem rdField_encodeI (op : BitVec 10) (imm : BitVec 12) (rn : BitVec 5) (rd : BitVec 5) :
    rdField (encodeI op imm rn rd) = rd := by
  unfold rdField encodeI
  rw [BitVec.extractLsb'_append_eq_of_add_le (by decide)]
  exact BitVec.extractLsb'_eq_self

@[simp] theorem op11Field_encodeI (op : BitVec 10) (imm : BitVec 12) (rn : BitVec 5) (rd : BitVec 5) :
    op11Field (encodeI op imm rn rd) = op ++ imm.extractLsb' 11 1 := by
  have h : op11Field (encodeI op imm rn rd) = (encodeI op imm rn rd).extractLsb' 22 10 ++ (encodeI op imm rn rd).extractLsb' 21 1 :=
    (BitVec.extractLsb'_append_extractLsb'_eq_extractLsb' (show 22 = 21 + 1 from rfl)).symm
  rw [h]
  unfold encodeI
  rw [BitVec.extractLsb'_append_eq_of_le (by decide),
    BitVec.extractLsb'_append_eq_of_le (by decide),
    BitVec.extractLsb'_append_eq_of_le (by decide),
    BitVec.extractLsb'_append_eq_of_le (by decide),
    BitVec.extractLsb'_append_eq_of_le (by decide),
    BitVec.extractLsb'_append_eq_of_add_le (by decide)]
  rw [BitVec.extractLsb'_eq_self]

@[simp] theorem op11Field_encodeD (op : BitVec 11) (dt : BitVec 9) (op2 : BitVec 2) (rn : BitVec 5) (rt : BitVec 5) :
    op11Field (encodeD op dt op2 rn rt) = op := by
  unfold op11Field encodeD
  rw [BitVec.extractLsb'_append_eq_of_le (by decide),
    BitVec.extractLsb'_append_eq_of_le (by decide),
    BitVec.extractLsb'_append_eq_of_le (by decide),
    BitVec.extractLsb'_append_eq_of_le (by decide)]
  exact BitVec.extractLsb'_eq_self

@[simp] theorem dtField_encodeD (op : BitVec 11) (dt : BitVec 9) (op2 : BitVec 2) (rn : BitVec 5) (rt : BitVec 5) :
    dtField (encodeD op dt op2 rn rt) = dt := by
  unfold dtField encodeD
  rw [BitVec.extractLsb'_append_eq_of_le (by decide),
    BitVec.extractLsb'_append_eq_of_le (by decide),
    BitVec.extractLsb'_append_eq_of_le (by decide),
    BitVec.extractLsb'_append_eq_of_add_le (by decide)]
  exact BitVec.extractLsb'_eq_self

@[simp] theorem rmField_encodeD (op : BitVec 11) (dt : BitVec 9) (op2 : BitVec 2) (rn : BitVec 5) (rt : BitVec 5) :
    rmField (encodeD op dt op2 rn rt) = dt.extractLsb' 4 5 := by
  unfold rmField encodeD
  rw [BitVec.extractLsb'_append_eq_of_le (by decide),
    BitVec.extractLsb'_append_eq_of_le (by decide),
    BitVec.extractLsb'_append_eq_of_le (by decide),
    BitVec.extractLsb'_append_eq_of_add_le (by decide)]

@[simp] theorem dtLowField_encodeD (op : BitVec 11) (dt : BitVec 9) (op2 : BitVec 2) (rn : BitVec 5) (rt : BitVec 5) :
    dtLowField (encodeD op dt op2 rn rt) = dt.extractLsb' 0 4 := by
  unfold dtLowField encodeD
  rw [BitVec.extractLsb'_append_eq_of_le (by decide),
    BitVec.extractLsb'_append_eq_of_le (by decide),
    BitVec.extractLsb'_append_eq_of_le (by decide),
    BitVec.extractLsb'_append_eq_of_add_le (by decide)]

@[simp] theorem opField_encodeD (op : BitVec 11) (dt : BitVec 9) (op2 : BitVec 2) (rn : BitVec 5) (rt : BitVec 5) :
    opField (encodeD op dt op2 rn rt) = op2 := by
  unfold opField encodeD
  rw [BitVec.extractLsb'_append_eq_of_le (by decide),
    BitVec.extractLsb'_append_eq_of_le (by decide),
    BitVec.extractLsb'_append_eq_of_add_le (by decide)]
  exact BitVec.extractLsb'_eq_self

@[simp] theorem rnField_encodeD (op : BitVec 11) (dt : BitVec 9) (op2 : BitVec 2) (rn : BitVec 5) (rt : BitVec 5) :
    rnField (encodeD op dt op2 rn rt) = rn := by
  unfold rnField encodeD
  rw [BitVec.extractLsb'_append_eq_of_le (by decide),
    BitVec.extractLsb'_append_eq_of_add_le (by decide)]
  exact BitVec.extractLsb'_eq_self

@[simp] theorem rdField_encodeD (op : BitVec 11) (dt : BitVec 9) (op2 : BitVec 2) (rn : BitVec 5) (rt : BitVec 5) :
    rdField (encodeD op dt op2 rn rt) = rt := by
  unfold rdField encodeD
  rw [BitVec.extractLsb'_append_eq_of_add_le (by decide)]
  exact BitVec.extractLsb'_eq_self

@[simp] theorem brField_encodeB (op : BitVec 6) (address : BitVec 26) :
    brField (encodeB op address) = address := by
  unfold brField encodeB
  rw [BitVec.extractLsb'_append_eq_of_add_le (by decide)]
  exact BitVec.extractLsb'_eq_self

@[simp] theorem op11Field_encodeB (op : BitVec 6) (address : BitVec 26) :
    op11Field (encodeB op address) = op ++ address.extractLsb' 21 5 := by
  have h : op11Field (encodeB op address) = (encodeB op address).extractLsb' 26 6 ++ (encodeB op address).extractLsb' 21 5 :=
    (BitVec.extractLsb'_append_extractLsb'_eq_extractLsb' (show 26 = 21 + 5 from rfl)).symm
  rw [h]
  unfold encodeB
  rw [BitVec.extractLsb'_append_eq_of_le (by decide),
    BitVec.extractLsb'_append_eq_of_add_le (by decide)]
  rw [BitVec.extractLsb'_eq_self]

@[simp] theorem condBrField_encodeCB (op : BitVec 8) (address : BitVec 19) (rt : BitVec 5) :
    condBrField (encodeCB op address rt) = address := by
  unfold condBrField encodeCB
  rw [BitVec.extractLsb'_append_eq_of_le (by decide),
    BitVec.extractLsb'_append_eq_of_add_le (by decide)]
  exact BitVec.extractLsb'_eq_self

@[simp] theorem rdField_encodeCB (op : BitVec 8) (address : BitVec 19) (rt : BitVec 5) :
    rdField (encodeCB op address rt) = rt := by
  unfold rdField encodeCB
  rw [BitVec.extractLsb'_append_eq_of_add_le (by decide)]
  exact BitVec.extractLsb'_eq_self

@[simp] theorem condField_encodeCB (op : BitVec 8) (address : BitVec 19) (rt : BitVec 5) :
    condField (encodeCB op address rt) = rt.extractLsb' 0 4 := by
  unfold condField encodeCB
  rw [BitVec.extractLsb'_append_eq_of_add_le (by decide)]

@[simp] theorem rt4Field_encodeCB (op : BitVec 8) (address : BitVec 19) (rt : BitVec 5) :
    rt4Field (encodeCB op address rt) = rt.extractLsb' 4 1 := by
  unfold rt4Field encodeCB
  rw [BitVec.extractLsb'_append_eq_of_add_le (by decide)]

@[simp] theorem op11Field_encodeCB (op : BitVec 8) (address : BitVec 19) (rt : BitVec 5) :
    op11Field (encodeCB op address rt) = op ++ address.extractLsb' 16 3 := by
  have h : op11Field (encodeCB op address rt) = (encodeCB op address rt).extractLsb' 24 8 ++ (encodeCB op address rt).extractLsb' 21 3 :=
    (BitVec.extractLsb'_append_extractLsb'_eq_extractLsb' (show 24 = 21 + 3 from rfl)).symm
  rw [h]
  unfold encodeCB
  rw [BitVec.extractLsb'_append_eq_of_le (by decide),
    BitVec.extractLsb'_append_eq_of_le (by decide),
    BitVec.extractLsb'_append_eq_of_le (by decide),
    BitVec.extractLsb'_append_eq_of_add_le (by decide)]
  rw [BitVec.extractLsb'_eq_self]

@[simp] theorem hwField_encodeIM (op : BitVec 9) (hw : BitVec 2) (imm : BitVec 16) (rd : BitVec 5) :
    hwField (encodeIM op hw imm rd) = hw := by
  unfold hwField encodeIM
  rw [BitVec.extractLsb'_append_eq_of_le (by decide),
    BitVec.extractLsb'_append_eq_of_le (by decide),
    BitVec.extractLsb'_append_eq_of_add_le (by decide)]
  exact BitVec.extractLsb'_eq_self

@[simp] theorem movField_encodeIM (op : BitVec 9) (hw : BitVec 2) (imm : BitVec 16) (rd : BitVec 5) :
    movField (encodeIM op hw imm rd) = imm := by
  unfold movField encodeIM
  rw [BitVec.extractLsb'_append_eq_of_le (by decide),
    BitVec.extractLsb'_append_eq_of_add_le (by decide)]
  exact BitVec.extractLsb'_eq_self

@[simp] theorem rdField_encodeIM (op : BitVec 9) (hw : BitVec 2) (imm : BitVec 16) (rd : BitVec 5) :
    rdField (encodeIM op hw imm rd) = rd := by
  unfold rdField encodeIM
  rw [BitVec.extractLsb'_append_eq_of_add_le (by decide)]
  exact BitVec.extractLsb'_eq_self

@[simp] theorem op11Field_encodeIM (op : BitVec 9) (hw : BitVec 2) (imm : BitVec 16) (rd : BitVec 5) :
    op11Field (encodeIM op hw imm rd) = op ++ hw := by
  have h : op11Field (encodeIM op hw imm rd) = (encodeIM op hw imm rd).extractLsb' 23 9 ++ (encodeIM op hw imm rd).extractLsb' 21 2 :=
    (BitVec.extractLsb'_append_extractLsb'_eq_extractLsb' (show 23 = 21 + 2 from rfl)).symm
  rw [h]
  unfold encodeIM
  rw [BitVec.extractLsb'_append_eq_of_le (by decide),
    BitVec.extractLsb'_append_eq_of_le (by decide),
    BitVec.extractLsb'_append_eq_of_le (by decide),
    BitVec.extractLsb'_append_eq_of_le (by decide),
    BitVec.extractLsb'_append_eq_of_le (by decide),
    BitVec.extractLsb'_append_eq_of_add_le (by decide)]
  rw [BitVec.extractLsb'_eq_self, BitVec.extractLsb'_eq_self]

/-! ## A word as the union of its shifted fields -/

/-- A concatenation, widened, as a union. -/
theorem append_setWidth_eq_or {m n : Nat} (x : BitVec m) (y : BitVec n) (k : Nat) :
    (x ++ y).setWidth k = (x.setWidth k <<< n) ||| y.setWidth k := by
  apply BitVec.eq_of_getLsbD_eq
  intro i hi
  simp only [BitVec.getLsbD_setWidth, BitVec.getLsbD_append, BitVec.getLsbD_or, BitVec.getLsbD_shiftLeft, hi, decide_true,
    Bool.true_and]
  by_cases hn : i < n
  · simp [hn]
  · have : y.getLsbD i = false := BitVec.getLsbD_of_ge _ _ (by omega)
    simp [hn, this]
    omega

/-- Format R (R83). -/
theorem encodeR_eq_or (op : BitVec 11) (rm : Reg) (sh : BitVec 6) (rn rd : Reg) :
    encodeR op rm sh rn rd = (op.setWidth 32 <<< 21) ||| (rm.setWidth 32 <<< 16) ||| (sh.setWidth 32 <<< 10) |||
      (rn.setWidth 32 <<< 5) ||| rd.setWidth 32 := by
  have : encodeR op rm sh rn rd = (op ++ rm ++ sh ++ rn ++ rd).setWidth 32 := by unfold encodeR; simp
  rw [this]
  repeat rw [append_setWidth_eq_or _ _ 32]
  simp only [BitVec.shiftLeft_or_distrib, ← BitVec.shiftLeft_add]

/-- Format I (R84). -/
theorem encodeI_eq_or (op : BitVec 10) (imm : BitVec 12) (rn rd : Reg) :
    encodeI op imm rn rd = (op.setWidth 32 <<< 22) ||| (imm.setWidth 32 <<< 10) ||| (rn.setWidth 32 <<< 5) |||
      rd.setWidth 32 := by
  have : encodeI op imm rn rd = (op ++ imm ++ rn ++ rd).setWidth 32 := by unfold encodeI; simp
  rw [this]
  repeat rw [append_setWidth_eq_or _ _ 32]
  simp only [BitVec.shiftLeft_or_distrib, ← BitVec.shiftLeft_add]

/-- Format D (R85). -/
theorem encodeD_eq_or (op : BitVec 11) (dt : BitVec 9) (op2 : BitVec 2) (rn rt : Reg) :
    encodeD op dt op2 rn rt = (op.setWidth 32 <<< 21) ||| (dt.setWidth 32 <<< 12) ||| (op2.setWidth 32 <<< 10) |||
      (rn.setWidth 32 <<< 5) ||| rt.setWidth 32 := by
  have : encodeD op dt op2 rn rt = (op ++ dt ++ op2 ++ rn ++ rt).setWidth 32 := by unfold encodeD; simp
  rw [this]
  repeat rw [append_setWidth_eq_or _ _ 32]
  simp only [BitVec.shiftLeft_or_distrib, ← BitVec.shiftLeft_add]

/-- Format B (R86). -/
theorem encodeB_eq_or (op : BitVec 6) (address : BitVec 26) :
    encodeB op address = (op.setWidth 32 <<< 26) ||| address.setWidth 32 := by
  have : encodeB op address = (op ++ address).setWidth 32 := by unfold encodeB; simp
  rw [this, append_setWidth_eq_or _ _ 32]

/-- Format CB (R87). -/
theorem encodeCB_eq_or (op : BitVec 8) (address : BitVec 19) (rt : Reg) :
    encodeCB op address rt = (op.setWidth 32 <<< 24) ||| (address.setWidth 32 <<< 5) ||| rt.setWidth 32 := by
  have : encodeCB op address rt = (op ++ address ++ rt).setWidth 32 := by unfold encodeCB; simp
  rw [this]
  repeat rw [append_setWidth_eq_or _ _ 32]
  simp only [BitVec.shiftLeft_or_distrib, ← BitVec.shiftLeft_add]

/-- Format IM (R88). -/
theorem encodeIM_eq_or (op : BitVec 9) (hw : BitVec 2) (imm : BitVec 16) (rd : Reg) :
    encodeIM op hw imm rd = (op.setWidth 32 <<< 23) ||| (hw.setWidth 32 <<< 21) ||| (imm.setWidth 32 <<< 5) |||
      rd.setWidth 32 := by
  have : encodeIM op hw imm rd = (op ++ hw ++ imm ++ rd).setWidth 32 := by unfold encodeIM; simp
  rw [this]
  repeat rw [append_setWidth_eq_or _ _ 32]
  simp only [BitVec.shiftLeft_or_distrib, ← BitVec.shiftLeft_add]

/-! ## The opcode table -/

/-- The first element with a property is the first with a stronger one, if it has that too. -/
theorem find?_stronger {α : Type} (l : List α) (p q : α → Bool) (r : α) (hpq : ∀ a, q a = true → p a = true)
    (h : l.find? p = some r) (hr : q r = true) : l.find? q = some r := by
  induction l with
  | nil => simp at h
  | cons a l ih =>
    rw [List.find?_cons] at h ⊢
    by_cases hp : p a = true
    · rw [hp] at h
      cases h
      rw [hr]
    · have hq : q a = false := by
        cases hqa : q a
        · rfl
        · exact absurd (hpq a hqa) hp
      rw [Bool.not_eq_true] at hp
      rw [hp] at h
      rw [hq]
      exact ih h

/-- A row without a Shamt is found by the 11-bit opcode alone (R89). -/
theorem rowFor_of_inRange (op : BitVec 11) (shamt : BitVec 6) (r : OpcodeRow)
    (h : opcodeTable.find? (inRange op) = some r) (hs : r.shamt = none) : rowFor op shamt = some r.row := by
  unfold rowFor
  rw [find?_stronger opcodeTable (inRange op) (rowCovers op shamt) r _ h _]
  · rfl
  · intro a ha
    exact (Bool.and_eq_true _ _ ▸ ha).1
  · have hr := List.find?_some h
    unfold rowCovers
    rw [hr, hs]
    rfl

/-- The condition a code stands for (R124). -/
@[simp] theorem condOf_codeOf (c : Cond) : condOf (codeOf c) = some c := by cases c <;> rfl

/-- A code that names a condition is that condition's code (R124). -/
theorem codeOf_condOf (code : BitVec 4) (c : Cond) (h : condOf code = some c) : codeOf c = code := by
  revert code c
  decide

/-- The rows of a table in which no field is unused decode alike under both values of `UNUSED_FIELDS` (R92). -/
theorem decode_of_row (mode : UnusedFields) (w : InstrWord) (row : Row) (hr : rowOf w = some row)
    (hu : nonzeroUnused row w = none) : decode mode w = operandsOf row w := by
  cases mode <;> simp only [decode, hr, hu]

end Sys2Proof
end

