-- ==== Sys2Proof/Laws/Flags.lean ====
section
/-! SUPPORT. The flag computations in terms of the operands (spec/43_integer_register.md R200). -/

namespace Sys2Proof.Machine

/-- `AddWithCarry(a, b, 0)` is addition (R200). -/
theorem addWithCarry_eq_add (a b : Word) :
    addWithCarry a b false = (a + b, ⟨(a + b).msb, decide (a + b = 0#64), decide (2 ^ 64 ≤ a.toNat + b.toNat),
      decide (a.toInt + b.toInt < -2 ^ 63 ∨ 2 ^ 63 ≤ a.toInt + b.toInt)⟩) := by
  unfold addWithCarry
  have h : BitVec.ofNat 64 (a.toNat + b.toNat + false.toNat) = a + b := by
    apply BitVec.eq_of_toNat_eq
    simp
  simp only [h, Bool.decide_or, beq_eq_decide]
  simp

/-- `AddWithCarry(a, NOT b, 1)` is subtraction; C says there is no borrow (R200). -/
theorem subWithFlags_eq_sub (a b : Word) :
    subWithFlags a b = (a - b, ⟨(a - b).msb, decide (a = b), decide (b.toNat ≤ a.toNat),
      decide (a.toInt - b.toInt < -2 ^ 63 ∨ 2 ^ 63 ≤ a.toInt - b.toInt)⟩) := by
  unfold subWithFlags addWithCarry
  have hb := b.isLt
  have ha := a.isLt
  have hr : BitVec.ofNat 64 (a.toNat + (~~~b).toNat + true.toNat) = a - b := by
    apply BitVec.eq_of_toNat_eq
    simp
    omega
  have hs : a.toInt + (~~~b).toInt + (true.toNat : Int) = a.toInt - b.toInt := by
    rw [BitVec.toInt_not]
    have hn : (2 ^ 64 - 1 - (b.toNat : Int)).bmod (2 ^ 64) = -b.toInt - 1 := by
      rw [BitVec.toInt_eq_toNat_bmod]
      simp only [Int.bmod]
      omega
    rw [hn]
    simp
    ring
  simp only [hr, hs, Bool.decide_or, beq_eq_decide, Prod.mk.injEq, Flags.mk.injEq, true_and, and_true]
  constructor
  · simp [BitVec.sub_eq_iff_eq_add]
  · simp
    omega

end Sys2Proof.Machine
end

