-- ==== Sys2Proof/Laws/Memory.lean ====
section
/-! SUPPORT. The laws of memory: read after write, the canonical form, bytes and their values, and what the two accesses
of spec/20_memory.md R53 and R54 can do. -/

namespace Sys2Proof

/-! ## Byte order -/

/-- The fold behind `beNat` from any starting value. -/
theorem beNat_foldl (bs : List Byte) (acc : Nat) :
    bs.foldl (fun acc b => acc * 256 + b.toNat) acc = acc * 256 ^ bs.length + beNat bs := by
  induction bs generalizing acc with
  | nil => simp [beNat]
  | cons b bs ih =>
    simp only [List.foldl_cons, List.length_cons, beNat]
    rw [ih, ih (0 * 256 + b.toNat)]
    ring

@[simp] theorem beNat_nil : beNat [] = 0 := rfl

theorem beNat_cons (b : Byte) (bs : List Byte) : beNat (b :: bs) = b.toNat * 256 ^ bs.length + beNat bs := by
  simp only [beNat, List.foldl_cons]
  rw [beNat_foldl]
  simp [beNat]

theorem beNat_append (as bs : List Byte) : beNat (as ++ bs) = beNat as * 256 ^ bs.length + beNat bs := by
  simp only [beNat, List.foldl_append]
  rw [beNat_foldl]
  simp [beNat]

/-- `n` bytes hold a number below `256^n`. -/
theorem beNat_lt (bs : List Byte) : beNat bs < 256 ^ bs.length := by
  induction bs with
  | nil => simp
  | cons b bs ih =>
    rw [beNat_cons, List.length_cons, pow_succ]
    have hb : b.toNat < 256 := b.isLt
    nlinarith [Nat.pow_pos (n := bs.length) (show 0 < 256 by decide)]

@[simp] theorem beBytes_length (n v : Nat) : (beBytes n v).length = n := by
  induction n with
  | zero => rfl
  | succ n ih => simp [beBytes, ih]

/-- Each byte of a number, the most significant first (R54). -/
theorem beBytes_getElem? (n v i : Nat) (hi : i < n) :
    (beBytes n v)[i]? = some (BitVec.ofNat 8 (v / 256 ^ (n - 1 - i))) := by
  induction n generalizing i with
  | zero => omega
  | succ n ih =>
    cases i with
    | zero => simp [beBytes]
    | succ i =>
      rw [beBytes, List.getElem?_cons_succ, ih i (by omega)]
      congr 4
      omega

/-- A byte of a bit vector as a slice. -/
theorem ofNat_div_eq_extractLsb' {w : Nat} (v : BitVec w) (k : Nat) :
    BitVec.ofNat 8 (v.toNat / 256 ^ k) = v.extractLsb' (8 * k) 8 := by
  apply BitVec.eq_of_toNat_eq
  rw [BitVec.extractLsb'_toNat, BitVec.toNat_ofNat, Nat.shiftRight_eq_div_pow, pow_mul]
  norm_num

/-- The bytes of a number give back its low 8n bits (R52). -/
theorem beNat_beBytes (n v : Nat) : beNat (beBytes n v) = v % 256 ^ n := by
  induction n with
  | zero => simp [beBytes, Nat.mod_one]
  | succ n ih =>
    rw [beBytes, beNat_cons, beBytes_length, ih, BitVec.toNat_ofNat]
    have h : v % 256 ^ (n + 1) = v % 256 ^ n + 256 ^ n * (v / 256 ^ n % 256) := by
      rw [pow_succ, Nat.mod_mul]
    have h8 : (2 : Nat) ^ 8 = 256 := rfl
    rw [h, h8]
    ring

/-- An instruction word laid down in memory is the word fetched (R55). -/
@[simp] theorem wordOfBytes_bytesOfWord (w : InstrWord) : wordOfBytes (bytesOfWord w) = w := by
  unfold wordOfBytes bytesOfWord
  rw [beNat_beBytes]
  apply BitVec.eq_of_toNat_eq
  have := w.isLt
  simp only [BitVec.toNat_ofNat]
  omega

namespace Machine

/-! ## One byte -/

/-- Read after write (R64). -/
theorem Memory.read_write (m : Memory) (a b : Nat) (v : Byte) :
    Memory.read (Memory.write m a v) b = if b = a then some v else Memory.read m b := by
  induction m with
  | nil => simp [Memory.write, Memory.read]
  | cons c m ih =>
    obtain ⟨k, x⟩ := c
    simp only [Memory.write]
    split
    · simp [Memory.read]
    · split
      · next h => subst h; simp only [Memory.read]; split <;> simp_all
      · next h => simp only [Memory.read, ih]; split <;> simp_all; rintro rfl; exact absurd rfl h

theorem Memory.sortedFrom_cons (low k : Nat) (v : Byte) (m : Memory) :
    Memory.sortedFrom low ((k, v) :: m) = true ↔ low ≤ k ∧ k < 2 ^ 64 ∧ Memory.sortedFrom (k + 1) m = true := by
  simp only [Memory.sortedFrom, Bool.and_eq_true, decide_eq_true_eq, and_assoc]

/-- A write keeps the canonical form. -/
theorem Memory.sortedFrom_write (m : Memory) (a : Nat) (v : Byte) (low : Nat) (ha : a < 2 ^ 64) (hl : low ≤ a)
    (h : Memory.sortedFrom low m = true) : Memory.sortedFrom low (Memory.write m a v) = true := by
  induction m generalizing low with
  | nil => exact (Memory.sortedFrom_cons _ _ _ _).mpr ⟨hl, ha, rfl⟩
  | cons c m ih =>
    obtain ⟨k, x⟩ := c
    obtain ⟨hk, hk64, hm⟩ := (Memory.sortedFrom_cons _ _ _ _).mp h
    simp only [Memory.write]
    split
    · next hlt =>
      exact (Memory.sortedFrom_cons _ _ _ _).mpr ⟨hl, ha, (Memory.sortedFrom_cons _ _ _ _).mpr ⟨hlt, hk64, hm⟩⟩
    · split
      · exact (Memory.sortedFrom_cons _ _ _ _).mpr ⟨hk, hk64, hm⟩
      · next h1 h2 => exact (Memory.sortedFrom_cons _ _ _ _).mpr ⟨hk, hk64, ih (k + 1) (by omega) hm⟩

theorem Memory.wf_write (m : Memory) (a : Nat) (v : Byte) (ha : a < 2 ^ 64) (h : Memory.wf m = true) :
    Memory.wf (Memory.write m a v) = true :=
  Memory.sortedFrom_write m a v 0 ha (Nat.zero_le _) h

/-- Canonical memories with the same listed bytes below a bound and nothing else are equal data: a byte below `low` is
not listed. -/
theorem Memory.read_lt_sortedFrom (m : Memory) (low a : Nat) (h : Memory.sortedFrom low m = true) (ha : a < low) :
    Memory.read m a = none := by
  induction m generalizing low with
  | nil => rfl
  | cons c m ih =>
    obtain ⟨k, x⟩ := c
    rw [Memory.sortedFrom_cons] at h
    have hne : a ≠ k := by omega
    simp only [Memory.read, hne, if_false]
    exact ih (k + 1) h.2.2 (by omega)

/-- Equal contents, equal data: two canonical memories that read alike are the same list. -/
theorem Memory.ext_of_wf (m n : Memory) (low : Nat) (hm : Memory.sortedFrom low m = true)
    (hn : Memory.sortedFrom low n = true) (h : ∀ a, Memory.read m a = Memory.read n a) : m = n := by
  induction m generalizing n low with
  | nil =>
    cases n with
    | nil => rfl
    | cons c n => obtain ⟨k, x⟩ := c; have := h k; simp [Memory.read] at this
  | cons c m ih =>
    obtain ⟨k, x⟩ := c
    cases n with
    | nil => have := h k; simp [Memory.read] at this
    | cons d n =>
      obtain ⟨l, y⟩ := d
      rw [Memory.sortedFrom_cons] at hm hn
      have hkl : k = l := by
        rcases Nat.lt_trichotomy k l with hlt | heq | hgt
        · have := h k
          have hne : k ≠ l := by omega
          simp only [Memory.read, if_true, hne, if_false] at this
          rw [Memory.read_lt_sortedFrom n (l + 1) k hn.2.2 (by omega)] at this
          simp at this
        · exact heq
        · have := h l
          have hne : l ≠ k := by omega
          simp only [Memory.read, if_true, hne, if_false] at this
          rw [Memory.read_lt_sortedFrom m (k + 1) l hm.2.2 (by omega)] at this
          simp at this
      subst hkl
      have hxy : x = y := by have := h k; simpa [Memory.read] using this
      subst hxy
      congr 1
      refine ih n (k + 1) hm.2.2 hn.2.2 fun a => ?_
      by_cases ha : a = k
      · subst ha
        rw [Memory.read_lt_sortedFrom m _ a hm.2.2 (by omega), Memory.read_lt_sortedFrom n _ a hn.2.2 (by omega)]
      · simpa [Memory.read, ha] using h a

/-! ## Several bytes -/

/-- What an address reads after several bytes were written from `a` up. -/
theorem Memory.read_writeBytes (m : Memory) (a b : Nat) (bs : List Byte) :
    Memory.read (Memory.writeBytes m a bs) b =
      if a ≤ b ∧ b < a + bs.length then bs[b - a]? else Memory.read m b := by
  induction bs generalizing m a with
  | nil =>
    have : ¬(a ≤ b ∧ b < a + ([] : List Byte).length) := by simp
    rw [if_neg this]; rfl
  | cons v bs ih =>
    rw [Memory.writeBytes, ih, Memory.read_write]
    simp only [List.length_cons]
    by_cases h1 : b = a
    · subst h1
      simp
    · by_cases h2 : a + 1 ≤ b ∧ b < a + 1 + bs.length
      · have h3 : a ≤ b ∧ b < a + (bs.length + 1) := by omega
        rw [if_pos h2, if_pos h3]
        have : b - a = (b - (a + 1)) + 1 := by omega
        rw [this, List.getElem?_cons_succ]
      · have h3 : ¬(a ≤ b ∧ b < a + (bs.length + 1)) := by omega
        rw [if_neg h2, if_neg h3, if_neg h1]

/-- Bytes outside the ones written read as before. -/
theorem Memory.read_writeBytes_outside (m : Memory) (a b : Nat) (bs : List Byte) (h : b < a ∨ a + bs.length ≤ b) :
    Memory.read (Memory.writeBytes m a bs) b = Memory.read m b := by
  rw [Memory.read_writeBytes, if_neg (by omega)]

theorem Memory.wf_writeBytes (m : Memory) (a : Nat) (bs : List Byte) (ha : a + bs.length ≤ 2 ^ 64)
    (h : Memory.wf m = true) : Memory.wf (Memory.writeBytes m a bs) = true := by
  induction bs generalizing m a with
  | nil => exact h
  | cons v bs ih =>
    simp only [List.length_cons] at ha
    exact ih _ _ (by omega) (Memory.wf_write m a v (by omega) h)

/-- Reading bytes never aborts; it gives them all, or the first unwritten one. -/
theorem Memory.readBytes_ok_iff (m : Memory) (a n : Nat) (bs : List Byte) :
    Memory.readBytes m a n = .ok bs ↔ bs.length = n ∧ ∀ i, i < n → Memory.read m (a + i) = bs[i]? := by
  induction n generalizing a bs with
  | zero =>
    simp only [Memory.readBytes, Access.ok.injEq]
    constructor
    · rintro rfl; simp
    · rintro ⟨h, -⟩; exact (List.length_eq_zero_iff.mp h).symm
  | succ n ih =>
    simp only [Memory.readBytes]
    constructor
    · intro h
      split at h
      · cases h
      · next b hb =>
        split at h
        · next tl htl =>
          cases h
          obtain ⟨hlen, hrd⟩ := (ih (a + 1) tl).mp htl
          refine ⟨by simp [hlen], fun i hi => ?_⟩
          cases i with
          | zero => simpa using hb
          | succ i =>
            have := hrd i (by omega)
            rw [List.getElem?_cons_succ, ← this]
            congr 1
            omega
        · cases h
        · cases h
    · rintro ⟨hlen, hrd⟩
      cases bs with
      | nil => simp at hlen
      | cons b tl =>
        have h0 := hrd 0 (by omega)
        simp only [Nat.add_zero, List.getElem?_cons_zero] at h0
        have htl : Memory.readBytes m (a + 1) n = .ok tl := by
          refine (ih (a + 1) tl).mpr ⟨by simpa using hlen, fun i hi => ?_⟩
          have := hrd (i + 1) (by omega)
          rw [List.getElem?_cons_succ] at this
          rw [← this]
          congr 1
          omega
        simp only [h0, htl]

theorem Memory.readBytes_ne_abort (m : Memory) (a n : Nat) : Memory.readBytes m a n ≠ .abort := by
  induction n generalizing a with
  | zero => simp [Memory.readBytes]
  | succ n ih =>
    simp only [Memory.readBytes]
    split
    · simp
    · split <;> simp_all

/-- A read of several bytes stops only at a byte nothing has written (R37). -/
theorem Memory.readBytes_unwritten (m : Memory) (a n u : Nat) (h : Memory.readBytes m a n = .unwritten u) :
    a ≤ u ∧ u < a + n ∧ Memory.read m u = none := by
  induction n generalizing a with
  | zero => simp [Memory.readBytes] at h
  | succ n ih =>
    simp only [Memory.readBytes] at h
    split at h
    · next hb => cases h; exact ⟨by omega, by omega, hb⟩
    · split at h
      · cases h
      · cases h
      · next u' hu =>
        cases h
        obtain ⟨h1, h2, h3⟩ := ih (a + 1) hu
        exact ⟨by omega, by omega, h3⟩

/-- The first byte nothing has written is where a read of several bytes stops (R37). -/
theorem Memory.readBytes_first_unwritten (m : Memory) (a n j : Nat) (hj : j < n)
    (h : ∀ k, k < j → (Memory.read m (a + k)).isSome = true) (hu : Memory.read m (a + j) = none) :
    Memory.readBytes m a n = .unwritten (a + j) := by
  induction n generalizing a j with
  | zero => omega
  | succ n ih =>
    cases j with
    | zero =>
      rw [Nat.add_zero] at hu
      simp only [Memory.readBytes, hu, Nat.add_zero]
    | succ j =>
      obtain ⟨b, hb⟩ := Option.isSome_iff_exists.mp (by simpa using h 0 (by omega))
      have hr : Memory.readBytes m (a + 1) n = .unwritten (a + 1 + j) := by
        refine ih (a + 1) j (by omega) (fun k hk => ?_) ?_
        · have := h (k + 1) (by omega)
          rwa [show a + (k + 1) = a + 1 + k by omega] at this
        · rwa [show a + 1 + j = a + (j + 1) by omega]
      simp only [Memory.readBytes, hb, hr]
      rw [show a + (j + 1) = a + 1 + j by omega]

/-- What was written is what is read back. -/
theorem Memory.readBytes_writeBytes (m : Memory) (a : Nat) (bs : List Byte) :
    Memory.readBytes (Memory.writeBytes m a bs) a bs.length = .ok bs := by
  refine (Memory.readBytes_ok_iff _ _ _ _).mpr ⟨rfl, fun i hi => ?_⟩
  rw [Memory.read_writeBytes, if_pos (by omega)]
  congr 1
  omega

/-! ## The marks -/

/-- All `n` bytes have the mark exactly when each has (R50). -/
theorem permitsAll_iff (map : MemMap) (k : AccessKind) (a n : Nat) :
    permitsAll map k a n = true ↔ ∀ i, i < n → permits map k (a + i) = true := by
  induction n generalizing a with
  | zero => simp [permitsAll]
  | succ n ih =>
    simp only [permitsAll, Bool.and_eq_true, ih]
    constructor
    · rintro ⟨h0, h⟩ i hi
      cases i with
      | zero => simpa using h0
      | succ i => have := h i (by omega); rwa [show a + 1 + i = a + (i + 1) by omega] at this
    · intro h
      refine ⟨by simpa using h 0 (by omega), fun i hi => ?_⟩
      have := h (i + 1) (by omega)
      rwa [show a + (i + 1) = a + 1 + i by omega] at this

/-! ## The two accesses -/

/-- What `MemRead` can do (R53). -/
theorem memRead_eq (s : State) (addr : Word) (n : Nat) :
    (s.accessible .read addr n = true ∧ memRead s addr n = s.mem.readBytes addr.toNat n) ∨
      (s.accessible .read addr n = false ∧ memRead s addr n = .abort) := by
  unfold memRead
  cases h : s.accessible .read addr n <;> simp

/-- What `MemWrite` can do (R54). -/
theorem memWrite_eq (s : State) (addr : Word) (n v : Nat) :
    (s.accessible .write addr n = true ∧
        memWrite s addr n v = some { s with mem := s.mem.writeBytes addr.toNat (beBytes n v) }) ∨
      (s.accessible .write addr n = false ∧ memWrite s addr n v = none) := by
  unfold memWrite
  cases h : s.accessible .write addr n <;> simp

/-- An accessible address is aligned and every byte has the mark (R56, R58). -/
theorem accessible_iff (s : State) (k : AccessKind) (addr : Word) (n : Nat) :
    s.accessible k addr n = true ↔
      addr.toNat % n = 0 ∧ ∀ i, i < n → permits s.cfg.memMap k (addr.toNat + i) = true := by
  simp [State.accessible, permitsAll_iff]

/-- An aligned access of 1, 2, 4 or 8 bytes ends at or below the top of the address space. -/
theorem aligned_end_le (addr : Word) (n : Nat) (hn : n = 1 ∨ n = 2 ∨ n = 4 ∨ n = 8) (h : addr.toNat % n = 0) :
    addr.toNat + n ≤ 2 ^ 64 := by
  have := addr.isLt
  rcases hn with rfl | rfl | rfl | rfl <;> omega

/-- A store that completes keeps the canonical form of memory. -/
theorem memWrite_wf (s t : State) (addr : Word) (n v : Nat) (hn : n = 1 ∨ n = 2 ∨ n = 4 ∨ n = 8)
    (hs : Memory.wf s.mem = true) (h : memWrite s addr n v = some t) : Memory.wf t.mem = true := by
  rcases memWrite_eq s addr n v with ⟨ha, he⟩ | ⟨ha, he⟩
  · rw [he] at h
    cases h
    have := aligned_end_le addr n hn ((accessible_iff _ _ _ _).mp ha).1
    exact Memory.wf_writeBytes _ _ _ (by simpa using this) hs
  · rw [he] at h; cases h

/-- `withFetchWord` and the launch keep the canonical form too: a write at an address below 2^64. -/
theorem Memory.wf_foldl_write (cells : List Host.Cell) (m : Memory) (h : Memory.wf m = true) :
    Memory.wf (cells.foldl (fun m c => Memory.write m (c.1 % 2 ^ 64) c.2) m) = true := by
  induction cells generalizing m with
  | nil => exact h
  | cons c cs ih => exact ih _ (Memory.wf_write _ _ _ (Nat.mod_lt _ (by decide)) h)

/-- Memory at reset is in canonical form: it lists nothing. -/
theorem reset_mem_wf : State.reset.mem.wf = true := rfl

end Machine

end Sys2Proof
end

