-- ==== Sys2Proof/Laws/Numerics.lean ====
section
/-! SUPPORT. Rounding (spec/41_floating_point.md R143 item 2), step by step: the ratio at a place, its binary logarithm, the
nearest even number, the value of a pattern, and the rounded magnitude. -/

namespace Sys2Proof.Machine

/-! ## The ratio, its logarithm, the nearest even number -/

theorem ratioAt_snd_pos (num den : Nat) (q : Int) (hd : 0 < den) : 0 < (ratioAt num den q).2 := by
  unfold ratioAt
  split
  · exact Nat.mul_pos hd (by positivity)
  · exact hd

/-- `ratioAt num den q` is `num / den / 2^q`. -/
theorem ratioAt_div (num den : Nat) (q : Int) (hd : 0 < den) :
    ((ratioAt num den q).1 : ℚ) / (ratioAt num den q).2 = (num / den) / (2 : ℚ) ^ q := by
  unfold ratioAt
  have hd' : (den : ℚ) ≠ 0 := by positivity
  split
  · rename_i h
    obtain ⟨n, rfl⟩ := Int.eq_ofNat_of_zero_le h
    simp [div_div]
  · rename_i h
    obtain ⟨n, hn⟩ := Int.eq_ofNat_of_zero_le (show 0 ≤ -q by omega)
    have hq : q = -(n : Int) := by omega
    subst hq
    simp only [neg_neg, Int.toNat_natCast, zpow_neg, zpow_natCast, div_inv_eq_mul]
    push_cast
    ring

/-- `2^e ≤ num / den < 2^(e+1)` for `e = ratioLog2 num den`. -/
theorem ratioLog2_spec (num den : Nat) (hn : 0 < num) (hd : 0 < den) :
    (2 : ℚ) ^ ratioLog2 num den ≤ num / den ∧ (num : ℚ) / den < (2 : ℚ) ^ (ratioLog2 num den + 1) := by
  have hd' : (0 : ℚ) < den := by exact_mod_cast hd
  have n1 : ((2 : ℚ) ^ num.log2) ≤ num := by exact_mod_cast Nat.log2_self_le (by omega)
  have n2 : (num : ℚ) < 2 ^ (num.log2 + 1) := by exact_mod_cast Nat.lt_log2_self
  have d1 : ((2 : ℚ) ^ den.log2) ≤ den := by exact_mod_cast Nat.log2_self_le (by omega)
  have d2 : (den : ℚ) < 2 ^ (den.log2 + 1) := by exact_mod_cast Nat.lt_log2_self
  have hi : (num : ℚ) / den < (2 : ℚ) ^ ((num.log2 : Int) - den.log2 + 1) := by
    rw [div_lt_iff₀ hd']
    calc (num : ℚ) < 2 ^ (num.log2 + 1) := n2
      _ = (2 : ℚ) ^ ((num.log2 : Int) - den.log2 + 1) * 2 ^ den.log2 := by
        rw [← zpow_natCast, ← zpow_natCast, ← zpow_add₀ (by norm_num)]; congr 1; push_cast; ring
      _ ≤ _ := by gcongr
  have lo : (2 : ℚ) ^ ((num.log2 : Int) - den.log2 - 1) ≤ num / den := by
    rw [le_div_iff₀ hd']
    calc (2 : ℚ) ^ ((num.log2 : Int) - den.log2 - 1) * den
        ≤ (2 : ℚ) ^ ((num.log2 : Int) - den.log2 - 1) * 2 ^ (den.log2 + 1) := by gcongr
      _ = 2 ^ num.log2 := by
        rw [← zpow_natCast, ← zpow_natCast, ← zpow_add₀ (by norm_num)]; congr 1; push_cast; ring
      _ ≤ num := n1
  have key := ratioAt_div num den ((num.log2 : Int) - den.log2) hd
  have hp := ratioAt_snd_pos num den ((num.log2 : Int) - den.log2) hd
  have hp' : (0 : ℚ) < (ratioAt num den ((num.log2 : Int) - den.log2)).2 := by exact_mod_cast hp
  have h2 : (0 : ℚ) < (2 : ℚ) ^ ((num.log2 : Int) - den.log2) := by positivity
  unfold ratioLog2
  simp only []
  split
  · rename_i h
    have : (1 : ℚ) ≤ (num / den) / (2 : ℚ) ^ ((num.log2 : Int) - den.log2) := by
      rw [← key, le_div_iff₀ hp', one_mul]; exact_mod_cast h
    rw [le_div_iff₀ h2, one_mul] at this
    exact ⟨this, hi⟩
  · rename_i h
    have : (num / den) / (2 : ℚ) ^ ((num.log2 : Int) - den.log2) < (1 : ℚ) := by
      rw [← key, div_lt_iff₀ hp', one_mul]; exact_mod_cast (Nat.lt_of_not_le h)
    rw [div_lt_iff₀ h2, one_mul] at this
    exact ⟨lo, by rwa [sub_add_cancel]⟩

/-- `nearestEven n d` is within a half of `n / d`, and even where it is a half away. -/
theorem nearestEven_spec (n d : Nat) (hd : 0 < d) :
    |(nearestEven n d : ℚ) - n / d| ≤ 1 / 2 ∧ (|(nearestEven n d : ℚ) - n / d| = 1 / 2 → nearestEven n d % 2 = 0) := by
  have hd' : (0 : ℚ) < d := by exact_mod_cast hd
  have e : (n : ℚ) = d * (n / d : Nat) + (n % d : Nat) := by exact_mod_cast (Nat.div_add_mod n d).symm
  have hv : (n : ℚ) / d = (n / d : Nat) + (n % d : Nat) / d := by
    rw [div_eq_iff (ne_of_gt hd'), add_mul, div_mul_cancel₀ _ (ne_of_gt hd')]; linarith
  have h0 : (0 : ℚ) ≤ ((n % d : Nat) : ℚ) / d := by positivity
  have h1 : ((n % d : Nat) : ℚ) / d < 1 := by rw [div_lt_iff₀ hd', one_mul]; exact_mod_cast Nat.mod_lt _ hd
  rw [hv]
  unfold nearestEven
  simp only []
  split
  · rename_i h
    have : ((n % d : Nat) : ℚ) / d < 1 / 2 := by
      rw [div_lt_iff₀ hd']; have : (2 * (n % d : Nat) : ℚ) < d := by exact_mod_cast h
      linarith
    rw [sub_add_cancel_left, abs_neg, abs_of_nonneg h0]
    exact ⟨this.le, fun he => absurd he this.ne⟩
  split
  · rename_i h
    have : 1 / 2 < ((n % d : Nat) : ℚ) / d := by
      rw [lt_div_iff₀ hd']; have : (d : ℚ) < 2 * (n % d : Nat) := by exact_mod_cast h
      linarith
    push_cast
    rw [add_sub_add_left_eq_sub, abs_of_pos (by linarith)]
    exact ⟨by linarith, fun he => by linarith⟩
  · rename_i h h'
    have : ((n % d : Nat) : ℚ) / d = 1 / 2 := by
      rw [div_eq_iff (ne_of_gt hd')]; have : (2 * (n % d : Nat) : ℚ) = d := by exact_mod_cast (show 2 * (n % d) = d by omega)
      linarith
    split
    · rename_i hm
      rw [sub_add_cancel_left, abs_neg, this]
      exact ⟨by norm_num, fun _ => hm⟩
    · rename_i hm
      push_cast
      rw [add_sub_add_left_eq_sub, this]
      exact ⟨by norm_num, fun _ => by omega⟩

/-- No integer is nearer to `n / d` than `nearestEven n d`, and where another is as near it is even. -/
theorem nearestEven_nearest (n d : Nat) (hd : 0 < d) (j : Int) :
    |(nearestEven n d : ℚ) - n / d| ≤ |(j : ℚ) - n / d| ∧
      (|(j : ℚ) - n / d| = |(nearestEven n d : ℚ) - n / d| → j = nearestEven n d ∨ nearestEven n d % 2 = 0) := by
  obtain ⟨h1, h2⟩ := nearestEven_spec n d hd
  by_cases hj : j = nearestEven n d
  · subst hj; exact ⟨le_rfl, fun _ => .inl rfl⟩
  · have far : (1 : ℚ) ≤ |(j : ℚ) - nearestEven n d| := by
      have : (1 : Int) ≤ |j - nearestEven n d| := Int.one_le_abs (sub_ne_zero.mpr hj)
      exact_mod_cast this
    have tri : |(j : ℚ) - nearestEven n d| ≤ |(j : ℚ) - n / d| + |(nearestEven n d : ℚ) - n / d| := by
      rw [abs_sub_comm (nearestEven n d : ℚ)]; exact abs_sub_le _ _ _
    exact ⟨by linarith, fun he => .inr (h2 (by linarith))⟩

/-- A ratio that is an integer is its own nearest integer, and no other ratio is. -/
theorem nearestEven_eq_iff (n d : Nat) (hd : 0 < d) : (nearestEven n d : ℚ) = n / d ↔ n % d = 0 := by
  have hd' : (d : ℚ) ≠ 0 := by positivity
  constructor
  · intro h
    rw [eq_div_iff hd'] at h
    have h' : nearestEven n d * d = n := by exact_mod_cast h
    rw [← h']; exact Nat.mul_mod_left _ _
  · intro h
    obtain ⟨m, rfl⟩ := Nat.dvd_of_mod_eq_zero h
    have : nearestEven (d * m) d = m := by unfold nearestEven; simp [hd]
    rw [this]; push_cast; field_simp

/-- Below an even integer `p` the nearest integer is `p` from a half below it on. -/
theorem nearest_eq_even_iff (n p : Nat) (r : ℚ) (hp : p % 2 = 0) (half : |(n : ℚ) - r| ≤ 1 / 2)
    (tie : |(n : ℚ) - r| = 1 / 2 → n % 2 = 0) : p ≤ n ↔ (p : ℚ) - 1 / 2 ≤ r := by
  have ab := abs_le.mp half
  constructor
  · intro hh
    have : (p : ℚ) ≤ n := by exact_mod_cast hh
    linarith
  · intro hh
    by_contra hc
    have hcq : (n : ℚ) + 1 ≤ p := by exact_mod_cast (show n + 1 ≤ p by omega)
    have e1 : r = n + 1 / 2 := by linarith
    have ev := tie (by rw [e1, sub_add_cancel_left, abs_neg, abs_of_pos (by norm_num)])
    have e3 : n + 1 = p := by exact_mod_cast (show (n : ℚ) + 1 = p by linarith)
    omega

/-! ## The value of a pattern -/

/-- The magnitude of a pattern with exponent and fraction fields `mag`, counted in the least denormalised number (R141). -/
def fpUnits (f : FpFormat) (mag : Nat) : Nat :=
  if mag < 2 ^ f.fracBits then mag else (2 ^ f.fracBits + mag % 2 ^ f.fracBits) * 2 ^ (mag / 2 ^ f.fracBits - 1)

/-- The value of a finite pattern is its signed count of units of the least denormalised number. -/
theorem fpValue_eq_units (f : FpFormat) (bits : Nat) :
    fpValue f bits = (if fpSign f bits then -1 else 1) * (fpUnits f (bits % 2 ^ (f.expBits + f.fracBits)) : ℚ) *
      (2 : ℚ) ^ fpMinExp f := by
  have hp : (0 : Nat) < 2 ^ f.fracBits := by positivity
  have he : fpExponent f bits = bits % 2 ^ (f.expBits + f.fracBits) / 2 ^ f.fracBits := by
    unfold fpExponent
    rw [add_comm f.expBits, pow_add, Nat.mod_mul_right_div_self]
  have hm : fpFraction f bits = bits % 2 ^ (f.expBits + f.fracBits) % 2 ^ f.fracBits := by
    unfold fpFraction
    rw [add_comm f.expBits, pow_add, Nat.mod_mul_right_mod]
  unfold fpValue fpUnits
  rw [he, hm]
  generalize bits % 2 ^ (f.expBits + f.fracBits) = mag
  have hpq : ((2 : ℚ) ^ f.fracBits) ≠ 0 := by positivity
  have hz : (2 : ℚ) ^ fpMinExp f = (2 : ℚ) ^ (1 - fpBias f : ℤ) / 2 ^ f.fracBits := by
    unfold fpMinExp; rw [zpow_sub₀ (by norm_num), zpow_natCast]
  simp only []
  by_cases h : mag < 2 ^ f.fracBits
  · rw [if_pos (Nat.div_eq_of_lt h), if_pos h, Nat.mod_eq_of_lt h, hz]
    split <;> field_simp
  · have h1 : 1 ≤ mag / 2 ^ f.fracBits := (Nat.one_le_div_iff hp).mpr (by omega)
    rw [if_neg (by omega), if_neg h, hz]
    obtain ⟨k, hk⟩ : ∃ k, mag / 2 ^ f.fracBits = k + 1 := ⟨mag / 2 ^ f.fracBits - 1, by omega⟩
    rw [hk]
    have : (2 : ℚ) ^ (((k + 1 : Nat) : ℤ) - fpBias f) = 2 ^ k * (2 : ℚ) ^ (1 - fpBias f : ℤ) := by
      rw [← zpow_natCast, ← zpow_add₀ (by norm_num)]; congr 1; push_cast; ring
    rw [this]
    push_cast
    split <;> field_simp

/-- The fields of the number of `n` units of `2^k`, where `n` has its leading bit in place. -/
theorem fpUnits_scaled (f : FpFormat) (k n : Nat) (hn : n ≤ 2 ^ (f.fracBits + 1)) (hk : k = 0 ∨ 2 ^ f.fracBits ≤ n) :
    fpUnits f (k * 2 ^ f.fracBits + n) = n * 2 ^ k := by
  have hp : (0 : Nat) < 2 ^ f.fracBits := by positivity
  unfold fpUnits
  by_cases h1 : n < 2 ^ f.fracBits
  · have : k = 0 := by omega
    subst this
    simp [h1]
  · rw [pow_succ] at hn
    have hge : ¬k * 2 ^ f.fracBits + n < 2 ^ f.fracBits := by
      have := Nat.zero_le (k * 2 ^ f.fracBits); omega
    rw [if_neg hge]
    by_cases h2 : n = 2 ^ f.fracBits * 2
    · subst h2
      rw [show k * 2 ^ f.fracBits + 2 ^ f.fracBits * 2 = (k + 2) * 2 ^ f.fracBits by ring, Nat.mul_mod_left,
        Nat.mul_div_cancel _ hp, show k + 2 - 1 = k + 1 by omega]
      ring
    · obtain ⟨m, rfl⟩ : ∃ m, n = 2 ^ f.fracBits + m := ⟨n - 2 ^ f.fracBits, by omega⟩
      have hm : m < 2 ^ f.fracBits := by omega
      rw [show k * 2 ^ f.fracBits + (2 ^ f.fracBits + m) = m + 2 ^ f.fracBits * (k + 1) by ring, Nat.add_mul_mod_self_left,
        Nat.mod_eq_of_lt hm, Nat.add_mul_div_left _ _ hp, Nat.div_eq_of_lt hm]
      simp

/-- A count of units is a multiple of `2^k`, or below the numbers whose last place is `2^k`. -/
theorem fpUnits_multiple (f : FpFormat) (k mag : Nat) : 2 ^ k ∣ fpUnits f mag ∨ fpUnits f mag < 2 ^ f.fracBits * 2 ^ k := by
  have hp : (0 : Nat) < 2 ^ f.fracBits := by positivity
  unfold fpUnits
  split
  · right; exact lt_of_lt_of_le ‹_› (Nat.le_mul_of_pos_right _ (by positivity))
  · by_cases h : k ≤ mag / 2 ^ f.fracBits - 1
    · left; exact Dvd.dvd.mul_left (pow_dvd_pow 2 h) _
    · right
      have hm := Nat.mod_lt mag hp
      calc (2 ^ f.fracBits + mag % 2 ^ f.fracBits) * 2 ^ (mag / 2 ^ f.fracBits - 1)
          < (2 ^ f.fracBits * 2) * 2 ^ (mag / 2 ^ f.fracBits - 1) := by
            apply Nat.mul_lt_mul_of_pos_right (by omega) (by positivity)
        _ = 2 ^ f.fracBits * 2 ^ (mag / 2 ^ f.fracBits - 1 + 1) := by ring
        _ ≤ 2 ^ f.fracBits * 2 ^ k := by gcongr <;> omega

/-! ## The rounded magnitude -/

/-- The scale `k` and the rounded integer `n` of a magnitude `x`, counted in `2^(fpMinExp + k)`: what `roundRatio` packs. -/
theorem rounding_parts (f : FpFormat) (num den : Nat) (hn : 0 < num) (hd : 0 < den) :
    ∃ k n : Nat, ((roundingPlace f num den - fpMinExp f).toNat = k ∧
        nearestEven (ratioAt num den (roundingPlace f num den)).1 (ratioAt num den (roundingPlace f num den)).2 = n) ∧
      (∃ r : ℚ, r = (ratioAt num den (roundingPlace f num den)).1 / (ratioAt num den (roundingPlace f num den)).2 ∧
        (num : ℚ) / den = r * 2 ^ k * (2 : ℚ) ^ fpMinExp f ∧ r < 2 ^ (f.fracBits + 1) ∧
        (k = 0 ∨ 2 ^ f.fracBits ≤ r) ∧ |(n : ℚ) - r| ≤ 1 / 2 ∧ (|(n : ℚ) - r| = 1 / 2 → n % 2 = 0) ∧
        ∀ j : Int, |(n : ℚ) - r| ≤ |(j : ℚ) - r| ∧ (|(j : ℚ) - r| = |(n : ℚ) - r| → j = n ∨ n % 2 = 0)) ∧
      n ≤ 2 ^ (f.fracBits + 1) ∧ (k = 0 ∨ 2 ^ f.fracBits ≤ n) := by
  have hq : roundingPlace f num den = max (ratioLog2 num den - f.fracBits) (fpMinExp f) := rfl
  generalize roundingPlace f num den = q at *
  obtain ⟨lo, hi⟩ := ratioLog2_spec num den hn hd
  generalize ratioLog2 num den = e at *
  have hp := ratioAt_snd_pos num den q hd
  have hr := ratioAt_div num den q hd
  have near := nearestEven_nearest (ratioAt num den q).1 (ratioAt num den q).2 hp
  have half := nearestEven_spec (ratioAt num den q).1 (ratioAt num den q).2 hp
  rw [hr] at near half
  generalize nearestEven (ratioAt num den q).1 (ratioAt num den q).2 = n at *
  have hpos : (0 : ℚ) < (2 : ℚ) ^ q := by positivity
  have hlt : (num : ℚ) / den / (2 : ℚ) ^ q < 2 ^ (f.fracBits + 1) := by
    rw [div_lt_iff₀ hpos, ← zpow_natCast, ← zpow_add₀ (by norm_num)]
    refine lt_of_lt_of_le hi (zpow_le_zpow_right₀ (by norm_num) ?_)
    push_cast; omega
  have hk : (q - fpMinExp f).toNat = 0 ∨ 2 ^ f.fracBits ≤ (num : ℚ) / den / (2 : ℚ) ^ q := by
    by_cases h : q = fpMinExp f
    · left; omega
    · right
      rw [le_div_iff₀ hpos, ← zpow_natCast, ← zpow_add₀ (by norm_num)]
      refine le_trans (zpow_le_zpow_right₀ (by norm_num) ?_) lo
      omega
  have ab := abs_le.mp half.1
  refine ⟨_, n, ⟨rfl, rfl⟩, ⟨num / den / (2 : ℚ) ^ q, hr.symm, ?_, hlt, hk, half.1, half.2, near⟩, ?_, ?_⟩
  · rw [mul_assoc, ← zpow_natCast, ← zpow_add₀ (by norm_num), show ((q - fpMinExp f).toNat : ℤ) + fpMinExp f = q by omega,
      div_mul_cancel₀ _ (ne_of_gt hpos)]
  · have h : (n : ℚ) < 2 ^ (f.fracBits + 1) + 1 := by linarith [ab.2]
    have : n < 2 ^ (f.fracBits + 1) + 1 := by exact_mod_cast h
    omega
  · rcases hk with hk | hk
    · exact .inl hk
    · right
      have h : (2 : ℚ) ^ f.fracBits < n + 1 := by linarith [ab.1]
      have : 2 ^ f.fracBits < n + 1 := by exact_mod_cast h
      omega

/-- Among the numbers of the format (and those beyond its largest), no count of units is nearer to `x` than the rounded one. -/
theorem units_nearest (f : FpFormat) (k n : Nat) (r : ℚ) (hr : k = 0 ∨ 2 ^ f.fracBits ≤ r)
    (near : ∀ j : Int, |(n : ℚ) - r| ≤ |(j : ℚ) - r| ∧ (|(j : ℚ) - r| = |(n : ℚ) - r| → j = n ∨ n % 2 = 0))
    (s : Int) (hs : (2 ^ k : Int) ∣ s ∨ s < 2 ^ f.fracBits * 2 ^ k) :
    |(n * 2 ^ k : ℚ) - r * 2 ^ k| ≤ |(s : ℚ) - r * 2 ^ k| ∧
      (|(s : ℚ) - r * 2 ^ k| = |(n * 2 ^ k : ℚ) - r * 2 ^ k| → s = n * 2 ^ k ∨ n % 2 = 0) := by
  have hp : (0 : ℚ) < 2 ^ k := by positivity
  have hn : |(n * 2 ^ k : ℚ) - r * 2 ^ k| = |(n : ℚ) - r| * 2 ^ k := by
    rw [← sub_mul, abs_mul, abs_of_pos hp]
  rw [hn]
  by_cases hd : (2 ^ k : Int) ∣ s
  · obtain ⟨j, rfl⟩ := hd
    have hj : |((2 ^ k * j : Int) : ℚ) - r * 2 ^ k| = |(j : ℚ) - r| * 2 ^ k := by
      push_cast; rw [mul_comm ((2 : ℚ) ^ k), ← sub_mul, abs_mul, abs_of_pos hp]
    rw [hj]
    refine ⟨mul_le_mul_of_nonneg_right (near j).1 hp.le, fun h => ?_⟩
    rcases (near j).2 (mul_right_cancel₀ (ne_of_gt hp) h) with h | h
    · left; rw [h]; ring
    · exact .inr h
  · have hs' : s < 2 ^ f.fracBits * 2 ^ k := hs.resolve_left hd
    have hk : k ≠ 0 := by rintro rfl; exact hd (by simp)
    have hr' := hr.resolve_left hk
    have hsq : (s : ℚ) < 2 ^ f.fracBits * 2 ^ k := by exact_mod_cast hs'
    have h1 : (2 : ℚ) ^ f.fracBits * 2 ^ k ≤ r * 2 ^ k := by gcongr
    have far : |(s : ℚ) - r * 2 ^ k| = r * 2 ^ k - s := by rw [abs_of_neg (by linarith)]; ring
    have close : |(n : ℚ) - r| * 2 ^ k ≤ (r - 2 ^ f.fracBits) * 2 ^ k := by
      refine mul_le_mul_of_nonneg_right ?_ hp.le
      have := (near ((2 ^ f.fracBits : Nat) : Int)).1
      push_cast at this
      rwa [abs_of_nonpos (show (2 : ℚ) ^ f.fracBits - r ≤ 0 by linarith), neg_sub] at this
    rw [far]
    have : (r - 2 ^ f.fracBits) * 2 ^ k < r * 2 ^ k - s := by linarith
    exact ⟨by linarith, fun h => by linarith⟩

/-- The widths a format needs for its fields to make sense; single and double precision have them. -/
structure FpFormat.Sound (f : FpFormat) : Prop where
  frac : 1 ≤ f.fracBits
  bias : f.fracBits + 1 ≤ fpBias f
  max : fpMax f = 2 * fpBias f + 1
  width : fpMax f < 2 ^ f.expBits

theorem FpFormat.single_sound : FpFormat.single.Sound := ⟨by decide, by decide, by decide, by decide⟩
theorem FpFormat.double_sound : FpFormat.double.Sound := ⟨by decide, by decide, by decide, by decide⟩

/-- The rounded magnitude is too large for the format exactly from half a last place above the largest finite number on. -/
theorem overflow_iff (f : FpFormat) (hf : f.Sound) (k n : Nat) (r : ℚ) (hlt : r < 2 ^ (f.fracBits + 1))
    (hr : k = 0 ∨ 2 ^ f.fracBits ≤ r) (half : |(n : ℚ) - r| ≤ 1 / 2) (tie : |(n : ℚ) - r| = 1 / 2 → n % 2 = 0)
    (hn : n ≤ 2 ^ (f.fracBits + 1)) (hk : k = 0 ∨ 2 ^ f.fracBits ≤ n) :
    fpInfMag f ≤ k * 2 ^ f.fracBits + n ↔
      (2 : ℚ) ^ (fpBias f + 1) - 2 ^ (fpBias f - f.fracBits - 1) ≤ r * 2 ^ k * (2 : ℚ) ^ fpMinExp f := by
  obtain ⟨h1, h2, h3, _⟩ := hf
  have hu : (0 : ℚ) < (2 : ℚ) ^ fpMinExp f := by positivity
  have eT : (2 : ℚ) ^ (fpBias f + 1) - 2 ^ (fpBias f - f.fracBits - 1) =
      ((2 : ℚ) ^ (f.fracBits + 1) - 1 / 2) * 2 ^ (2 * fpBias f - 1) * (2 : ℚ) ^ fpMinExp f := by
    have a : (2 : ℚ) ^ (f.fracBits + 1) * 2 ^ (2 * fpBias f - 1) * (2 : ℚ) ^ fpMinExp f = 2 ^ (fpBias f + 1) := by
      rw [← zpow_natCast, ← zpow_natCast, ← zpow_natCast, ← zpow_add₀ (by norm_num), ← zpow_add₀ (by norm_num)]
      congr 1; unfold fpMinExp; omega
    have b : (1 / 2 : ℚ) * 2 ^ (2 * fpBias f - 1) * (2 : ℚ) ^ fpMinExp f = 2 ^ (fpBias f - f.fracBits - 1) := by
      rw [show (1 / 2 : ℚ) = (2 : ℚ) ^ (-1 : ℤ) by norm_num, ← zpow_natCast, ← zpow_natCast, ← zpow_add₀ (by norm_num),
        ← zpow_add₀ (by norm_num)]
      congr 1; unfold fpMinExp; omega
    rw [← a, ← b]; ring
  rw [eT, mul_le_mul_iff_of_pos_right hu]
  have hI : fpInfMag f = (2 * fpBias f - 1 + 2) * 2 ^ f.fracBits := by
    unfold fpInfMag; rw [h3, show 2 * fpBias f + 1 = 2 * fpBias f - 1 + 2 by omega]
  rw [hI]
  generalize 2 * fpBias f - 1 = K
  have hp : 1 ≤ 2 ^ f.fracBits := Nat.one_le_two_pow
  have hpq : (1 : ℚ) ≤ 2 ^ f.fracBits := by exact_mod_cast hp
  have hK : (0 : ℚ) < 2 ^ K := by positivity
  have ps : (2 : ℚ) ^ (f.fracBits + 1) = 2 * 2 ^ f.fracBits := by ring
  have psn : 2 ^ (f.fracBits + 1) = 2 * 2 ^ f.fracBits := by ring
  have ab := abs_le.mp half
  rcases lt_trichotomy k K with h | h | h
  · constructor
    · intro hh
      exfalso
      have : (k + 3) * 2 ^ f.fracBits ≤ (K + 2) * 2 ^ f.fracBits := Nat.mul_le_mul_right _ (by omega)
      have e1 : (k + 3) * 2 ^ f.fracBits = k * 2 ^ f.fracBits + 3 * 2 ^ f.fracBits := by ring
      omega
    · intro hh
      exfalso
      have h2k : (2 : ℚ) ^ k * 2 ≤ 2 ^ K := by rw [← pow_succ]; exact pow_le_pow_right₀ (by norm_num) h
      have h0 : (0 : ℚ) < 2 ^ k := by positivity
      have l1 : r * 2 ^ k < 2 * 2 ^ f.fracBits * 2 ^ k := by rw [← ps]; gcongr
      have l2 : 2 * 2 ^ f.fracBits * 2 ^ k ≤ 2 ^ f.fracBits * (2 : ℚ) ^ K := by
        calc 2 * 2 ^ f.fracBits * (2 : ℚ) ^ k = 2 ^ f.fracBits * (2 ^ k * 2) := by ring
          _ ≤ _ := by gcongr
      have l3 : 2 ^ f.fracBits * (2 : ℚ) ^ K ≤ (2 ^ (f.fracBits + 1) - 1 / 2) * 2 ^ K := by
        apply mul_le_mul_of_nonneg_right _ hK.le
        rw [ps]; linarith
      linarith
  · subst h
    rw [mul_le_mul_iff_of_pos_right hK, Nat.add_mul, Nat.add_le_add_iff_left]
    have := nearest_eq_even_iff n (2 ^ (f.fracBits + 1)) r (by omega) half tie
    rw [← psn, this]
    push_cast
    rfl
  · have hk0 : k ≠ 0 := by omega
    have hn' := hk.resolve_left hk0
    have hr' := hr.resolve_left hk0
    constructor
    · intro _
      have h2k : (2 : ℚ) ^ K * 2 ≤ 2 ^ k := by rw [← pow_succ]; exact pow_le_pow_right₀ (by norm_num) h
      calc ((2 : ℚ) ^ (f.fracBits + 1) - 1 / 2) * 2 ^ K ≤ 2 ^ (f.fracBits + 1) * 2 ^ K := by
            apply mul_le_mul_of_nonneg_right _ hK.le; linarith
        _ = 2 ^ f.fracBits * (2 ^ K * 2) := by ring
        _ ≤ r * 2 ^ k := mul_le_mul hr' h2k (by positivity) (by linarith)
    · intro _
      have : (K + 1) * 2 ^ f.fracBits ≤ k * 2 ^ f.fracBits := Nat.mul_le_mul_right _ (by omega)
      have e1 : (K + 2) * 2 ^ f.fracBits = (K + 1) * 2 ^ f.fracBits + 2 ^ f.fracBits := by ring
      omega

/-! ## Packed patterns -/

theorem fpExponent_eq (f : FpFormat) (bits : Nat) :
    fpExponent f bits = bits % 2 ^ (f.expBits + f.fracBits) / 2 ^ f.fracBits := by
  unfold fpExponent
  rw [add_comm f.expBits, pow_add, Nat.mod_mul_right_div_self]

theorem fpPack_mod (f : FpFormat) (neg : Bool) (mag : Nat) (h : mag < 2 ^ (f.expBits + f.fracBits)) :
    fpPack f neg mag % 2 ^ (f.expBits + f.fracBits) = mag := by
  unfold fpPack; rw [Nat.mul_add_mod_self_right, Nat.mod_eq_of_lt h]

theorem fpSign_pack (f : FpFormat) (neg : Bool) (mag : Nat) (h : mag < 2 ^ (f.expBits + f.fracBits)) :
    fpSign f (fpPack f neg mag) = neg := by
  unfold fpSign fpPack
  rw [Nat.add_comm, Nat.add_mul_div_right _ _ (by positivity), Nat.div_eq_of_lt h]
  cases neg <;> rfl

theorem fpExponent_pack (f : FpFormat) (neg : Bool) (mag : Nat) (h : mag < 2 ^ (f.expBits + f.fracBits)) :
    fpExponent f (fpPack f neg mag) = mag / 2 ^ f.fracBits := by rw [fpExponent_eq, fpPack_mod f neg mag h]

theorem fpValue_pack (f : FpFormat) (neg : Bool) (mag : Nat) (h : mag < 2 ^ (f.expBits + f.fracBits)) :
    fpValue f (fpPack f neg mag) = (if neg then -1 else 1) * (fpUnits f mag : ℚ) * (2 : ℚ) ^ fpMinExp f := by
  rw [fpValue_eq_units, fpSign_pack f neg mag h, fpPack_mod f neg mag h]

theorem fpPack_lt (f : FpFormat) (neg : Bool) (mag : Nat) (h : mag < 2 ^ (f.expBits + f.fracBits)) :
    fpPack f neg mag < 2 ^ (1 + f.expBits + f.fracBits) := by
  unfold fpPack
  rw [show 1 + f.expBits + f.fracBits = (f.expBits + f.fracBits) + 1 by ring, pow_succ]
  cases neg <;> simp <;> omega

/-- `roundRatio` rounds the signed magnitude correctly (R143 item 2). -/
theorem roundRatio_correct (f : FpFormat) (hf : f.Sound) (t : Tininess) (neg : Bool) (num den : Nat) (hn : 0 < num)
    (hd : 0 < den) :
    ∃ b, (roundRatio f t neg num den).bits = some b ∧
      CorrectlyRounded f ((if neg then -1 else 1) * ((num : ℚ) / den)) b := by
  obtain ⟨k, n, ⟨ek, en⟩, ⟨r, _, hx, hlt, hr, half, tie, near⟩, hn2, hk⟩ := rounding_parts f num den hn hd
  have hxpos : (0 : ℚ) < num / den := by positivity
  have habs : |(if neg then -1 else 1) * ((num : ℚ) / den)| = num / den := by
    cases neg <;> simp [abs_of_pos hxpos]
  have ov : fpInfMag f ≤ k * 2 ^ f.fracBits + n ↔ fpTooLarge f ((if neg then -1 else 1) * ((num : ℚ) / den)) := by
    rw [overflow_iff f hf k n r hlt hr half tie hn2 hk, ← hx, fpTooLarge, habs]
  have hneg : decide ((if neg then -1 else 1) * ((num : ℚ) / den) < 0) = neg := by
    cases neg
    · simpa using hxpos.le
    · simpa using hxpos
  unfold roundRatio CorrectlyRounded
  simp only [ek, en, hneg]
  by_cases h : fpInfMag f ≤ k * 2 ^ f.fracBits + n
  · rw [if_pos h]
    refine ⟨_, rfl, ?_⟩
    rw [if_pos (ov.mp h)]
  · rw [if_neg h]
    refine ⟨_, rfl, ?_⟩
    rw [if_neg (fun hh => h (ov.mpr hh))]
    have hmag : k * 2 ^ f.fracBits + n < fpMax f * 2 ^ f.fracBits := Nat.lt_of_not_le h
    have hw : k * 2 ^ f.fracBits + n < 2 ^ (f.expBits + f.fracBits) := by
      rw [pow_add]
      exact lt_trans hmag (Nat.mul_lt_mul_of_pos_right hf.width (by positivity))
    refine ⟨fpPack_lt f neg _ hw, ?_, ?_⟩
    · unfold fpFinite
      rw [fpExponent_pack f neg _ hw]
      exact ne_of_lt (Nat.div_lt_of_lt_mul (by rw [Nat.mul_comm _ (fpMax f)]; exact hmag))
    · intro c _ _
      rw [fpValue_pack f neg _ hw, fpUnits_scaled f k n hn2 hk, fpValue_eq_units f c, hx]
      have hm := fpUnits_multiple f k (c % 2 ^ (f.expBits + f.fracBits))
      generalize fpUnits f (c % 2 ^ (f.expBits + f.fracBits)) = u at *
      have hz : (0 : ℚ) < (2 : ℚ) ^ fpMinExp f := by positivity
      -- the other number in units, seen with the sign of the result
      obtain ⟨s, hs, hdiv⟩ : ∃ s : Int, ((if fpSign f c then -1 else 1) * (u : ℚ) = (if neg then -1 else 1) * (s : ℚ)) ∧
          ((2 ^ k : Int) ∣ s ∨ s < 2 ^ f.fracBits * 2 ^ k) := by
        have pos : (2 ^ k : Int) ∣ (u : Int) ∨ (u : Int) < 2 ^ f.fracBits * 2 ^ k :=
          hm.imp (fun h => by exact_mod_cast h) (fun h => by exact_mod_cast h)
        have nonpos : (2 ^ k : Int) ∣ (-u : Int) ∨ (-u : Int) < 2 ^ f.fracBits * 2 ^ k := by
          right
          have : (0 : Int) < 2 ^ f.fracBits * 2 ^ k := by positivity
          omega
        cases fpSign f c <;> cases neg
        · exact ⟨u, by simp, pos⟩
        · exact ⟨-u, by simp, nonpos⟩
        · exact ⟨-u, by simp, nonpos⟩
        · exact ⟨u, by simp, pos⟩
      obtain ⟨h1, h2⟩ := units_nearest f k n r hr near s hdiv
      have dist (y : ℚ) : |(if neg then -1 else 1) * y * (2 : ℚ) ^ fpMinExp f -
          (if neg then -1 else 1) * (r * 2 ^ k * (2 : ℚ) ^ fpMinExp f)| = |y - r * 2 ^ k| * (2 : ℚ) ^ fpMinExp f := by
        rw [mul_assoc, ← mul_sub, ← sub_mul, abs_mul, abs_mul, abs_of_pos hz]
        cases neg <;> simp
      rw [hs, dist, dist]
      push_cast
      refine ⟨mul_le_mul_of_nonneg_right h1 hz.le, fun ht hne => ?_⟩
      rcases h2 (mul_right_cancel₀ (ne_of_gt hz) ht) with h | h
      · exact absurd (by rw [h]; push_cast; ring) hne
      · unfold fpPack
        obtain ⟨a, ha⟩ : ∃ a, 2 ^ f.fracBits = 2 * a := ⟨2 ^ (f.fracBits - 1), by
          rw [← pow_succ', Nat.sub_add_cancel hf.frac]⟩
        have e1 : neg.toNat * 2 ^ (f.expBits + f.fracBits) = 2 * (neg.toNat * 2 ^ f.expBits * a) := by
          rw [pow_add, ha]; ring
        have e2 : k * 2 ^ f.fracBits = 2 * (k * a) := by rw [ha]; ring
        rw [e1, e2]
        omega

/-! ## What rounding signals -/

/-- The magnitude of a signed magnitude. -/
theorem abs_signed (neg : Bool) (x : ℚ) (hx : 0 < x) : |(if neg then -1 else 1) * x| = x := by
  cases neg <;> simp [abs_of_pos hx]

/-- `fpTiny` says whether the magnitude is tiny (log 14). -/
theorem fpTiny_iff (f : FpFormat) (t : Tininess) (neg : Bool) (num den : Nat) (hn : 0 < num) (hd : 0 < den) :
    fpTiny f t num den = true ↔ Tiny f t ((if neg then -1 else 1) * ((num : ℚ) / den)) := by
  have hx : (0 : ℚ) < num / den := by positivity
  have hne : (if neg then -1 else 1) * ((num : ℚ) / den) ≠ 0 := by rw [← abs_pos, abs_signed neg _ hx]; exact hx
  obtain ⟨lo, hi⟩ := ratioLog2_spec num den hn hd
  unfold fpTiny Tiny
  simp only [hne, ne_eq, not_false_eq_true, true_and, abs_signed neg _ hx]
  generalize ratioLog2 num den = e at *
  generalize hl : (1 - fpBias f : ℤ) = least
  have least_le (h : least ≤ e) : (2 : ℚ) ^ least ≤ num / den := le_trans (zpow_le_zpow_right₀ (by norm_num) h) lo
  cases t with
  | beforeRounding =>
    rw [decide_eq_true_iff]
    refine ⟨fun h => lt_of_lt_of_le hi (zpow_le_zpow_right₀ (by norm_num) (by omega)), fun h => ?_⟩
    by_contra hc
    exact absurd (least_le (by omega)) (not_le.mpr h)
  | afterRounding =>
    have hq : (0 : ℚ) < (2 : ℚ) ^ (least - f.fracBits - 2) := by positivity
    have hp := ratioAt_snd_pos num den (e - f.fracBits) hd
    have hv := ratioAt_div num den (e - f.fracBits) hd
    obtain ⟨half, tie⟩ := nearestEven_spec (ratioAt num den (e - f.fracBits)).1 (ratioAt num den (e - f.fracBits)).2 hp
    rw [hv] at half tie
    simp only []
    generalize nearestEven (ratioAt num den (e - f.fracBits)).1 (ratioAt num den (e - f.fracBits)).2 = m at *
    rcases lt_trichotomy (e + 1) least with h | h | h
    · have : (2 : ℚ) ^ (e + 1) ≤ (2 : ℚ) ^ least - (2 : ℚ) ^ (least - f.fracBits - 2) := by
        have a : (2 : ℚ) ^ (e + 1) ≤ (2 : ℚ) ^ (least - 1) := zpow_le_zpow_right₀ (by norm_num) (by omega)
        have b : (2 : ℚ) ^ (least - f.fracBits - 2) ≤ (2 : ℚ) ^ (least - 1) :=
          zpow_le_zpow_right₀ (by norm_num) (by omega)
        have c : (2 : ℚ) ^ least = (2 : ℚ) ^ (least - 1) * 2 := by rw [← zpow_add_one₀ (by norm_num)]; congr 1; omega
        linarith
      have h1 : e < least := by omega
      have h2 : ¬e + 1 = least := by omega
      simp only [h1, h2, decide_true, decide_false, Bool.false_and, Bool.not_false, Bool.and_true, true_iff]
      exact lt_of_lt_of_le hi this
    · subst h
      have hpos : (0 : ℚ) < (2 : ℚ) ^ (e - f.fracBits : ℤ) := by positivity
      have r2 : (num : ℚ) / den / (2 : ℚ) ^ (e - f.fracBits : ℤ) < (2 ^ (f.fracBits + 1) : Nat) := by
        rw [div_lt_iff₀ hpos]
        push_cast
        rw [← zpow_natCast, ← zpow_add₀ (by norm_num)]
        refine lt_of_lt_of_le hi (le_of_eq (by congr 1; push_cast; ring))
      have hm : m ≤ 2 ^ (f.fracBits + 1) := by
        have h : (m : ℚ) < (2 ^ (f.fracBits + 1) : Nat) + 1 := by linarith [(abs_le.mp half).2]
        have : m < 2 ^ (f.fracBits + 1) + 1 := by exact_mod_cast h
        omega
      have top := nearest_eq_even_iff m (2 ^ (f.fracBits + 1)) _ (by rw [pow_succ]; omega) half tie
      have h1 : e < e + 1 := by omega
      simp only [h1, decide_true, Bool.true_and, Bool.not_eq_true', beq_eq_false_iff_ne, ne_eq]
      have e1 : (m ≠ 2 ^ (f.fracBits + 1)) ↔ ¬(2 ^ (f.fracBits + 1) ≤ m) := by omega
      rw [← ne_eq, e1, top, not_le, div_lt_iff₀ hpos]
      have e2 : ((2 ^ (f.fracBits + 1) : Nat) - 1 / 2 : ℚ) * (2 : ℚ) ^ (e - f.fracBits : ℤ) =
          (2 : ℚ) ^ (e + 1) - (2 : ℚ) ^ (e + 1 - f.fracBits - 2) := by
        rw [sub_mul]
        congr 1
        · push_cast
          rw [← zpow_natCast, ← zpow_add₀ (by norm_num)]; congr 1; push_cast; ring
        · rw [show (1 / 2 : ℚ) = (2 : ℚ) ^ (-1 : ℤ) by norm_num, ← zpow_add₀ (by norm_num)]; congr 1; ring
      rw [e2]
    · have h1 : ¬e < least := by omega
      simp only [h1, decide_false, Bool.false_and, Bool.false_eq_true, false_iff, not_lt]
      linarith [least_le (by omega)]

/-- A number too large for the format is not tiny. -/
theorem not_tiny_of_tooLarge (f : FpFormat) (hf : f.Sound) (t : Tininess) (x : ℚ) (h : fpTooLarge f x) : ¬Tiny f t x := by
  have big : (2 : ℚ) ^ (1 - fpBias f : ℤ) ≤ |x| := by
    have a : (2 : ℚ) ^ (1 - fpBias f : ℤ) ≤ 1 := zpow_le_one_of_nonpos₀ (by norm_num) (by have := hf.bias; omega)
    have b : (2 : ℚ) ^ (fpBias f - f.fracBits - 1) ≤ 2 ^ fpBias f := pow_le_pow_right₀ (by norm_num) (by omega)
    have c : (1 : ℚ) ≤ 2 ^ fpBias f := one_le_pow₀ (by norm_num)
    have d : (2 : ℚ) ^ (fpBias f + 1) = 2 * 2 ^ fpBias f := by ring
    have h' : (2 : ℚ) ^ (fpBias f + 1) - 2 ^ (fpBias f - f.fracBits - 1) ≤ |x| := h
    linarith
  have hq : (0 : ℚ) < (2 : ℚ) ^ (1 - fpBias f - f.fracBits - 2 : ℤ) := by positivity
  rintro ⟨_, ht⟩
  cases t <;> simp only [] at ht <;> linarith

/-- The fields of infinity. -/
theorem fpIsInf_pack (f : FpFormat) (hf : f.Sound) (neg : Bool) : fpIsInf f (fpPack f neg (fpInfMag f)) := by
  have hw : fpInfMag f < 2 ^ (f.expBits + f.fracBits) := by
    rw [pow_add]; exact Nat.mul_lt_mul_of_pos_right hf.width (by positivity)
  refine ⟨by rw [fpExponent_pack f neg _ hw]; exact Nat.mul_div_cancel _ (by positivity), ?_⟩
  unfold fpFraction fpPack fpInfMag
  rw [pow_add, ← mul_assoc, ← add_mul]
  exact Nat.mul_mod_left _ _

/-- `roundRatio` signals overflow, inexact and underflow by the exact value, and nothing else (R143 item 7, log 14, 15). -/
theorem roundRatio_signals (f : FpFormat) (hf : f.Sound) (t : Tininess) (neg : Bool) (num den : Nat) (hn : 0 < num)
    (hd : 0 < den) (b : Nat) (hb : (roundRatio f t neg num den).bits = some b) :
    RoundedSignals f t ((if neg then -1 else 1) * ((num : ℚ) / den)) b (roundRatio f t neg num den).signals ∧
      (roundRatio f t neg num den).signals.invalid = false ∧ (roundRatio f t neg num den).signals.divByZero = false := by
  obtain ⟨k, n, ⟨ek, en⟩, ⟨r, er, hx, hlt, hr, half, tie, near⟩, hn2, hk⟩ := rounding_parts f num den hn hd
  have hxpos : (0 : ℚ) < num / den := by positivity
  have ov : fpInfMag f ≤ k * 2 ^ f.fracBits + n ↔ fpTooLarge f ((if neg then -1 else 1) * ((num : ℚ) / den)) := by
    rw [overflow_iff f hf k n r hlt hr half tie hn2 hk, ← hx, fpTooLarge, abs_signed neg _ hxpos]
  have ratio := nearestEven_eq_iff (ratioAt num den (roundingPlace f num den)).1
    (ratioAt num den (roundingPlace f num den)).2 (ratioAt_snd_pos num den _ hd)
  rw [en, ← er] at ratio
  unfold roundRatio at hb ⊢
  simp only [ek, en] at hb ⊢
  by_cases h : fpInfMag f ≤ k * 2 ^ f.fracBits + n
  · rw [if_pos h] at hb ⊢
    obtain rfl := Option.some.inj hb
    have big := ov.mp h
    exact ⟨⟨⟨fun _ => big, fun _ => rfl⟩, ⟨fun _ => .inl (fpIsInf_pack f hf neg), fun _ => rfl⟩,
      ⟨fun h => absurd h (by simp [FpExceptions.empty]), fun h => absurd h (not_tiny_of_tooLarge f hf t _ big)⟩⟩, rfl, rfl⟩
  · rw [if_neg h] at hb ⊢
    obtain rfl := Option.some.inj hb
    have hmag : k * 2 ^ f.fracBits + n < fpMax f * 2 ^ f.fracBits := Nat.lt_of_not_le h
    have hw : k * 2 ^ f.fracBits + n < 2 ^ (f.expBits + f.fracBits) := by
      rw [pow_add]
      exact lt_trans hmag (Nat.mul_lt_mul_of_pos_right hf.width (by positivity))
    have hfin : ¬fpIsInf f (fpPack f neg (k * 2 ^ f.fracBits + n)) := by
      rintro ⟨hc, _⟩
      rw [fpExponent_pack f neg _ hw] at hc
      exact absurd hc (ne_of_lt (Nat.div_lt_of_lt_mul (by rw [Nat.mul_comm _ (fpMax f)]; exact hmag)))
    have same : fpValue f (fpPack f neg (k * 2 ^ f.fracBits + n)) = (if neg then -1 else 1) * ((num : ℚ) / den) ↔
        (n : ℚ) = r := by
      have hz : (2 : ℚ) ^ k * (2 : ℚ) ^ fpMinExp f ≠ 0 := by positivity
      have hs : (if neg then (-1 : ℚ) else 1) ≠ 0 := by cases neg <;> norm_num
      rw [fpValue_pack f neg _ hw, fpUnits_scaled f k n hn2 hk, hx]
      push_cast
      rw [mul_assoc (if neg then (-1 : ℚ) else 1), mul_right_inj' hs, mul_assoc, mul_assoc, mul_left_inj' hz]
    refine ⟨⟨⟨fun h' => absurd h' (by simp [FpExceptions.empty]), fun h' => absurd (ov.mpr h') h⟩, ?_,
      fpTiny_iff f t neg num den hn hd⟩, rfl, rfl⟩
    simp only [bne_iff_ne, hfin, false_or, ne_eq, same, ratio]

/-- `roundScaled` signals by the exact value, and neither invalid operation nor division by zero. -/
theorem roundScaled_signals (f : FpFormat) (hf : f.Sound) (t : Tininess) (neg : Bool) (num den : Nat) (e : Int)
    (hn : 0 < num) (hd : 0 < den) (b : Nat) (hb : (roundScaled f t neg num den e).bits = some b) :
    RoundedSignals f t ((if neg then -1 else 1) * ((num : ℚ) / den * (2 : ℚ) ^ e)) b (roundScaled f t neg num den e).signals ∧
      (roundScaled f t neg num den e).signals.invalid = false ∧
      (roundScaled f t neg num den e).signals.divByZero = false := by
  have h1 : 0 < (ratioAt num den (-e)).1 := by
    unfold ratioAt; split
    · exact hn
    · exact Nat.mul_pos hn (by positivity)
  have := roundRatio_signals f hf t neg _ _ h1 (ratioAt_snd_pos num den (-e) hd) b hb
  rw [ratioAt_div num den (-e) hd, zpow_neg, div_inv_eq_mul] at this
  exact this

/-- An exact zero signals nothing. -/
theorem zero_signals (f : FpFormat) (hf : f.Sound) (t : Tininess) (neg : Bool) :
    RoundedSignals f t 0 (fpPack f neg 0) FpExceptions.empty := by
  have h0 : (0 : Nat) < 2 ^ (f.expBits + f.fracBits) := by positivity
  refine ⟨⟨fun h => (by cases h), fun h => ?_⟩, ⟨fun h => (by cases h), fun h => ?_⟩, ⟨fun h => (by cases h), fun h => ?_⟩⟩
  · exfalso
    rw [fpTooLarge, abs_zero, sub_nonpos] at h
    exact absurd h (not_le.mpr (pow_lt_pow_right₀ (by norm_num) (by omega)))
  · exfalso
    rcases h with ⟨h, _⟩ | h
    · rw [fpExponent_pack f neg 0 h0, hf.max] at h; simp at h
    · exact h (by rw [fpValue_pack f neg 0 h0]; simp [fpUnits])
  · exact absurd rfl h.1

/-- `fpTrapped` says whether a signalled exception traps (R143 item 7). -/
theorem fpTrapped_iff (traps signals : FpExceptions) : fpTrapped traps signals = true ↔ Trapped traps signals := by
  simp [fpTrapped, or_assoc]

/-- `roundScaled` rounds `num / den * 2^e` with a sign correctly. -/
theorem roundScaled_correct (f : FpFormat) (hf : f.Sound) (t : Tininess) (neg : Bool) (num den : Nat) (e : Int)
    (hn : 0 < num) (hd : 0 < den) :
    ∃ b, (roundScaled f t neg num den e).bits = some b ∧
      CorrectlyRounded f ((if neg then -1 else 1) * ((num : ℚ) / den * (2 : ℚ) ^ e)) b := by
  have hp := ratioAt_snd_pos num den (-e) hd
  have hv := ratioAt_div num den (-e) hd
  have h1 : 0 < (ratioAt num den (-e)).1 := by
    unfold ratioAt; split
    · exact hn
    · exact Nat.mul_pos hn (by positivity)
  have := roundRatio_correct f hf t neg _ _ h1 hp
  rw [hv, zpow_neg, div_inv_eq_mul] at this
  exact this

/-- A zero of either sign is the correctly rounded zero. -/
theorem correctlyRounded_zero (f : FpFormat) (hf : f.Sound) (neg : Bool) : CorrectlyRounded f 0 (fpPack f neg 0) := by
  have h0 : (0 : Nat) < 2 ^ (f.expBits + f.fracBits) := by positivity
  have hv : fpValue f (fpPack f neg 0) = 0 := by rw [fpValue_pack f neg 0 h0]; simp [fpUnits]
  have hT : ¬(2 : ℚ) ^ (fpBias f + 1) - 2 ^ (fpBias f - f.fracBits - 1) ≤ |0| := by
    rw [abs_zero, not_le, sub_pos]
    exact pow_lt_pow_right₀ (by norm_num) (by omega)
  unfold CorrectlyRounded
  rw [if_neg hT, hv]
  refine ⟨fpPack_lt f neg 0 h0, ?_, fun c _ _ => ⟨by simp, fun h hne => ?_⟩⟩
  · unfold fpFinite
    rw [fpExponent_pack f neg 0 h0, hf.max]
    simp
  · simp only [sub_zero, abs_zero, abs_eq_zero] at h
    exact absurd h hne

/-! ## Data -/

/-- A finite pattern unpacks to the sign, magnitude and exponent of its value (R141). -/
theorem fpUnpack_finite (f : FpFormat) (bits : Nat) (h : fpFinite f bits) :
    ∃ m e, fpUnpack f bits = .finite (fpSign f bits) m e ∧
      fpValue f bits = (if fpSign f bits then -1 else 1) * ((m : ℚ) * (2 : ℚ) ^ e) ∧ (m = 0 ↔ fpIsZero f bits) := by
  have hp : (0 : Nat) < 2 ^ f.fracBits := by positivity
  unfold fpUnpack fpValue
  simp only [if_neg h]
  by_cases h0 : fpExponent f bits = 0
  · simp only [if_pos h0]
    refine ⟨_, _, rfl, ?_, by simp [fpIsZero, h0]⟩
    have hz : (2 : ℚ) ^ fpMinExp f = (2 : ℚ) ^ (1 - fpBias f : ℤ) / 2 ^ f.fracBits := by
      unfold fpMinExp; rw [zpow_sub₀ (by norm_num), zpow_natCast]
    rw [hz]
    split <;> field_simp
  · simp only [if_neg h0]
    refine ⟨_, _, rfl, ?_, by simp [fpIsZero, h0]⟩
    rw [zpow_sub₀ (by norm_num) _ (f.fracBits : ℤ), zpow_natCast]
    push_cast
    split <;> field_simp

/-- What a pattern unpacks to, by its class (R142). -/
theorem fpUnpack_inf (f : FpFormat) (bits : Nat) (h : fpIsInf f bits) : fpUnpack f bits = .inf (fpSign f bits) := by
  unfold fpUnpack; simp [h.1, h.2]

theorem fpUnpack_nan (f : FpFormat) (bits : Nat) (h : fpIsNan f bits = true) :
    fpUnpack f bits = .nan (fpFraction f bits / 2 ^ (f.fracBits - 1) % 2 == 0) := by
  unfold fpIsNan at h
  simp only [Bool.and_eq_true, beq_iff_eq, bne_iff_ne] at h
  unfold fpUnpack; simp [h.1, h.2]

theorem fpSignalling_unpack (f : FpFormat) (hf : f.Sound) (bits : Nat) :
    fpSignalling (fpUnpack f bits) = true ↔ fpIsSignalling f bits := by
  have hlt : fpFraction f bits < 2 ^ (f.fracBits - 1) * 2 := by
    rw [← pow_succ, Nat.sub_add_cancel hf.frac]; exact Nat.mod_lt _ (by positivity)
  have hp : 0 < 2 ^ (f.fracBits - 1) := by positivity
  by_cases hn : fpIsNan f bits = true
  · rw [fpUnpack_nan f bits hn]
    simp only [fpSignalling, beq_iff_eq, fpIsSignalling, hn, true_and]
    have h2 : fpFraction f bits / 2 ^ (f.fracBits - 1) < 2 := Nat.div_lt_of_lt_mul hlt
    rw [Nat.mod_eq_of_lt h2, Nat.div_eq_zero_iff]
    omega
  · refine ⟨fun hs => ?_, fun hs => absurd hs.1 hn⟩
    exfalso; revert hs
    by_cases h : fpFinite f bits
    · obtain ⟨m, e, he, _⟩ := fpUnpack_finite f bits h
      rw [he]; simp [fpSignalling]
    · have hi : fpIsInf f bits := by
        unfold fpFinite at h; unfold fpIsNan at hn
        simp only [Bool.and_eq_true, beq_iff_eq, bne_iff_ne] at hn
        exact ⟨by omega, by by_contra hc; exact hn ⟨by omega, hc⟩⟩
      rw [fpUnpack_inf f bits hi]; simp [fpSignalling]

/-- A signed magnitude counted in units of `2^low`. -/
theorem signedAt_value (neg : Bool) (mag : Nat) (e low : Int) (h : low ≤ e) :
    (signedAt neg mag e low : ℚ) * (2 : ℚ) ^ low = (if neg then -1 else 1) * ((mag : ℚ) * (2 : ℚ) ^ e) := by
  have : (2 : ℚ) ^ e = 2 ^ (e - low).toNat * (2 : ℚ) ^ low := by
    rw [← zpow_natCast, ← zpow_add₀ (by norm_num)]; congr 1; omega
  rw [this]
  unfold signedAt
  simp only []
  cases neg
  · simp; ring
  · simp; ring

end Sys2Proof.Machine
end

