-- ==== Sys2Proof/Laws/Operands.lean ====
section
/-! SUPPORT. The operand forms, loaded values, branch targets, products and quotients as arithmetic on integers
(spec/30_encoding.md R91, spec/45_multiply_divide.md R246). -/

namespace Sys2Proof.Machine

/-! ## Branch targets -/

/-- A word offset is four times the signed field (R91). -/
theorem branchAddr_eq (address : BitVec 26) : branchAddr address = BitVec.ofInt 64 (4 * address.toInt) := by
  unfold branchAddr
  apply BitVec.eq_of_toInt_eq
  have h := BitVec.toInt_lt (x := address)
  have h' := BitVec.le_toInt (x := address)
  rw [BitVec.toInt_signExtend_of_le (by decide), BitVec.toInt_append, BitVec.toInt_ofInt]
  simp only [Int.bmod]
  simp
  omega

/-- A word offset is four times the signed field (R91). -/
theorem condBranchAddr_eq (address : BitVec 19) : condBranchAddr address = BitVec.ofInt 64 (4 * address.toInt) := by
  unfold condBranchAddr
  apply BitVec.eq_of_toInt_eq
  have h := BitVec.toInt_lt (x := address)
  have h' := BitVec.le_toInt (x := address)
  rw [BitVec.toInt_signExtend_of_le (by decide), BitVec.toInt_append, BitVec.toInt_ofInt]
  simp only [Int.bmod]
  simp
  omega

/-- An address plus a signed offset, modulo 2^64 (R120). -/
theorem add_ofInt (pc : Word) (k : Int) : pc + BitVec.ofInt 64 k = BitVec.ofInt 64 (pc.toNat + k) := by
  rw [BitVec.ofInt_add]
  congr 1
  simp

/-! ## Wide moves -/

/-- The wide immediate as a number (R227). -/
theorem movImm_eq (imm : BitVec 16) (hw : BitVec 2) : movImm imm hw = BitVec.ofNat 64 (imm.toNat * 2 ^ (16 * hw.toNat)) := by
  unfold movImm movShift
  apply BitVec.eq_of_toNat_eq
  have := imm.isLt
  simp [Nat.shiftLeft_eq]

/-- Each bit of `MOVK`'s result (R230). -/
theorem movKeep_getLsbD (v : Word) (imm : BitVec 16) (hw : BitVec 2) (j : Nat) (hj : j < 64) :
    (movKeep v imm hw).getLsbD j =
      if 16 * hw.toNat ≤ j ∧ j ≤ 16 * hw.toNat + 15 then imm.getLsbD (j - 16 * hw.toNat) else v.getLsbD j := by
  unfold movKeep movImm movShift
  simp only [BitVec.getLsbD_or, BitVec.getLsbD_and, BitVec.getLsbD_not, BitVec.getLsbD_shiftLeft, BitVec.getLsbD_setWidth, hj,
    decide_true, Bool.true_and]
  have hf : ∀ k, (0xFFFF#16).getLsbD k = decide (k < 16) := by
    intro k
    have h : (0xFFFF#16) = BitVec.allOnes 16 := by decide
    rw [h, BitVec.getLsbD_allOnes]
  rw [hf]
  by_cases h1 : j < 16 * hw.toNat
  · have : ¬(16 * hw.toNat ≤ j) := by omega
    simp [h1, this]
  · have h1' : 16 * hw.toNat ≤ j := by omega
    by_cases h2 : j ≤ 16 * hw.toNat + 15
    · have h3 : j - 16 * hw.toNat < 16 := by omega
      have h4 : j - 16 * hw.toNat < 64 := by omega
      simp [h1, h1', h2, h3, h4]
    · have h3 : ¬(j - 16 * hw.toNat < 16) := by omega
      have h4 : imm.getLsbD (j - 16 * hw.toNat) = false := BitVec.getLsbD_of_ge _ _ (by omega)
      simp [h1, h2, h3, h4]

/-! ## Products and quotients (R246) -/

/-- The two halves of the unsigned product. -/
theorem unsignedProductHigh_law (a b : Word) :
    (unsignedProductHigh a b).toNat * 2 ^ 64 + (productLow a b).toNat = a.toNat * b.toNat := by
  unfold unsignedProductHigh productLow
  have ha := a.isLt
  have hb := b.isLt
  have hlt : a.toNat * b.toNat / 2 ^ 64 < 2 ^ 64 := by
    rw [Nat.div_lt_iff_lt_mul (by decide)]
    nlinarith
  rw [BitVec.toNat_ofNat, BitVec.toNat_ofNat, Nat.mod_eq_of_lt hlt]
  omega

/-- The two halves of the signed product. -/
theorem signedProductHigh_law (a b : Word) :
    (signedProductHigh a b).toInt * 2 ^ 64 + ((productLow a b).toNat : Int) = a.toInt * b.toInt := by
  unfold signedProductHigh productLow
  have ha := BitVec.toInt_lt (x := a)
  have ha' := BitVec.le_toInt (x := a)
  have hb := BitVec.toInt_lt (x := b)
  have hb' := BitVec.le_toInt (x := b)
  simp only [Nat.add_one_sub_one] at ha ha' hb hb'
  have hp : a.toInt * b.toInt ≤ 2 ^ 126 := by nlinarith
  have hp' : -2 ^ 126 ≤ a.toInt * b.toInt := by nlinarith
  have hm : ((a.toNat * b.toNat : Nat) : Int) % 2 ^ 64 = a.toInt * b.toInt % 2 ^ 64 := by
    have h1 : (a.toNat : Int) % 2 ^ 64 = a.toInt % 2 ^ 64 := by
      rw [BitVec.toInt_eq_toNat_bmod]
      exact (Int.bmod_emod ..).symm
    have h2 : (b.toNat : Int) % 2 ^ 64 = b.toInt % 2 ^ 64 := by
      rw [BitVec.toInt_eq_toNat_bmod]
      exact (Int.bmod_emod ..).symm
    rw [Nat.cast_mul, Int.mul_emod, h1, h2, ← Int.mul_emod]
  rw [Int.fdiv_eq_ediv_of_nonneg _ (by decide), BitVec.toInt_ofInt, BitVec.toNat_ofNat]
  have hb : ((a.toInt * b.toInt) / 2 ^ 64).bmod (2 ^ 64) = a.toInt * b.toInt / 2 ^ 64 := by
    simp only [Int.bmod]
    omega
  rw [hb]
  have hc : ((a.toNat * b.toNat % 2 ^ 64 : Nat) : Int) = a.toInt * b.toInt % 2 ^ 64 := by
    rw [← hm]
    push_cast
    rfl
  rw [hc]
  omega

/-- The remainder law of `UDIV`. -/
theorem unsignedQuotient_law (a b : Word) (h : b ≠ 0#64) :
    a.toNat = (unsignedQuotient a b).toNat * b.toNat + a.toNat % b.toNat := by
  unfold unsignedQuotient
  rw [if_neg h, BitVec.toNat_ofNat, Nat.mod_eq_of_lt (lt_of_le_of_lt (Nat.div_le_self _ _) a.isLt)]
  have := Nat.div_add_mod a.toNat b.toNat
  rw [Nat.mul_comm] at this
  omega

/-- The quotient of `SDIV` where it fits: rounded toward zero. -/
theorem signedQuotient_toInt (a b : Word) (h : b ≠ 0#64) (ho : ¬(a.toInt = -2 ^ 63 ∧ b.toInt = -1)) :
    (signedQuotient a b).toInt = a.toInt.tdiv b.toInt := by
  unfold signedQuotient
  rw [if_neg h, BitVec.toInt_ofInt]
  have ha := BitVec.toInt_lt (x := a)
  have ha' := BitVec.le_toInt (x := a)
  simp only [Nat.add_one_sub_one] at ha ha'
  have hb0 : b.toInt ≠ 0 := by
    intro hb
    exact h (BitVec.eq_of_toInt_eq (by simpa using hb))
  have hn : (a.toInt.tdiv b.toInt).natAbs = a.toInt.natAbs / b.toInt.natAbs := Int.natAbs_tdiv ..
  by_cases h1 : b.toInt.natAbs = 1
  · have hb1 : b.toInt = 1 ∨ b.toInt = -1 := by omega
    rcases hb1 with hb1 | hb1
    · rw [hb1, Int.tdiv_one]
      simp only [Int.bmod]
      omega
    · rw [hb1, Int.tdiv_neg, Int.tdiv_one]
      simp only [Int.bmod]
      omega
  · have h2 : 2 ≤ b.toInt.natAbs := by omega
    have h3 : a.toInt.natAbs / b.toInt.natAbs ≤ a.toInt.natAbs / 2 := Nat.div_le_div_left h2 (by decide)
    simp only [Int.bmod]
    omega

/-- The overflowing quotient of `SDIV` is the dividend again. -/
theorem signedQuotient_overflow (a b : Word) (ha : a.toInt = -2 ^ 63) (hb : b.toInt = -1) : signedQuotient a b = a := by
  have ha' : a = BitVec.ofInt 64 (-2 ^ 63) := by rw [← ha]; simp
  have hb' : b = BitVec.ofInt 64 (-1) := by rw [← hb]; simp
  subst ha' hb'
  decide

end Sys2Proof.Machine
end

