-- ==== Sys2Proof/Laws/State.lean ====
section
/-! SUPPORT. One lemma per field per update of the state, and what a register reads after each update, so that no proof
unfolds a record update. -/

namespace Sys2Proof.Machine

@[simp] theorem State.writeX_cfg (s : State) (i : Reg) (v : Word) : (s.writeX i v).cfg = s.cfg := by
  unfold State.writeX; split <;> rfl
@[simp] theorem State.writeX_pc (s : State) (i : Reg) (v : Word) : (s.writeX i v).pc = s.pc := by
  unfold State.writeX; split <;> rfl
@[simp] theorem State.writeX_flags (s : State) (i : Reg) (v : Word) : (s.writeX i v).flags = s.flags := by
  unfold State.writeX; split <;> rfl
@[simp] theorem State.writeX_d (s : State) (i : Reg) (v : Word) : (s.writeX i v).d = s.d := by
  unfold State.writeX; split <;> rfl
@[simp] theorem State.writeX_esr (s : State) (i : Reg) (v : Word) : (s.writeX i v).esr = s.esr := by
  unfold State.writeX; split <;> rfl
@[simp] theorem State.writeX_faultPc (s : State) (i : Reg) (v : Word) : (s.writeX i v).faultPc = s.faultPc := by
  unfold State.writeX; split <;> rfl
@[simp] theorem State.writeX_faultAddr (s : State) (i : Reg) (v : Word) : (s.writeX i v).faultAddr = s.faultAddr := by
  unfold State.writeX; split <;> rfl
@[simp] theorem State.writeX_monitor (s : State) (i : Reg) (v : Word) : (s.writeX i v).monitor = s.monitor := by
  unfold State.writeX; split <;> rfl
@[simp] theorem State.writeX_mem (s : State) (i : Reg) (v : Word) : (s.writeX i v).mem = s.mem := by
  unfold State.writeX; split <;> rfl
@[simp] theorem State.writeX_run (s : State) (i : Reg) (v : Word) : (s.writeX i v).run = s.run := by
  unfold State.writeX; split <;> rfl
@[simp] theorem State.writeX_draws (s : State) (i : Reg) (v : Word) : (s.writeX i v).draws = s.draws := by
  unfold State.writeX; split <;> rfl

@[simp] theorem State.writeD_cfg (s : State) (i : Reg) (v : Word) : (s.writeD i v).cfg = s.cfg := rfl
@[simp] theorem State.writeD_x (s : State) (i : Reg) (v : Word) : (s.writeD i v).x = s.x := rfl
@[simp] theorem State.writeD_pc (s : State) (i : Reg) (v : Word) : (s.writeD i v).pc = s.pc := rfl
@[simp] theorem State.writeD_flags (s : State) (i : Reg) (v : Word) : (s.writeD i v).flags = s.flags := rfl
@[simp] theorem State.writeD_d (s : State) (i : Reg) (v : Word) : (s.writeD i v).d = s.d.set i.toNat v i.isLt := rfl
@[simp] theorem State.writeD_esr (s : State) (i : Reg) (v : Word) : (s.writeD i v).esr = s.esr := rfl
@[simp] theorem State.writeD_faultPc (s : State) (i : Reg) (v : Word) : (s.writeD i v).faultPc = s.faultPc := rfl
@[simp] theorem State.writeD_faultAddr (s : State) (i : Reg) (v : Word) : (s.writeD i v).faultAddr = s.faultAddr := rfl
@[simp] theorem State.writeD_monitor (s : State) (i : Reg) (v : Word) : (s.writeD i v).monitor = s.monitor := rfl
@[simp] theorem State.writeD_mem (s : State) (i : Reg) (v : Word) : (s.writeD i v).mem = s.mem := rfl
@[simp] theorem State.writeD_run (s : State) (i : Reg) (v : Word) : (s.writeD i v).run = s.run := rfl
@[simp] theorem State.writeD_draws (s : State) (i : Reg) (v : Word) : (s.writeD i v).draws = s.draws := rfl

@[simp] theorem State.writeS_cfg (s : State) (i : Reg) (v : BitVec 32) : (s.writeS i v).cfg = s.cfg := rfl
@[simp] theorem State.writeS_x (s : State) (i : Reg) (v : BitVec 32) : (s.writeS i v).x = s.x := rfl
@[simp] theorem State.writeS_pc (s : State) (i : Reg) (v : BitVec 32) : (s.writeS i v).pc = s.pc := rfl
@[simp] theorem State.writeS_flags (s : State) (i : Reg) (v : BitVec 32) : (s.writeS i v).flags = s.flags := rfl
@[simp] theorem State.writeS_d (s : State) (i : Reg) (v : BitVec 32) : (s.writeS i v).d = s.d.set i.toNat (v.setWidth 64) i.isLt :=
    rfl
@[simp] theorem State.writeS_esr (s : State) (i : Reg) (v : BitVec 32) : (s.writeS i v).esr = s.esr := rfl
@[simp] theorem State.writeS_faultPc (s : State) (i : Reg) (v : BitVec 32) : (s.writeS i v).faultPc = s.faultPc := rfl
@[simp] theorem State.writeS_faultAddr (s : State) (i : Reg) (v : BitVec 32) : (s.writeS i v).faultAddr = s.faultAddr := rfl
@[simp] theorem State.writeS_monitor (s : State) (i : Reg) (v : BitVec 32) : (s.writeS i v).monitor = s.monitor := rfl
@[simp] theorem State.writeS_mem (s : State) (i : Reg) (v : BitVec 32) : (s.writeS i v).mem = s.mem := rfl
@[simp] theorem State.writeS_run (s : State) (i : Reg) (v : BitVec 32) : (s.writeS i v).run = s.run := rfl
@[simp] theorem State.writeS_draws (s : State) (i : Reg) (v : BitVec 32) : (s.writeS i v).draws = s.draws := rfl

@[simp] theorem State.writeFlags_cfg (s : State) (f : Flags) : (s.writeFlags f).cfg = s.cfg := rfl
@[simp] theorem State.writeFlags_x (s : State) (f : Flags) : (s.writeFlags f).x = s.x := rfl
@[simp] theorem State.writeFlags_pc (s : State) (f : Flags) : (s.writeFlags f).pc = s.pc := rfl
@[simp] theorem State.writeFlags_flags (s : State) (f : Flags) : (s.writeFlags f).flags = f := rfl
@[simp] theorem State.writeFlags_d (s : State) (f : Flags) : (s.writeFlags f).d = s.d := rfl
@[simp] theorem State.writeFlags_esr (s : State) (f : Flags) : (s.writeFlags f).esr = s.esr := rfl
@[simp] theorem State.writeFlags_faultPc (s : State) (f : Flags) : (s.writeFlags f).faultPc = s.faultPc := rfl
@[simp] theorem State.writeFlags_faultAddr (s : State) (f : Flags) : (s.writeFlags f).faultAddr = s.faultAddr := rfl
@[simp] theorem State.writeFlags_monitor (s : State) (f : Flags) : (s.writeFlags f).monitor = s.monitor := rfl
@[simp] theorem State.writeFlags_mem (s : State) (f : Flags) : (s.writeFlags f).mem = s.mem := rfl
@[simp] theorem State.writeFlags_run (s : State) (f : Flags) : (s.writeFlags f).run = s.run := rfl
@[simp] theorem State.writeFlags_draws (s : State) (f : Flags) : (s.writeFlags f).draws = s.draws := rfl

@[simp] theorem State.jump_cfg (s : State) (a : Word) : (s.jump a).cfg = s.cfg := rfl
@[simp] theorem State.jump_x (s : State) (a : Word) : (s.jump a).x = s.x := rfl
@[simp] theorem State.jump_pc (s : State) (a : Word) : (s.jump a).pc = a := rfl
@[simp] theorem State.jump_flags (s : State) (a : Word) : (s.jump a).flags = s.flags := rfl
@[simp] theorem State.jump_d (s : State) (a : Word) : (s.jump a).d = s.d := rfl
@[simp] theorem State.jump_esr (s : State) (a : Word) : (s.jump a).esr = s.esr := rfl
@[simp] theorem State.jump_faultPc (s : State) (a : Word) : (s.jump a).faultPc = s.faultPc := rfl
@[simp] theorem State.jump_faultAddr (s : State) (a : Word) : (s.jump a).faultAddr = s.faultAddr := rfl
@[simp] theorem State.jump_monitor (s : State) (a : Word) : (s.jump a).monitor = s.monitor := rfl
@[simp] theorem State.jump_mem (s : State) (a : Word) : (s.jump a).mem = s.mem := rfl
@[simp] theorem State.jump_run (s : State) (a : Word) : (s.jump a).run = s.run := rfl
@[simp] theorem State.jump_draws (s : State) (a : Word) : (s.jump a).draws = s.draws := rfl

@[simp] theorem State.advance_cfg (s : State)  : (s.advance).cfg = s.cfg := rfl
@[simp] theorem State.advance_x (s : State)  : (s.advance).x = s.x := rfl
@[simp] theorem State.advance_pc (s : State)  : (s.advance).pc = s.pc + 4#64 := rfl
@[simp] theorem State.advance_flags (s : State)  : (s.advance).flags = s.flags := rfl
@[simp] theorem State.advance_d (s : State)  : (s.advance).d = s.d := rfl
@[simp] theorem State.advance_esr (s : State)  : (s.advance).esr = s.esr := rfl
@[simp] theorem State.advance_faultPc (s : State)  : (s.advance).faultPc = s.faultPc := rfl
@[simp] theorem State.advance_faultAddr (s : State)  : (s.advance).faultAddr = s.faultAddr := rfl
@[simp] theorem State.advance_monitor (s : State)  : (s.advance).monitor = s.monitor := rfl
@[simp] theorem State.advance_mem (s : State)  : (s.advance).mem = s.mem := rfl
@[simp] theorem State.advance_run (s : State)  : (s.advance).run = s.run := rfl
@[simp] theorem State.advance_draws (s : State)  : (s.advance).draws = s.draws := rfl

@[simp] theorem State.setMonitor_cfg (s : State) (m : Monitor) : (s.setMonitor m).cfg = s.cfg := rfl
@[simp] theorem State.setMonitor_x (s : State) (m : Monitor) : (s.setMonitor m).x = s.x := rfl
@[simp] theorem State.setMonitor_pc (s : State) (m : Monitor) : (s.setMonitor m).pc = s.pc := rfl
@[simp] theorem State.setMonitor_flags (s : State) (m : Monitor) : (s.setMonitor m).flags = s.flags := rfl
@[simp] theorem State.setMonitor_d (s : State) (m : Monitor) : (s.setMonitor m).d = s.d := rfl
@[simp] theorem State.setMonitor_esr (s : State) (m : Monitor) : (s.setMonitor m).esr = s.esr := rfl
@[simp] theorem State.setMonitor_faultPc (s : State) (m : Monitor) : (s.setMonitor m).faultPc = s.faultPc := rfl
@[simp] theorem State.setMonitor_faultAddr (s : State) (m : Monitor) : (s.setMonitor m).faultAddr = s.faultAddr := rfl
@[simp] theorem State.setMonitor_monitor (s : State) (m : Monitor) : (s.setMonitor m).monitor = m := rfl
@[simp] theorem State.setMonitor_mem (s : State) (m : Monitor) : (s.setMonitor m).mem = s.mem := rfl
@[simp] theorem State.setMonitor_run (s : State) (m : Monitor) : (s.setMonitor m).run = s.run := rfl
@[simp] theorem State.setMonitor_draws (s : State) (m : Monitor) : (s.setMonitor m).draws = s.draws := rfl

@[simp] theorem takeException_cfg (e : Exc) (s : State) : (takeException e s).cfg = s.cfg := rfl
@[simp] theorem takeException_x (e : Exc) (s : State) : (takeException e s).x = s.x := rfl
@[simp] theorem takeException_pc (e : Exc) (s : State) : (takeException e s).pc = s.pc := rfl
@[simp] theorem takeException_flags (e : Exc) (s : State) : (takeException e s).flags = s.flags := rfl
@[simp] theorem takeException_d (e : Exc) (s : State) : (takeException e s).d = s.d := rfl
@[simp] theorem takeException_esr (e : Exc) (s : State) : (takeException e s).esr = some (esrWord e.cls (Config.issValue s.draws)) :=
    rfl
@[simp] theorem takeException_faultPc (e : Exc) (s : State) : (takeException e s).faultPc = some s.pc := rfl
@[simp] theorem takeException_faultAddr (e : Exc) (s : State) : (takeException e s).faultAddr = e.addr.or s.faultAddr := by
  cases e <;> rfl
@[simp] theorem takeException_monitor (e : Exc) (s : State) : (takeException e s).monitor = .clear := rfl
@[simp] theorem takeException_mem (e : Exc) (s : State) : (takeException e s).mem = s.mem := rfl
@[simp] theorem takeException_run (e : Exc) (s : State) : (takeException e s).run = .faulted e.cls := rfl
@[simp] theorem takeException_draws (e : Exc) (s : State) : (takeException e s).draws = s.draws + 1 := rfl

@[simp] theorem State.readX_writeFlags (s : State) (f : Flags) (r : Reg) : (s.writeFlags f).readX r = s.readX r := rfl
@[simp] theorem State.readD_writeFlags (s : State) (f : Flags) (r : Reg) : (s.writeFlags f).readD r = s.readD r := rfl
@[simp] theorem State.readS_writeFlags (s : State) (f : Flags) (r : Reg) : (s.writeFlags f).readS r = s.readS r := rfl
@[simp] theorem State.readX_jump (s : State) (a : Word) (r : Reg) : (s.jump a).readX r = s.readX r := rfl
@[simp] theorem State.readD_jump (s : State) (a : Word) (r : Reg) : (s.jump a).readD r = s.readD r := rfl
@[simp] theorem State.readS_jump (s : State) (a : Word) (r : Reg) : (s.jump a).readS r = s.readS r := rfl
@[simp] theorem State.readX_advance (s : State)  (r : Reg) : (s.advance).readX r = s.readX r := rfl
@[simp] theorem State.readD_advance (s : State)  (r : Reg) : (s.advance).readD r = s.readD r := rfl
@[simp] theorem State.readS_advance (s : State)  (r : Reg) : (s.advance).readS r = s.readS r := rfl
@[simp] theorem State.readX_setMonitor (s : State) (m : Monitor) (r : Reg) : (s.setMonitor m).readX r = s.readX r := rfl
@[simp] theorem State.readD_setMonitor (s : State) (m : Monitor) (r : Reg) : (s.setMonitor m).readD r = s.readD r := rfl
@[simp] theorem State.readS_setMonitor (s : State) (m : Monitor) (r : Reg) : (s.setMonitor m).readS r = s.readS r := rfl
@[simp] theorem State.readX_takeException (s : State) (e : Exc) (r : Reg) : (takeException e s).readX r = s.readX r := rfl
@[simp] theorem State.readD_takeException (s : State) (e : Exc) (r : Reg) : (takeException e s).readD r = s.readD r := rfl
@[simp] theorem State.readS_takeException (s : State) (e : Exc) (r : Reg) : (takeException e s).readS r = s.readS r := rfl
@[simp] theorem State.readD_writeX (s : State) (i : Reg) (v : Word) (r : Reg) : (s.writeX i v).readD r = s.readD r := by
  simp [State.readD, State.readD]
@[simp] theorem State.readS_writeX (s : State) (i : Reg) (v : Word) (r : Reg) : (s.writeX i v).readS r = s.readS r := by
  simp [State.readS, State.readD]
@[simp] theorem State.readX_writeD (s : State) (i : Reg) (v : Word) (r : Reg) : (s.writeD i v).readX r = s.readX r := rfl
@[simp] theorem State.readX_writeS (s : State) (i : Reg) (v : BitVec 32) (r : Reg) : (s.writeS i v).readX r = s.readX r :=
    rfl

/-! ## Registers after a write -/

/-- Register 31 reads as zero (R22). -/
@[simp] theorem State.readX_zero (s : State) : s.readX 31#5 = 0#64 := rfl

/-- A register field other than 31 is below 31. -/
theorem reg_lt_of_ne {i : Reg} (h : i ≠ 31#5) : i.toNat < 31 := by
  have h1 : i.toNat ≠ 31 := fun e => h (BitVec.eq_of_toNat_eq (by simpa using e))
  have h2 := i.isLt
  omega

/-- What a register reads after a write to one (R22). -/
theorem State.readX_writeX (s : State) (i r : Reg) (v : Word) :
    (s.writeX i v).readX r = if r = i ∧ i ≠ 31#5 then v else s.readX r := by
  unfold State.writeX State.readX
  by_cases hi : i.toNat < 31
  · have hi31 : i ≠ 31#5 := fun e => by subst e; simp at hi
    by_cases hr : r.toNat < 31
    · by_cases e : r = i
      · subst e; simp [hi, hi31]
      · have hne : i.toNat ≠ r.toNat := fun h => e (BitVec.eq_of_toNat_eq h.symm)
        simp [hi, hr, e, hne]
    · have : r ≠ i := fun e => hr (e ▸ hi)
      simp [hr, this]
  · have : i = 31#5 := by
      by_contra hne
      exact hi (reg_lt_of_ne hne)
    simp [this]

/-- A write to register 31 is discarded (R22). -/
@[simp] theorem State.writeX_zero (s : State) (v : Word) : s.writeX 31#5 v = s := rfl

/-- Other registers keep their value (R22). -/
theorem State.readX_writeX_of_ne (s : State) {i r : Reg} (h : r ≠ i) (v : Word) :
    (s.writeX i v).readX r = s.readX r := by simp [State.readX_writeX, h]

/-- What a floating-point register reads after a write to one (R27). -/
theorem State.readD_writeD (s : State) (i r : Reg) (v : Word) :
    (s.writeD i v).readD r = if r = i then v else s.readD r := by
  unfold State.writeD State.readD
  by_cases e : r = i
  · subst e; simp
  · have hne : i.toNat ≠ r.toNat := fun h => e (BitVec.eq_of_toNat_eq h.symm)
    simp [e, hne]

/-- A single-precision write zeroes bits 63:32 (R27). -/
theorem State.readD_writeS (s : State) (i r : Reg) (v : BitVec 32) :
    (s.writeS i v).readD r = if r = i then v.setWidth 64 else s.readD r :=
  s.readD_writeD i r (v.setWidth 64)

end Sys2Proof.Machine
end

