-- ==== Sys2Proof/Laws/Ops.lean ====
section
/-! SUPPORT. For each shared operation, once, everything it can do; later proofs cite these instead of unfolding. -/

namespace Sys2Proof.Machine

/-! ## Registers and the record -/

theorem SameRecord.refl (s : State) : SameRecord s s := ⟨rfl, rfl, rfl, rfl, rfl⟩

theorem WroteX.of_writeX (rd : Reg) (v : Word) (s : State) : WroteX rd v s (s.writeX rd v) where
  written := by
    rw [State.readX_writeX]
    by_cases h : rd = 31#5
    · subst h; simp
    · simp [h]
  others := fun r h => s.readX_writeX_of_ne h v
  fp := fun r => by simp
  memory := fun a => by simp
  record := ⟨by simp, by simp, by simp, by simp, by simp⟩

theorem WroteD.of_writeD (rd : Reg) (v : Word) (s : State) : WroteD rd v s (s.writeD rd v) where
  written := by simp [State.readD_writeD]
  others := fun r h => by simp [State.readD_writeD, h]
  int := fun _ => rfl
  memory := fun _ => rfl
  record := ⟨rfl, rfl, rfl, rfl, rfl⟩

/-- The flags, the monitor and `pc` are outside `WroteX`. -/
theorem WroteX.trans_frame {rd : Reg} {v : Word} {s t u : State} (h : WroteX rd v s t) (hx : u.x = t.x) (hd : u.d = t.d)
    (hm : u.mem = t.mem) (hr : SameRecord t u) : WroteX rd v s u where
  written := by have := h.written; simpa [State.readX, hx] using this
  others := fun r hne => by have := h.others r hne; simpa [State.readX, hx] using this
  fp := fun r => by have := h.fp r; simpa [State.readD, hd] using this
  memory := fun a => by rw [hm]; exact h.memory a
  record := ⟨hr.esr.trans h.record.esr, hr.faultPc.trans h.record.faultPc, hr.faultAddr.trans h.record.faultAddr,
    hr.run.trans h.record.run, hr.cfg.trans h.record.cfg⟩

/-! ## Endings -/

/-- Completing with one integer register written (R211). -/
theorem finishX_spec (rd : Reg) (v : Word) (s : State) :
    ∃ t, finishX rd v s = .next t ∧ WroteX rd v s t ∧ t.flags = s.flags ∧ t.monitor = s.monitor ∧
      t.pc = s.pc + 4#64 :=
  ⟨_, rfl, (WroteX.of_writeX rd v s).trans_frame rfl rfl rfl ⟨rfl, rfl, rfl, rfl, rfl⟩, by simp, by simp,
    by simp⟩

/-- Completing with one integer register and the flags written (R211). -/
theorem finishXFlags_spec (rd : Reg) (v : Word) (f : Flags) (s : State) :
    ∃ t, finishXFlags rd v f s = .next t ∧ WroteX rd v s t ∧ t.flags = f ∧ t.monitor = s.monitor ∧
      t.pc = s.pc + 4#64 :=
  ⟨_, rfl, (WroteX.of_writeX rd v s).trans_frame rfl rfl rfl ⟨rfl, rfl, rfl, rfl, rfl⟩, by simp, by simp,
    by simp⟩

/-- Exception entry (R253). -/
theorem took_takeException (e : Exc) (s : State) : Took e s (takeException e s) where
  esr := ⟨_, rfl⟩
  faultPc := rfl
  faultAddr := by cases e <;> rfl
  monitor := rfl
  run := rfl
  int := fun _ => rfl
  fp := fun _ => rfl
  memory := fun _ => rfl
  flags := rfl
  pc := rfl
  cfg := rfl

/-- Raising an exception always answers a next state (R253). -/
theorem raise_spec (e : Exc) (s : State) : ∃ t, raise e s = .next t ∧ Took e s t := ⟨_, rfl, took_takeException e s⟩

/-- A branch jumps and does nothing else (R120). -/
theorem finishBranch_spec (taken : Bool) (offset : Word) (s : State) :
    ∃ t, finishBranch taken offset s = .next t ∧ Jumped (s.pc + if taken then offset else 4#64) s t := by
  cases taken
  · exact ⟨_, rfl, rfl, fun _ => rfl, fun _ => rfl, fun _ => rfl, rfl, rfl, ⟨rfl, rfl, rfl, rfl, rfl⟩⟩
  · exact ⟨_, rfl, rfl, fun _ => rfl, fun _ => rfl, fun _ => rfl, rfl, rfl, ⟨rfl, rfl, rfl, rfl, rfl⟩⟩

/-- What a load can do (R53, R185): complete, abort, or meet an unwritten byte. -/
theorem finishLoad_cases (addr : Word) (n : Nat) (put : List Byte → State → State) (s : State) :
    (s.accessible .read addr n = true ∧ ∃ bytes, s.mem.readBytes addr.toNat n = .ok bytes ∧
        finishLoad addr n put s = .next (put bytes s).advance) ∨
      (s.accessible .read addr n = false ∧ finishLoad addr n put s = raise (.dataAbort addr) s) ∨
      (s.accessible .read addr n = true ∧ ∃ u, s.mem.readBytes addr.toNat n = .unwritten u ∧
        finishLoad addr n put s = .fault (.unwrittenRead u)) := by
  unfold finishLoad
  rcases memRead_eq s addr n with ⟨ha, he⟩ | ⟨ha, he⟩
  · rw [he]
    cases hb : s.mem.readBytes addr.toNat n with
    | ok bytes => exact .inl ⟨ha, bytes, rfl, rfl⟩
    | abort => exact absurd hb (Memory.readBytes_ne_abort _ _ _)
    | unwritten u => exact .inr (.inr ⟨ha, u, rfl, rfl⟩)
  · rw [he]
    exact .inr (.inl ⟨ha, rfl⟩)

/-- What a store can do (R54, R185): complete or abort. -/
theorem finishStore_cases (addr : Word) (n v : Nat) (s : State) :
    (s.accessible .write addr n = true ∧
        finishStore addr n v s =
          .next ({ s with mem := s.mem.writeBytes addr.toNat (beBytes n v) } : State).advance) ∨
      (s.accessible .write addr n = false ∧ finishStore addr n v s = raise (.dataAbort addr) s) := by
  unfold finishStore
  rcases memWrite_eq s addr n v with ⟨ha, he⟩ | ⟨ha, he⟩ <;> rw [he]
  · exact .inl ⟨ha, rfl⟩
  · exact .inr ⟨ha, rfl⟩

/-- The floating-point enable (R144). -/
theorem ifFpEnabled_cases (s : State) (body : Result) :
    (s.cfg.fpEnabled = true ∧ ifFpEnabled s body = body) ∨
      (s.cfg.fpEnabled = false ∧ ifFpEnabled s body = raise .fpDisabled s) := by
  unfold ifFpEnabled
  cases h : s.cfg.fpEnabled <;> simp

/-- What a single-precision operation can do (R143 item 7, R144). -/
theorem finishArithS_cases (op : FpOp) (rd rn rm : Reg) (s : State) :
    (s.cfg.fpEnabled = false ∧ finishArithS op rd rn rm s = raise .fpDisabled s) ∨
      (s.cfg.fpEnabled = true ∧
        fpTrapped s.cfg.fpTraps (numericsSingle s.cfg op (s.readS rn) (s.readS rm)).2 = true ∧
        finishArithS op rd rn rm s = raise .fpException s) ∨
      (s.cfg.fpEnabled = true ∧
        fpTrapped s.cfg.fpTraps (numericsSingle s.cfg op (s.readS rn) (s.readS rm)).2 = false ∧
        finishArithS op rd rn rm s =
          .next (s.writeS rd (numericsSingle s.cfg op (s.readS rn) (s.readS rm)).1).advance) := by
  unfold finishArithS
  rcases ifFpEnabled_cases s _ with ⟨h, he⟩ | ⟨h, he⟩
  · rw [he]
    cases ht : fpTrapped s.cfg.fpTraps (numericsSingle s.cfg op (s.readS rn) (s.readS rm)).2 <;> simp [h, ht]
  · rw [he]
    exact .inl ⟨h, rfl⟩

/-- What a double-precision operation can do (R143 item 7, R144). -/
theorem finishArithD_cases (op : FpOp) (rd rn rm : Reg) (s : State) :
    (s.cfg.fpEnabled = false ∧ finishArithD op rd rn rm s = raise .fpDisabled s) ∨
      (s.cfg.fpEnabled = true ∧
        fpTrapped s.cfg.fpTraps (numericsDouble s.cfg op (s.readD rn) (s.readD rm)).2 = true ∧
        finishArithD op rd rn rm s = raise .fpException s) ∨
      (s.cfg.fpEnabled = true ∧
        fpTrapped s.cfg.fpTraps (numericsDouble s.cfg op (s.readD rn) (s.readD rm)).2 = false ∧
        finishArithD op rd rn rm s =
          .next (s.writeD rd (numericsDouble s.cfg op (s.readD rn) (s.readD rm)).1).advance) := by
  unfold finishArithD
  rcases ifFpEnabled_cases s _ with ⟨h, he⟩ | ⟨h, he⟩
  · rw [he]
    cases ht : fpTrapped s.cfg.fpTraps (numericsDouble s.cfg op (s.readD rn) (s.readD rm)).2 <;> simp [h, ht]
  · rw [he]
    exact .inl ⟨h, rfl⟩

/-- What a compare can do (R144, R147). -/
theorem finishCompare_cases (a b : FpDatum) (s : State) :
    (s.cfg.fpEnabled = false ∧ finishCompare a b s = raise .fpDisabled s) ∨
      (s.cfg.fpEnabled = true ∧ fpTrapped s.cfg.fpTraps (compareSignals a b) = true ∧
        finishCompare a b s = raise .fpException s) ∨
      (s.cfg.fpEnabled = true ∧ fpTrapped s.cfg.fpTraps (compareSignals a b) = false ∧
        finishCompare a b s = .next (s.writeFlags (compareFlags (fpCompare a b))).advance) := by
  unfold finishCompare
  rcases ifFpEnabled_cases s _ with ⟨h, he⟩ | ⟨h, he⟩
  · rw [he]
    cases ht : fpTrapped s.cfg.fpTraps (compareSignals a b) <;> simp [h]
  · rw [he]
    exact .inl ⟨h, rfl⟩

/-- What `STXR` can do (R179): refuse, abort, store and write 0, or not store and write 1. -/
theorem execStxr_cases (rs rt rn : Reg) (s : State) :
    (stxrOverlaps rs rt rn = true ∧ execStxr rs rt rn s = .refused (.refusedWord .stxrOverlap)) ∨
      (stxrOverlaps rs rt rn = false ∧ s.accessible .write (s.readX rn) 8 = false ∧
        execStxr rs rt rn s = raise (.dataAbort (s.readX rn)) s) ∨
      (stxrOverlaps rs rt rn = false ∧ s.accessible .write (s.readX rn) 8 = true ∧
        s.monitor = .armed (s.readX rn) ∧ (s.cfg.stxrSpuriousFail && Config.stxrFails s.draws) = false ∧
        execStxr rs rt rn s =
          .next ((({ s with
            draws := s.draws + 1
            mem := s.mem.writeBytes (s.readX rn).toNat (beBytes 8 (s.readX rt).toNat) } : State).writeX
              rs 0#64).setMonitor .clear).advance) ∨
      (stxrOverlaps rs rt rn = false ∧ s.accessible .write (s.readX rn) 8 = true ∧
        ¬(s.monitor = .armed (s.readX rn) ∧ (s.cfg.stxrSpuriousFail && Config.stxrFails s.draws) = false) ∧
        execStxr rs rt rn s =
          .next ((({ s with draws := s.draws + 1 } : State).writeX rs 1#64).setMonitor .clear).advance) := by
  unfold execStxr
  by_cases ho : stxrOverlaps rs rt rn = true
  · exact .inl ⟨ho, by rw [if_pos ho]⟩
  · have ho' : stxrOverlaps rs rt rn = false := by simpa using ho
    rw [if_neg ho]
    dsimp only
    rcases memWrite_eq s (s.readX rn) 8 (s.readX rt).toNat with ⟨ha, he⟩ | ⟨ha, he⟩
    · rw [he]
      dsimp only
      by_cases hc : s.monitor = .armed (s.readX rn) ∧ (s.cfg.stxrSpuriousFail && Config.stxrFails s.draws) = false
      · exact .inr (.inr (.inl ⟨ho', ha, hc.1, hc.2, by rw [if_pos hc]⟩))
      · exact .inr (.inr (.inr ⟨ho', ha, hc, by rw [if_neg hc]⟩))
    · rw [he]
      exact .inr (.inl ⟨ho', ha, rfl⟩)

/-! ## Accesses in terms of bytes -/

/-- The check of an access, byte by byte (R53, R54). -/
theorem accessible_iff_mayAccess (s : State) (k : AccessKind) (a : Word) (n : Nat) :
    s.accessible k a n = true ↔ MayAccess s k a n := accessible_iff s k a n

/-- The check fails where the access is misaligned or forbidden. -/
theorem accessible_eq_false_iff (s : State) (k : AccessKind) (a : Word) (n : Nat) :
    s.accessible k a n = false ↔ ¬MayAccess s k a n := by
  rw [← accessible_iff_mayAccess, Bool.not_eq_true]

/-- Written bytes are read in rising order of address (R53). -/
theorem Holds.readBytes {s : State} {a : Word} {n : Nat} {b : Nat → Byte} (h : Holds s a n b) :
    s.mem.readBytes a.toNat n = .ok ((List.range n).map b) := by
  refine (Memory.readBytes_ok_iff _ _ _ _).mpr ⟨by simp, fun i hi => ?_⟩
  rw [h.2 i hi]
  simp [hi]

/-- A load of bytes that may be read and are written completes (R53, R185). -/
theorem finishLoad_of_holds {s : State} {a : Word} {n : Nat} {b : Nat → Byte} (h : Holds s a n b)
    (put : List Byte → State → State) :
    finishLoad a n put s = .next (put ((List.range n).map b) s).advance := by
  rcases finishLoad_cases a n put s with ⟨_, bytes, hb, he⟩ | ⟨ha, _⟩ | ⟨_, u, hu, _⟩
  · rw [h.readBytes] at hb
    cases hb
    exact he
  · exact absurd h.1 ((accessible_eq_false_iff _ _ _ _).mp ha)
  · rw [h.readBytes] at hu
    cases hu

/-- A misaligned or forbidden load aborts (R53). -/
theorem finishLoad_of_not_mayAccess {s : State} {a : Word} {n : Nat} (h : ¬MayAccess s .read a n)
    (put : List Byte → State → State) : finishLoad a n put s = raise (.dataAbort a) s := by
  rcases finishLoad_cases a n put s with ⟨ha, _⟩ | ⟨_, he⟩ | ⟨ha, _⟩
  · exact absurd ((accessible_iff_mayAccess _ _ _ _).mp ha) h
  · exact he
  · exact absurd ((accessible_iff_mayAccess _ _ _ _).mp ha) h

/-- A misaligned or forbidden store aborts (R54). -/
theorem finishStore_of_not_mayAccess {s : State} {a : Word} {n : Nat} (h : ¬MayAccess s .write a n) (v : Nat) :
    finishStore a n v s = raise (.dataAbort a) s := by
  rcases finishStore_cases a n v s with ⟨ha, _⟩ | ⟨_, he⟩
  · exact absurd ((accessible_iff_mayAccess _ _ _ _).mp ha) h
  · exact he

/-- The bytes a store of the low 8n bits of `v` leaves in memory (R54). -/
theorem read_writeBytes_beBytes {w : Nat} (m : Memory) (a n : Nat) (v : BitVec w) (i : Nat) (hi : i < n) :
    Memory.read (Memory.writeBytes m a (beBytes n v.toNat)) (a + i) = some (v.extractLsb' (8 * (n - 1 - i)) 8) := by
  rw [Memory.read_writeBytes, if_pos (by simp; omega), Nat.add_sub_cancel_left, beBytes_getElem? _ _ _ hi,
    ofNat_div_eq_extractLsb']

/-- A store that may be made completes (R54, R185). -/
theorem finishStore_of_mayAccess {s : State} {a : Word} {n : Nat} (h : MayAccess s .write a n) (v : Word) :
    ∃ t, finishStore a n v.toNat s = .next t ∧ Stored a n v s t := by
  rcases finishStore_cases a n v.toNat s with ⟨_, he⟩ | ⟨ha, _⟩
  · refine ⟨_, he, ?_, ?_, fun _ => rfl, fun _ => rfl, rfl, rfl, ⟨rfl, rfl, rfl, rfl, rfl⟩, rfl⟩
    · intro i hi
      exact read_writeBytes_beBytes _ _ _ _ _ hi
    · intro c hc
      exact Memory.read_writeBytes_outside _ _ _ _ (by simpa using hc)
  · exact absurd h ((accessible_eq_false_iff _ _ _ _).mp ha)

/-! ## Loaded values -/

/-- One byte as a value of 8 bits. -/
theorem ofNat_beNat_one (b : Nat → Byte) : BitVec.ofNat 8 (beNat ((List.range 1).map b)) = b 0 := by
  simp [beNat]

/-- Two bytes as a value of 16 bits (R52). -/
theorem ofNat_beNat_two (b : Nat → Byte) : BitVec.ofNat 16 (beNat ((List.range 2).map b)) = be16 b := by
  apply BitVec.eq_of_toNat_eq
  have h0 := (b 0).isLt
  have h1 := (b 1).isLt
  simp only [be16, BitVec.toNat_append, BitVec.toNat_ofNat]
  rw [← Nat.shiftLeft_add_eq_or_of_lt (by omega), Nat.shiftLeft_eq]
  simp [List.range_succ, beNat]
  omega

/-- Four bytes as a value of 32 bits (R52). -/
theorem ofNat_beNat_four (b : Nat → Byte) : BitVec.ofNat 32 (beNat ((List.range 4).map b)) = be32 b := by
  apply BitVec.eq_of_toNat_eq
  have h0 := (b 0).isLt
  have h1 := (b 1).isLt
  have h2 := (b 2).isLt
  have h3 := (b 3).isLt
  simp only [be32, BitVec.toNat_append, BitVec.toNat_ofNat]
  repeat rw [← Nat.shiftLeft_add_eq_or_of_lt (by omega)]
  simp only [Nat.shiftLeft_eq]
  simp [List.range_succ, beNat]
  omega

/-- Eight bytes as a value of 64 bits (R52). -/
theorem ofNat_beNat_eight (b : Nat → Byte) : BitVec.ofNat 64 (beNat ((List.range 8).map b)) = be64 b := by
  apply BitVec.eq_of_toNat_eq
  have h0 := (b 0).isLt
  have h1 := (b 1).isLt
  have h2 := (b 2).isLt
  have h3 := (b 3).isLt
  have h4 := (b 4).isLt
  have h5 := (b 5).isLt
  have h6 := (b 6).isLt
  have h7 := (b 7).isLt
  simp only [be64, BitVec.toNat_append, BitVec.toNat_ofNat]
  repeat rw [← Nat.shiftLeft_add_eq_or_of_lt (by omega)]
  simp only [Nat.shiftLeft_eq]
  simp [List.range_succ, beNat]
  omega

/-! ## Before an instruction's own rule -/

/-- What a fetch can give (R55). -/
theorem fetch_cases (s : State) :
    (s.pc.toNat % 4 ≠ 0 ∧ fetch s = .raised (.pcAlignment s.pc)) ∨
      (s.pc.toNat % 4 = 0 ∧ permitsAll s.cfg.memMap .fetch s.pc.toNat 4 = false ∧
        fetch s = .raised (.instructionAbort s.pc)) ∨
      (s.pc.toNat % 4 = 0 ∧ permitsAll s.cfg.memMap .fetch s.pc.toNat 4 = true ∧
        ∃ u, s.mem.readBytes s.pc.toNat 4 = .unwritten u ∧ fetch s = .unwritten u) ∨
      (s.pc.toNat % 4 = 0 ∧ permitsAll s.cfg.memMap .fetch s.pc.toNat 4 = true ∧
        ∃ bytes, s.mem.readBytes s.pc.toNat 4 = .ok bytes ∧ fetch s = .word (wordOfBytes bytes)) := by
  unfold fetch
  by_cases h4 : s.pc.toNat % 4 = 0
  · cases hp : permitsAll s.cfg.memMap .fetch s.pc.toNat 4 with
    | false => exact .inr (.inl ⟨h4, rfl, by simp [h4]⟩)
    | true =>
      cases hb : s.mem.readBytes s.pc.toNat 4 with
      | ok bytes => exact .inr (.inr (.inr ⟨h4, rfl, bytes, rfl, by simp [h4]⟩))
      | abort => exact absurd hb (Memory.readBytes_ne_abort _ _ _)
      | unwritten u => exact .inr (.inr (.inl ⟨h4, rfl, u, rfl, by simp [h4]⟩))
  · exact .inl ⟨h4, by simp [h4]⟩

/-- Where the word `w` can be fetched, the fetch gives it (R55). -/
theorem fetch_of_fetches {s : State} {w : InstrWord} (h : Fetches s w) : fetch s = .word w := by
  obtain ⟨_, _, ⟨h4, hp⟩, hw⟩ := h
  rcases fetch_cases s with ⟨h, _⟩ | ⟨_, h, _⟩ | ⟨_, _, u, h, _⟩ | ⟨_, _, bs, hb, he⟩
  · exact absurd h4 h
  · rw [(permitsAll_iff _ _ _ _).mpr hp] at h; cases h
  · obtain ⟨h1, h2, h3⟩ := Memory.readBytes_unwritten _ _ _ _ h
    have := hw (u - s.pc.toNat) (by omega)
    rw [show s.pc.toNat + (u - s.pc.toNat) = u by omega, h3] at this; cases this
  · rw [he]
    have : bs = bytesOfWord w := by
      obtain ⟨hl, hr⟩ := (Memory.readBytes_ok_iff _ _ _ _).mp hb
      apply List.ext_getElem?
      intro j
      by_cases hj : j < 4
      · rw [← hr j hj, hw j hj, bytesOfWord, beBytes_getElem? _ _ _ hj, ofNat_div_eq_extractLsb']
      · rw [List.getElem?_eq_none (by omega), List.getElem?_eq_none (by simp [bytesOfWord]; omega)]
    rw [this, wordOfBytes_bytesOfWord]

/-- What a fetch in a running state gives is the word at `pc` (R55). -/
theorem fetches_of_fetch {s : State} {w : InstrWord} (hr : s.run = .running) (hh : s.pc ≠ s.cfg.haltPc)
    (h : fetch s = .word w) : Fetches s w := by
  rcases fetch_cases s with ⟨_, he⟩ | ⟨_, _, he⟩ | ⟨_, _, u, _, he⟩ | ⟨h4, hp, bs, hb, he⟩ <;>
    rw [h] at he <;> cases he
  refine ⟨hr, hh, ⟨h4, (permitsAll_iff _ _ _ _).mp hp⟩, ?_⟩
  intro j hj
  obtain ⟨hl, hrd⟩ := (Memory.readBytes_ok_iff _ _ _ _).mp hb
  rw [hrd j hj]
  match bs, hl with
  | [b0, b1, b2, b3], _ =>
    have hx : wordOfBytes [b0, b1, b2, b3] = b0 ++ b1 ++ b2 ++ b3 := ofNat_beNat_four (fun i => [b0, b1, b2, b3].getD i 0)
    rw [hx]
    have e0 : (b0 ++ b1 ++ b2 ++ b3).extractLsb' 24 8 = b0 := by
      rw [BitVec.extractLsb'_append_eq_of_le (by decide), BitVec.extractLsb'_append_eq_of_le (by decide),
        BitVec.extractLsb'_append_eq_of_le (by decide)]
      exact BitVec.extractLsb'_eq_self
    have e1 : (b0 ++ b1 ++ b2 ++ b3).extractLsb' 16 8 = b1 := by
      rw [BitVec.extractLsb'_append_eq_of_le (by decide), BitVec.extractLsb'_append_eq_of_le (by decide),
        BitVec.extractLsb'_append_eq_of_add_le (by decide)]
      exact BitVec.extractLsb'_eq_self
    have e2 : (b0 ++ b1 ++ b2 ++ b3).extractLsb' 8 8 = b2 := by
      rw [BitVec.extractLsb'_append_eq_of_le (by decide), BitVec.extractLsb'_append_eq_of_add_le (by decide)]
      exact BitVec.extractLsb'_eq_self
    have e3 : (b0 ++ b1 ++ b2 ++ b3).extractLsb' 0 8 = b3 := by
      rw [BitVec.extractLsb'_append_eq_of_add_le (by decide)]
      exact BitVec.extractLsb'_eq_self
    have : j = 0 ∨ j = 1 ∨ j = 2 ∨ j = 3 := by omega
    rcases this with rfl | rfl | rfl | rfl
    · exact congrArg some e0.symm
    · exact congrArg some e1.symm
    · exact congrArg some e2.symm
    · exact congrArg some e3.symm

/-- What one step does (R10, R256): repeat a terminal state, end the run, raise at the fetch, stop, or run one
instruction. -/
theorem step_cases (s : State) :
    ((s.run = .ended ∨ ∃ ec, s.run = .faulted ec) ∧ step s = .next s) ∨
      (s.run = .running ∧ s.pc = s.cfg.haltPc ∧ step s = .next { s with run := .ended }) ∨
      (s.run = .running ∧ s.pc ≠ s.cfg.haltPc ∧ ∃ e, fetch s = .raised e ∧ step s = raise e s) ∨
      (s.run = .running ∧ s.pc ≠ s.cfg.haltPc ∧ ∃ u, fetch s = .unwritten u ∧ step s = .fault (.unwrittenRead u)) ∨
      (s.run = .running ∧ s.pc ≠ s.cfg.haltPc ∧ ∃ w, fetch s = .word w ∧
        ((decode s.cfg.unusedFields w = .undefined ∧ step s = raise .unknown s) ∨
          (∃ why, decode s.cfg.unusedFields w = .refused why ∧ step s = .refused (.refusedWord why)) ∨
          (∃ i, decode s.cfg.unusedFields w = .instr i ∧ step s = exec i s))) := by
  unfold step prepare
  cases hr : s.run with
  | ended => exact .inl ⟨.inl rfl, rfl⟩
  | faulted ec => exact .inl ⟨.inr ⟨ec, rfl⟩, rfl⟩
  | running =>
    by_cases hh : s.pc = s.cfg.haltPc
    · exact .inr (.inl ⟨rfl, hh, by simp [hh]⟩)
    · simp only [hh, if_false, prepareRunning, ne_eq, not_false_eq_true, true_and]
      cases hf : fetch s with
      | raised e => exact .inr (.inr (.inl ⟨e, rfl, rfl⟩))
      | unwritten u => exact .inr (.inr (.inr (.inl ⟨u, rfl, rfl⟩)))
      | word w =>
        refine .inr (.inr (.inr (.inr ⟨w, rfl, ?_⟩)))
        dsimp only
        cases hd : decode s.cfg.unusedFields w with
        | undefined => exact .inl ⟨rfl, rfl⟩
        | refused why => exact .inr (.inl ⟨why, rfl, rfl⟩)
        | instr i => exact .inr (.inr ⟨i, rfl, rfl⟩)

end Sys2Proof.Machine
end

