-- ==== Sys2Proof/Laws/PerInstr.lean ====
section
/-! SUPPORT. Facts about each instruction as syntax, one lemma per constructor. Family `EncodeRow`: the canonical word of an
instruction lies in the instruction's own row of the opcode table (spec/30_encoding.md R82, R89, R94). -/

namespace Sys2Proof.Laws.EncodeRow

/-- The word an instruction is encoded as belongs to its row. -/
def Statement (i : Instr) : Prop := rowOf (encode i) = some i.row

/-- Every 11-bit opcode that starts with `000101` is in the row's range (R82). -/
theorem inRange_find_b : ∀ rest : BitVec 5,
    opcodeTable.find? (inRange (0b000101#6 ++ rest)) = some ⟨.b, 0x0A0, 0x0BF, none⟩ := by decide

theorem b (address : BitVec 26) : Statement (.b address) := by
  unfold Statement rowOf encode
  rw [op11Field_encodeB]
  exact rowFor_of_inRange _ _ ⟨.b, 0x0A0, 0x0BF, none⟩ (inRange_find_b _) rfl

theorem fmuls (rd rn rm : Reg) : Statement (.fmuls rd rn rm) := by
  unfold Statement rowOf encode
  rw [op11Field_encodeR, shamtField_encodeR]
  rfl

theorem fdivs (rd rn rm : Reg) : Statement (.fdivs rd rn rm) := by
  unfold Statement rowOf encode
  rw [op11Field_encodeR, shamtField_encodeR]
  rfl

theorem fcmps (rn rm : Reg) : Statement (.fcmps rn rm) := by
  unfold Statement rowOf encode
  rw [op11Field_encodeR, shamtField_encodeR]
  rfl

theorem fadds (rd rn rm : Reg) : Statement (.fadds rd rn rm) := by
  unfold Statement rowOf encode
  rw [op11Field_encodeR, shamtField_encodeR]
  rfl

theorem fsubs (rd rn rm : Reg) : Statement (.fsubs rd rn rm) := by
  unfold Statement rowOf encode
  rw [op11Field_encodeR, shamtField_encodeR]
  rfl

theorem fmuld (rd rn rm : Reg) : Statement (.fmuld rd rn rm) := by
  unfold Statement rowOf encode
  rw [op11Field_encodeR, shamtField_encodeR]
  rfl

theorem fdivd (rd rn rm : Reg) : Statement (.fdivd rd rn rm) := by
  unfold Statement rowOf encode
  rw [op11Field_encodeR, shamtField_encodeR]
  rfl

theorem fcmpd (rn rm : Reg) : Statement (.fcmpd rn rm) := by
  unfold Statement rowOf encode
  rw [op11Field_encodeR, shamtField_encodeR]
  rfl

theorem faddd (rd rn rm : Reg) : Statement (.faddd rd rn rm) := by
  unfold Statement rowOf encode
  rw [op11Field_encodeR, shamtField_encodeR]
  rfl

theorem fsubd (rd rn rm : Reg) : Statement (.fsubd rd rn rm) := by
  unfold Statement rowOf encode
  rw [op11Field_encodeR, shamtField_encodeR]
  rfl

theorem sturb (rt rn : Reg) (offset : BitVec 9) : Statement (.sturb rt rn offset) := by
  unfold Statement rowOf encode
  rw [op11Field_encodeD]
  exact rowFor_of_inRange _ _ ⟨.sturb, 0x1C0, 0x1C0, none⟩ rfl rfl

theorem ldurb (rt rn : Reg) (offset : BitVec 9) : Statement (.ldurb rt rn offset) := by
  unfold Statement rowOf encode
  rw [op11Field_encodeD]
  exact rowFor_of_inRange _ _ ⟨.ldurb, 0x1C2, 0x1C2, none⟩ rfl rfl

/-- Every 11-bit opcode that starts with `01010100` is in the row's range (R82). -/
theorem inRange_find_bCond : ∀ rest : BitVec 3,
    opcodeTable.find? (inRange (0b01010100#8 ++ rest)) = some ⟨.bCond, 0x2A0, 0x2A7, none⟩ := by decide

theorem bCond (cond : Cond) (address : BitVec 19) : Statement (.bCond cond address) := by
  unfold Statement rowOf encode
  rw [op11Field_encodeCB]
  exact rowFor_of_inRange _ _ ⟨.bCond, 0x2A0, 0x2A7, none⟩ (inRange_find_bCond _) rfl

theorem sturh (rt rn : Reg) (offset : BitVec 9) : Statement (.sturh rt rn offset) := by
  unfold Statement rowOf encode
  rw [op11Field_encodeD]
  exact rowFor_of_inRange _ _ ⟨.sturh, 0x3C0, 0x3C0, none⟩ rfl rfl

theorem ldurh (rt rn : Reg) (offset : BitVec 9) : Statement (.ldurh rt rn offset) := by
  unfold Statement rowOf encode
  rw [op11Field_encodeD]
  exact rowFor_of_inRange _ _ ⟨.ldurh, 0x3C2, 0x3C2, none⟩ rfl rfl

theorem and (rd rn rm : Reg) : Statement (.and rd rn rm) := by
  unfold Statement rowOf encode
  rw [op11Field_encodeR]
  exact rowFor_of_inRange _ _ ⟨.and, 0x450, 0x450, none⟩ rfl rfl

theorem add (rd rn rm : Reg) : Statement (.add rd rn rm) := by
  unfold Statement rowOf encode
  rw [op11Field_encodeR]
  exact rowFor_of_inRange _ _ ⟨.add, 0x458, 0x458, none⟩ rfl rfl

/-- Every 11-bit opcode that starts with `1001000100` is in the row's range (R82). -/
theorem inRange_find_addi : ∀ rest : BitVec 1,
    opcodeTable.find? (inRange (0b1001000100#10 ++ rest)) = some ⟨.addi, 0x488, 0x489, none⟩ := by decide

theorem addi (rd rn : Reg) (imm : BitVec 12) : Statement (.addi rd rn imm) := by
  unfold Statement rowOf encode
  rw [op11Field_encodeI]
  exact rowFor_of_inRange _ _ ⟨.addi, 0x488, 0x489, none⟩ (inRange_find_addi _) rfl

/-- Every 11-bit opcode that starts with `1001001000` is in the row's range (R82). -/
theorem inRange_find_andi : ∀ rest : BitVec 1,
    opcodeTable.find? (inRange (0b1001001000#10 ++ rest)) = some ⟨.andi, 0x490, 0x491, none⟩ := by decide

theorem andi (rd rn : Reg) (imm : BitVec 12) : Statement (.andi rd rn imm) := by
  unfold Statement rowOf encode
  rw [op11Field_encodeI]
  exact rowFor_of_inRange _ _ ⟨.andi, 0x490, 0x491, none⟩ (inRange_find_andi _) rfl

/-- Every 11-bit opcode that starts with `100101` is in the row's range (R82). -/
theorem inRange_find_bl : ∀ rest : BitVec 5,
    opcodeTable.find? (inRange (0b100101#6 ++ rest)) = some ⟨.bl, 0x4A0, 0x4BF, none⟩ := by decide

theorem bl (address : BitVec 26) : Statement (.bl address) := by
  unfold Statement rowOf encode
  rw [op11Field_encodeB]
  exact rowFor_of_inRange _ _ ⟨.bl, 0x4A0, 0x4BF, none⟩ (inRange_find_bl _) rfl

theorem sdiv (rd rn rm : Reg) : Statement (.sdiv rd rn rm) := by
  unfold Statement rowOf encode
  rw [op11Field_encodeR, shamtField_encodeR]
  rfl

theorem udiv (rd rn rm : Reg) : Statement (.udiv rd rn rm) := by
  unfold Statement rowOf encode
  rw [op11Field_encodeR, shamtField_encodeR]
  rfl

theorem mul (rd rn rm : Reg) : Statement (.mul rd rn rm) := by
  unfold Statement rowOf encode
  rw [op11Field_encodeR, shamtField_encodeR]
  rfl

theorem smulh (rd rn rm : Reg) : Statement (.smulh rd rn rm) := by
  unfold Statement rowOf encode
  rw [op11Field_encodeR]
  exact rowFor_of_inRange _ _ ⟨.smulh, 0x4DA, 0x4DA, none⟩ rfl rfl

theorem umulh (rd rn rm : Reg) : Statement (.umulh rd rn rm) := by
  unfold Statement rowOf encode
  rw [op11Field_encodeR]
  exact rowFor_of_inRange _ _ ⟨.umulh, 0x4DE, 0x4DE, none⟩ rfl rfl

theorem orr (rd rn rm : Reg) : Statement (.orr rd rn rm) := by
  unfold Statement rowOf encode
  rw [op11Field_encodeR]
  exact rowFor_of_inRange _ _ ⟨.orr, 0x550, 0x550, none⟩ rfl rfl

theorem adds (rd rn rm : Reg) : Statement (.adds rd rn rm) := by
  unfold Statement rowOf encode
  rw [op11Field_encodeR]
  exact rowFor_of_inRange _ _ ⟨.adds, 0x558, 0x558, none⟩ rfl rfl

/-- Every 11-bit opcode that starts with `1011000100` is in the row's range (R82). -/
theorem inRange_find_addis : ∀ rest : BitVec 1,
    opcodeTable.find? (inRange (0b1011000100#10 ++ rest)) = some ⟨.addis, 0x588, 0x589, none⟩ := by decide

theorem addis (rd rn : Reg) (imm : BitVec 12) : Statement (.addis rd rn imm) := by
  unfold Statement rowOf encode
  rw [op11Field_encodeI]
  exact rowFor_of_inRange _ _ ⟨.addis, 0x588, 0x589, none⟩ (inRange_find_addis _) rfl

/-- Every 11-bit opcode that starts with `1011001000` is in the row's range (R82). -/
theorem inRange_find_orri : ∀ rest : BitVec 1,
    opcodeTable.find? (inRange (0b1011001000#10 ++ rest)) = some ⟨.orri, 0x590, 0x591, none⟩ := by decide

theorem orri (rd rn : Reg) (imm : BitVec 12) : Statement (.orri rd rn imm) := by
  unfold Statement rowOf encode
  rw [op11Field_encodeI]
  exact rowFor_of_inRange _ _ ⟨.orri, 0x590, 0x591, none⟩ (inRange_find_orri _) rfl

/-- Every 11-bit opcode that starts with `10110100` is in the row's range (R82). -/
theorem inRange_find_cbz : ∀ rest : BitVec 3,
    opcodeTable.find? (inRange (0b10110100#8 ++ rest)) = some ⟨.cbz, 0x5A0, 0x5A7, none⟩ := by decide

theorem cbz (rt : Reg) (address : BitVec 19) : Statement (.cbz rt address) := by
  unfold Statement rowOf encode
  rw [op11Field_encodeCB]
  exact rowFor_of_inRange _ _ ⟨.cbz, 0x5A0, 0x5A7, none⟩ (inRange_find_cbz _) rfl

/-- Every 11-bit opcode that starts with `10110101` is in the row's range (R82). -/
theorem inRange_find_cbnz : ∀ rest : BitVec 3,
    opcodeTable.find? (inRange (0b10110101#8 ++ rest)) = some ⟨.cbnz, 0x5A8, 0x5AF, none⟩ := by decide

theorem cbnz (rt : Reg) (address : BitVec 19) : Statement (.cbnz rt address) := by
  unfold Statement rowOf encode
  rw [op11Field_encodeCB]
  exact rowFor_of_inRange _ _ ⟨.cbnz, 0x5A8, 0x5AF, none⟩ (inRange_find_cbnz _) rfl

theorem sturw (rt rn : Reg) (offset : BitVec 9) : Statement (.sturw rt rn offset) := by
  unfold Statement rowOf encode
  rw [op11Field_encodeD]
  exact rowFor_of_inRange _ _ ⟨.sturw, 0x5C0, 0x5C0, none⟩ rfl rfl

theorem ldursw (rt rn : Reg) (offset : BitVec 9) : Statement (.ldursw rt rn offset) := by
  unfold Statement rowOf encode
  rw [op11Field_encodeD]
  exact rowFor_of_inRange _ _ ⟨.ldursw, 0x5C4, 0x5C4, none⟩ rfl rfl

theorem sturs (rt rn : Reg) (offset : BitVec 9) : Statement (.sturs rt rn offset) := by
  unfold Statement rowOf encode
  rw [op11Field_encodeD]
  exact rowFor_of_inRange _ _ ⟨.sturs, 0x5E0, 0x5E0, none⟩ rfl rfl

theorem ldurs (rt rn : Reg) (offset : BitVec 9) : Statement (.ldurs rt rn offset) := by
  unfold Statement rowOf encode
  rw [op11Field_encodeD]
  exact rowFor_of_inRange _ _ ⟨.ldurs, 0x5E2, 0x5E2, none⟩ rfl rfl

theorem stxr (rs rt rn : Reg) : Statement (.stxr rs rt rn) := by
  unfold Statement rowOf encode
  rw [op11Field_encodeD]
  exact rowFor_of_inRange _ _ ⟨.stxr, 0x640, 0x640, none⟩ rfl rfl

theorem ldxr (rt rn : Reg) : Statement (.ldxr rt rn) := by
  unfold Statement rowOf encode
  rw [op11Field_encodeD]
  exact rowFor_of_inRange _ _ ⟨.ldxr, 0x642, 0x642, none⟩ rfl rfl

theorem eor (rd rn rm : Reg) : Statement (.eor rd rn rm) := by
  unfold Statement rowOf encode
  rw [op11Field_encodeR]
  exact rowFor_of_inRange _ _ ⟨.eor, 0x650, 0x650, none⟩ rfl rfl

theorem sub (rd rn rm : Reg) : Statement (.sub rd rn rm) := by
  unfold Statement rowOf encode
  rw [op11Field_encodeR]
  exact rowFor_of_inRange _ _ ⟨.sub, 0x658, 0x658, none⟩ rfl rfl

/-- Every 11-bit opcode that starts with `1101000100` is in the row's range (R82). -/
theorem inRange_find_subi : ∀ rest : BitVec 1,
    opcodeTable.find? (inRange (0b1101000100#10 ++ rest)) = some ⟨.subi, 0x688, 0x689, none⟩ := by decide

theorem subi (rd rn : Reg) (imm : BitVec 12) : Statement (.subi rd rn imm) := by
  unfold Statement rowOf encode
  rw [op11Field_encodeI]
  exact rowFor_of_inRange _ _ ⟨.subi, 0x688, 0x689, none⟩ (inRange_find_subi _) rfl

/-- Every 11-bit opcode that starts with `1101001000` is in the row's range (R82). -/
theorem inRange_find_eori : ∀ rest : BitVec 1,
    opcodeTable.find? (inRange (0b1101001000#10 ++ rest)) = some ⟨.eori, 0x690, 0x691, none⟩ := by decide

theorem eori (rd rn : Reg) (imm : BitVec 12) : Statement (.eori rd rn imm) := by
  unfold Statement rowOf encode
  rw [op11Field_encodeI]
  exact rowFor_of_inRange _ _ ⟨.eori, 0x690, 0x691, none⟩ (inRange_find_eori _) rfl

/-- Every 11-bit opcode that starts with `110100101` is in the row's range (R82). -/
theorem inRange_find_movz : ∀ rest : BitVec 2,
    opcodeTable.find? (inRange (0b110100101#9 ++ rest)) = some ⟨.movz, 0x694, 0x697, none⟩ := by decide

theorem movz (rd : Reg) (imm : BitVec 16) (hw : BitVec 2) : Statement (.movz rd imm hw) := by
  unfold Statement rowOf encode
  rw [op11Field_encodeIM]
  exact rowFor_of_inRange _ _ ⟨.movz, 0x694, 0x697, none⟩ (inRange_find_movz _) rfl

theorem lsr (rd rn : Reg) (shamt : BitVec 6) : Statement (.lsr rd rn shamt) := by
  unfold Statement rowOf encode
  rw [op11Field_encodeR]
  exact rowFor_of_inRange _ _ ⟨.lsr, 0x69A, 0x69A, none⟩ rfl rfl

theorem lsl (rd rn : Reg) (shamt : BitVec 6) : Statement (.lsl rd rn shamt) := by
  unfold Statement rowOf encode
  rw [op11Field_encodeR]
  exact rowFor_of_inRange _ _ ⟨.lsl, 0x69B, 0x69B, none⟩ rfl rfl

theorem br (rn : Reg) : Statement (.br rn) := by
  unfold Statement rowOf encode
  rw [op11Field_encodeR]
  exact rowFor_of_inRange _ _ ⟨.br, 0x6B0, 0x6B0, none⟩ rfl rfl

theorem ands (rd rn rm : Reg) : Statement (.ands rd rn rm) := by
  unfold Statement rowOf encode
  rw [op11Field_encodeR]
  exact rowFor_of_inRange _ _ ⟨.ands, 0x750, 0x750, none⟩ rfl rfl

theorem subs (rd rn rm : Reg) : Statement (.subs rd rn rm) := by
  unfold Statement rowOf encode
  rw [op11Field_encodeR]
  exact rowFor_of_inRange _ _ ⟨.subs, 0x758, 0x758, none⟩ rfl rfl

/-- Every 11-bit opcode that starts with `1111000100` is in the row's range (R82). -/
theorem inRange_find_subis : ∀ rest : BitVec 1,
    opcodeTable.find? (inRange (0b1111000100#10 ++ rest)) = some ⟨.subis, 0x788, 0x789, none⟩ := by decide

theorem subis (rd rn : Reg) (imm : BitVec 12) : Statement (.subis rd rn imm) := by
  unfold Statement rowOf encode
  rw [op11Field_encodeI]
  exact rowFor_of_inRange _ _ ⟨.subis, 0x788, 0x789, none⟩ (inRange_find_subis _) rfl

/-- Every 11-bit opcode that starts with `1111001000` is in the row's range (R82). -/
theorem inRange_find_andis : ∀ rest : BitVec 1,
    opcodeTable.find? (inRange (0b1111001000#10 ++ rest)) = some ⟨.andis, 0x790, 0x791, none⟩ := by decide

theorem andis (rd rn : Reg) (imm : BitVec 12) : Statement (.andis rd rn imm) := by
  unfold Statement rowOf encode
  rw [op11Field_encodeI]
  exact rowFor_of_inRange _ _ ⟨.andis, 0x790, 0x791, none⟩ (inRange_find_andis _) rfl

/-- Every 11-bit opcode that starts with `111100101` is in the row's range (R82). -/
theorem inRange_find_movk : ∀ rest : BitVec 2,
    opcodeTable.find? (inRange (0b111100101#9 ++ rest)) = some ⟨.movk, 0x794, 0x797, none⟩ := by decide

theorem movk (rd : Reg) (imm : BitVec 16) (hw : BitVec 2) : Statement (.movk rd imm hw) := by
  unfold Statement rowOf encode
  rw [op11Field_encodeIM]
  exact rowFor_of_inRange _ _ ⟨.movk, 0x794, 0x797, none⟩ (inRange_find_movk _) rfl

theorem stur (rt rn : Reg) (offset : BitVec 9) : Statement (.stur rt rn offset) := by
  unfold Statement rowOf encode
  rw [op11Field_encodeD]
  exact rowFor_of_inRange _ _ ⟨.stur, 0x7C0, 0x7C0, none⟩ rfl rfl

theorem ldur (rt rn : Reg) (offset : BitVec 9) : Statement (.ldur rt rn offset) := by
  unfold Statement rowOf encode
  rw [op11Field_encodeD]
  exact rowFor_of_inRange _ _ ⟨.ldur, 0x7C2, 0x7C2, none⟩ rfl rfl

theorem sturd (rt rn : Reg) (offset : BitVec 9) : Statement (.sturd rt rn offset) := by
  unfold Statement rowOf encode
  rw [op11Field_encodeD]
  exact rowFor_of_inRange _ _ ⟨.sturd, 0x7E0, 0x7E0, none⟩ rfl rfl

theorem ldurd (rt rn : Reg) (offset : BitVec 9) : Statement (.ldurd rt rn offset) := by
  unfold Statement rowOf encode
  rw [op11Field_encodeD]
  exact rowFor_of_inRange _ _ ⟨.ldurd, 0x7E2, 0x7E2, none⟩ rfl rfl

end Sys2Proof.Laws.EncodeRow
end

