-- ==== Sys2Proof/Laws/Words.lean ====
section
/-! SUPPORT. The words of the layouts as the "word = …" lines of the rules write them: a base word, or-ed with the shifted
fields (spec/30_encoding.md R83 to R88). -/

namespace Sys2Proof

/-- Format R: the base word holds the opcode and the Shamt. -/
theorem encodeR_eq_wordR (op : BitVec 11) (rm : Reg) (sh : BitVec 6) (rn rd : Reg) :
    encodeR op rm sh rn rd = wordR ((op.setWidth 32 <<< 21) ||| (sh.setWidth 32 <<< 10)) rm rn rd := by
  rw [encodeR_eq_or, wordR, BitVec.or_assoc (op.setWidth 32 <<< 21), BitVec.or_comm (rm.setWidth 32 <<< 16),
    ← BitVec.or_assoc]

/-- Format R on a row whose `shamt` is an operand. -/
theorem encodeR_eq_wordI (op : BitVec 11) (sh : BitVec 6) (rn rd : Reg) :
    encodeR op 0#5 sh rn rd = wordI (op.setWidth 32 <<< 21) (sh.setWidth 12) rn rd := by
  have h : ((sh.setWidth 12).setWidth 32 : InstrWord) = sh.setWidth 32 := by
    apply BitVec.eq_of_toNat_eq
    simp
  rw [encodeR_eq_or, wordI, h]
  simp

/-- Format I. -/
theorem encodeI_eq_wordI (op : BitVec 10) (imm : BitVec 12) (rn rd : Reg) :
    encodeI op imm rn rd = wordI (op.setWidth 32 <<< 22) imm rn rd := encodeI_eq_or op imm rn rd

/-- Format D with `op = 00`. -/
theorem encodeD_eq_wordD (op : BitVec 11) (dt : BitVec 9) (rn rt : Reg) :
    encodeD op dt 0#2 rn rt = wordD (op.setWidth 32 <<< 21) dt rn rt := by
  rw [encodeD_eq_or, wordD]
  simp

/-- Format D as `STXR` uses it: a status register in the top five bits of `DT_address` (R179). -/
theorem encodeD_eq_wordR (op : BitVec 11) (rs rn rt : Reg) :
    encodeD op (rs ++ 0#4) 0#2 rn rt = wordR (op.setWidth 32 <<< 21) rs rn rt := by
  have h : ((rs ++ 0#4).setWidth 32 <<< 12 : InstrWord) = rs.setWidth 32 <<< 16 := by
    rw [append_setWidth_eq_or]
    simp [← BitVec.shiftLeft_add]
  rw [encodeD_eq_or, wordR, h]
  simp

/-- Format CB. -/
theorem encodeCB_eq_wordCB (op : BitVec 8) (address : BitVec 19) (rt : Reg) :
    encodeCB op address rt = wordCB (op.setWidth 32 <<< 24) address rt := encodeCB_eq_or op address rt

/-- Format IM. -/
theorem encodeIM_eq_wordIM (op : BitVec 9) (hw : BitVec 2) (imm : BitVec 16) (rd : Reg) :
    encodeIM op hw imm rd = wordIM (op.setWidth 32 <<< 23) hw imm rd := encodeIM_eq_or op hw imm rd

end Sys2Proof
end

