-- ==== Sys2Proof/Tests/Slice0.lean ====
section
/-! SUPPORT. Tests of the model on the spec's own words and vectors (the Example lines of the instruction rules and
95_test_vectors.md), and for every obligation that has hypotheses a concrete case that meets them. -/

open Sys2Proof Sys2Proof.Machine

namespace Sys2Proof.Tests

/-! ## Well-formed instructions: the one check (R179) -/

theorem test_illFormed_stxr_status_is_data : (Instr.stxr 9#5 9#5 20#5).wellFormed = false := by decide
theorem test_illFormed_stxr_status_is_base : (Instr.stxr 20#5 23#5 20#5).wellFormed = false := by decide
theorem test_wellFormed_stxr_status_discarded : (Instr.stxr 31#5 31#5 31#5).wellFormed = true := by decide

/-! ## Decoding: the word of each instruction's rule, its fields written out (R83 to R88) -/

theorem test_decode_b : decode .refuse 0b000101_11111111111111111111111111#32 =
    .instr (.b 0x3FFFFFF#26) := by decide
theorem test_decode_fmuls : decode .refuse 0b00011110001_00110_000010_00100_00010#32 =
    .instr (.fmuls 2#5 4#5 6#5) := by decide
theorem test_decode_fdivs : decode .refuse 0b00011110001_00010_000110_00001_00000#32 =
    .instr (.fdivs 0#5 1#5 2#5) := by decide
theorem test_decode_fcmps : decode .refuse 0b00011110001_00110_001000_00100_00000#32 =
    .instr (.fcmps 4#5 6#5) := by decide
theorem test_decode_fadds : decode .refuse 0b00011110001_00110_001010_00100_00010#32 =
    .instr (.fadds 2#5 4#5 6#5) := by decide
theorem test_decode_fsubs : decode .refuse 0b00011110001_00011_001110_00010_00001#32 =
    .instr (.fsubs 1#5 2#5 3#5) := by decide
theorem test_decode_fmuld : decode .refuse 0b00011110011_00110_000010_00100_00010#32 =
    .instr (.fmuld 2#5 4#5 6#5) := by decide
theorem test_decode_fdivd : decode .refuse 0b00011110011_00010_000110_00001_00000#32 =
    .instr (.fdivd 0#5 1#5 2#5) := by decide
theorem test_decode_fcmpd : decode .refuse 0b00011110011_00010_001000_00001_00000#32 =
    .instr (.fcmpd 1#5 2#5) := by decide
theorem test_decode_faddd : decode .refuse 0b00011110011_00110_001010_00100_00010#32 =
    .instr (.faddd 2#5 4#5 6#5) := by decide
theorem test_decode_fsubd : decode .refuse 0b00011110011_00011_001110_00010_00001#32 =
    .instr (.fsubd 1#5 2#5 3#5) := by decide
theorem test_decode_sturb : decode .refuse 0b00111000000_000000011_00_01010_01001#32 =
    .instr (.sturb 9#5 10#5 3#9) := by decide
theorem test_decode_ldurb : decode .refuse 0b00111000010_000000011_00_01010_01001#32 =
    .instr (.ldurb 9#5 10#5 3#9) := by decide
theorem test_decode_bCond : decode .refuse 0b01010100_0000000000000000010_00001#32 =
    .instr (.bCond .ne 2#19) := by decide
theorem test_decode_sturh : decode .refuse 0b01111000000_000000010_00_01010_01001#32 =
    .instr (.sturh 9#5 10#5 2#9) := by decide
theorem test_decode_ldurh : decode .refuse 0b01111000010_111111110_00_01010_01001#32 =
    .instr (.ldurh 9#5 10#5 0x1FE#9) := by decide
theorem test_decode_and : decode .refuse 0b10001010000_01011_000000_01010_01001#32 =
    .instr (.and 9#5 10#5 11#5) := by decide
theorem test_decode_add : decode .refuse 0b10001011000_01010_000000_10101_01001#32 =
    .instr (.add 9#5 21#5 10#5) := by decide
theorem test_decode_addi : decode .refuse 0b1001000100_000000000100_10110_10110#32 =
    .instr (.addi 22#5 22#5 4#12) := by decide
theorem test_decode_andi : decode .refuse 0b1001001000_000011111111_01010_01001#32 =
    .instr (.andi 9#5 10#5 0xFF#12) := by decide
theorem test_decode_bl : decode .refuse 0b100101_00000000000000000000010000#32 =
    .instr (.bl 16#26) := by decide
theorem test_decode_sdiv : decode .refuse 0b10011010110_01011_000010_01010_01001#32 =
    .instr (.sdiv 9#5 10#5 11#5) := by decide
theorem test_decode_udiv : decode .refuse 0b10011010110_01011_000011_01010_01001#32 =
    .instr (.udiv 9#5 10#5 11#5) := by decide
theorem test_decode_mul : decode .refuse 0b10011011000_01011_011111_01010_01001#32 =
    .instr (.mul 9#5 10#5 11#5) := by decide
theorem test_decode_smulh : decode .refuse 0b10011011010_01011_000000_01010_01001#32 =
    .instr (.smulh 9#5 10#5 11#5) := by decide
theorem test_decode_umulh : decode .refuse 0b10011011110_01011_000000_01010_01001#32 =
    .instr (.umulh 9#5 10#5 11#5) := by decide
theorem test_decode_orr : decode .refuse 0b10101010000_01011_000000_01010_01001#32 =
    .instr (.orr 9#5 10#5 11#5) := by decide
theorem test_decode_adds : decode .refuse 0b10101011000_01010_000000_10101_01001#32 =
    .instr (.adds 9#5 21#5 10#5) := by decide
theorem test_decode_addis : decode .refuse 0b1011000100_000000000001_01010_01001#32 =
    .instr (.addis 9#5 10#5 1#12) := by decide
theorem test_decode_orri : decode .refuse 0b1011001000_111100001111_01010_01001#32 =
    .instr (.orri 9#5 10#5 0xF0F#12) := by decide
theorem test_decode_cbz : decode .refuse 0b10110100_0000000000000000011_01001#32 =
    .instr (.cbz 9#5 3#19) := by decide
theorem test_decode_cbnz : decode .refuse 0b10110101_1111111111111111110_01010#32 =
    .instr (.cbnz 10#5 0x7FFFE#19) := by decide
theorem test_decode_sturw : decode .refuse 0b10111000000_000000100_00_01010_01001#32 =
    .instr (.sturw 9#5 10#5 4#9) := by decide
theorem test_decode_ldursw : decode .refuse 0b10111000100_000000100_00_01010_01001#32 =
    .instr (.ldursw 9#5 10#5 4#9) := by decide
theorem test_decode_sturs : decode .refuse 0b10111100000_000000000_00_10011_00100#32 =
    .instr (.sturs 4#5 19#5 0#9) := by decide
theorem test_decode_ldurs : decode .refuse 0b10111100010_000000100_00_10011_00100#32 =
    .instr (.ldurs 4#5 19#5 4#9) := by decide
theorem test_decode_stxr : decode .refuse 0b11001000000_01001_000000_10100_10111#32 =
    .instr (.stxr 9#5 23#5 20#5) := by decide
theorem test_decode_ldxr : decode .refuse 0b11001000010_000000000_00_10100_01010#32 =
    .instr (.ldxr 10#5 20#5) := by decide
theorem test_decode_eor : decode .refuse 0b11001010000_01011_000000_01010_01001#32 =
    .instr (.eor 9#5 10#5 11#5) := by decide
theorem test_decode_sub : decode .refuse 0b11001011000_01011_000000_01010_01001#32 =
    .instr (.sub 9#5 10#5 11#5) := by decide
theorem test_decode_subi : decode .refuse 0b1101000100_000000011000_11100_11100#32 =
    .instr (.subi 28#5 28#5 24#12) := by decide
theorem test_decode_eori : decode .refuse 0b1101001000_111111111111_01010_01001#32 =
    .instr (.eori 9#5 10#5 0xFFF#12) := by decide
theorem test_decode_movz : decode .refuse 0b110100101_01_0000000011111111_01001#32 =
    .instr (.movz 9#5 255#16 1#2) := by decide
theorem test_decode_lsr : decode .refuse 0b11010011010_00000_000100_10011_01011#32 =
    .instr (.lsr 11#5 19#5 4#6) := by decide
theorem test_decode_lsl : decode .refuse 0b11010011011_00000_000011_10011_01011#32 =
    .instr (.lsl 11#5 19#5 3#6) := by decide
theorem test_decode_br : decode .refuse 0b11010110000_00000_000000_11110_00000#32 =
    .instr (.br 30#5) := by decide
theorem test_decode_ands : decode .refuse 0b11101010000_01011_000000_01010_01001#32 =
    .instr (.ands 9#5 10#5 11#5) := by decide
theorem test_decode_subs : decode .refuse 0b11101011000_01011_000000_01010_11111#32 =
    .instr (.subs 31#5 10#5 11#5) := by decide
theorem test_decode_subis : decode .refuse 0b1111000100_000000001010_01010_11111#32 =
    .instr (.subis 31#5 10#5 10#12) := by decide
theorem test_decode_andis : decode .refuse 0b1111001000_100000000000_01010_01001#32 =
    .instr (.andis 9#5 10#5 0x800#12) := by decide
theorem test_decode_movk : decode .refuse 0b111100101_10_1011111011101111_01001#32 =
    .instr (.movk 9#5 0xBEEF#16 2#2) := by decide
theorem test_decode_stur : decode .refuse 0b11111000000_001000000_00_10110_01001#32 =
    .instr (.stur 9#5 22#5 64#9) := by decide
theorem test_decode_ldur : decode .refuse 0b11111000010_111111000_00_10110_01001#32 =
    .instr (.ldur 9#5 22#5 0x1F8#9) := by decide
theorem test_decode_sturd : decode .refuse 0b11111100000_000001000_00_10011_00100#32 =
    .instr (.sturd 4#5 19#5 8#9) := by decide
theorem test_decode_ldurd : decode .refuse 0b11111100010_000001000_00_10011_00100#32 =
    .instr (.ldurd 4#5 19#5 8#9) := by decide

/-! Words that decode to no instruction (95_test_vectors.md section 2). -/

theorem test_decode_sdiv_wrong_shamt : decode .ignore 0x9ACB0149#32 = .undefined := by decide
theorem test_decode_no_row : decode .refuse 0xFFFFFFFF#32 = .undefined := by decide
theorem test_decode_ret : decode .refuse 0xD65F03C0#32 = .undefined := by decide
theorem test_decode_fcmps_rd : decode .refuse 0x1E202008#32 = .refused (.unusedField .fcmps .rd) := by decide
theorem test_decode_smulh_a64 : decode .refuse 0x9B4B7D49#32 = .refused (.unusedField .smulh .shamt) := by decide
theorem test_decode_br_a64 : decode .refuse 0xD61F03C0#32 = .refused (.unusedField .br .rm) := by decide
theorem test_decode_br_a64_ignored : decode .ignore 0xD61F03C0#32 = .instr (.br 30#5) := by decide
theorem test_decode_lsl_rm : decode .refuse 0xD37DF26B#32 = .refused (.unusedField .lsl .rm) := by decide
theorem test_decode_cond_15 : decode .refuse 0x5400004F#32 = .refused (.condition 15#4) := by decide
theorem test_decode_bCond_bit_4 : decode .refuse 0x54000050#32 = .refused (.unusedField .bCond .rt4) := by decide
theorem test_decode_ldur_op : decode .refuse 0xF8400C00#32 = .refused (.unusedField .ldur .op) := by decide
theorem test_decode_ldxr_address : decode .refuse 0xC85F7E8A#32 = .refused (.unusedField .ldxr .dtAddress) := by decide
theorem test_decode_stxr_overlap : decode .refuse 0xC8140297#32 = .refused .stxrOverlap := by decide
theorem test_decode_stxr_discard : decode .refuse 0xC81F0297#32 = .instr (.stxr 31#5 23#5 20#5) := by decide

/-! ## Steps. Each starts in the reset state with a few registers set and one word at `pc`. -/

/-- The state at reset after `f`, with the word `w` where the next step fetches. -/
def start (w : Nat) (f : State → State) : State := (f State.reset).withFetchWord 32 w

/-- A register after one step. -/
def xAfter (r : Reg) (s : State) : Option Word :=
  match step s with
  | .next t => some (t.readX r)
  | .fault _ => none
  | .refused _ => none

/-- A floating-point register after one step. -/
def dAfter (r : Reg) (s : State) : Option Word :=
  match step s with
  | .next t => some (t.readD r)
  | .fault _ => none
  | .refused _ => none

/-- The flags after one step. -/
def flagsAfter (s : State) : Option Flags :=
  match step s with
  | .next t => some t.flags
  | .fault _ => none
  | .refused _ => none

/-- The program counter after one step. -/
def pcAfter (s : State) : Option Word :=
  match step s with
  | .next t => some t.pc
  | .fault _ => none
  | .refused _ => none

/-- The bytes from `a` up after one step. -/
def bytesAfter (a n : Nat) (s : State) : Option (List (Option Byte)) :=
  match step s with
  | .next t => some ((List.range n).map fun i => t.mem.read (a + i))
  | .fault _ => none
  | .refused _ => none

/-- The outcome of the run and the address recorded, after one step. -/
def endAfter (s : State) : Option (RunStatus × Option Word) :=
  match step s with
  | .next t => some (t.run, t.faultAddr)
  | .fault _ => none
  | .refused _ => none

/-- Two registers set. -/
def xx (a : Reg) (v : Word) (b : Reg) (w : Word) (s : State) : State := (s.writeX a v).writeX b w

/-- Two floating-point registers set. -/
def dd (a : Reg) (v : Word) (b : Reg) (w : Word) (s : State) : State := (s.writeD a v).writeD b w

/-- `x[10]` at an address and bytes in memory from another. -/
def mm (base : Reg) (v : Word) (a : Nat) (bytes : List Byte) (s : State) : State :=
  { s.writeX base v with mem := s.mem.writeBytes a bytes }

/-! Integer registers (95_test_vectors.md section 4). -/

theorem test_step_and : xAfter 9#5 (start 0x8A0B0149 (xx 10#5 0x00000000FFFF00FF#64 11#5 0x0F0F0F0F0F0F0F0F#64)) =
    some 0x000000000F0F000F#64 := by decide
theorem test_step_orr : xAfter 9#5 (start 0xAA0B0149 (xx 10#5 0x00000000FFFF00FF#64 11#5 0x0F0F0F0F0F0F0F0F#64)) =
    some 0x0F0F0F0FFFFF0FFF#64 := by decide
theorem test_step_eor : xAfter 9#5 (start 0xCA0B0149 (xx 10#5 0x00000000FFFF00FF#64 11#5 0x0F0F0F0F0F0F0F0F#64)) =
    some 0x0F0F0F0FF0F00FF0#64 := by decide
theorem test_step_ands_flags : flagsAfter (start 0xEA0B0149 (xx 10#5 0x8000000000000001#64 11#5 0xF000000000000000#64)) =
    some ⟨true, false, false, false⟩ := by decide
theorem test_step_add_wraps : xAfter 9#5 (start 0x8B0A02A9 (xx 21#5 0xFFFFFFFFFFFFFFFF#64 10#5 1#64)) = some 0#64 := by
  decide
theorem test_step_adds_overflow : flagsAfter (start 0xAB0A02A9 (xx 21#5 0x7FFFFFFFFFFFFFFF#64 10#5 1#64)) =
    some ⟨true, false, false, true⟩ := by decide
theorem test_step_adds_carry_overflow :
    flagsAfter (start 0xAB0A02A9 (xx 21#5 0x8000000000000000#64 10#5 0x8000000000000000#64)) =
      some ⟨false, true, true, true⟩ := by decide
theorem test_step_sub : xAfter 9#5 (start 0xCB0B0149 (xx 10#5 5#64 11#5 7#64)) = some 0xFFFFFFFFFFFFFFFE#64 := by decide
theorem test_step_subs_overflow : flagsAfter (start 0xEB0B0149 (xx 10#5 0x8000000000000000#64 11#5 1#64)) =
    some ⟨false, false, true, true⟩ := by decide
theorem test_step_subs_zero : flagsAfter (start 0xEB1F03E9 id) = some ⟨false, true, true, false⟩ := by decide
theorem test_step_lsl : xAfter 11#5 (start 0xD3600E6B (xx 19#5 0x8000000000000005#64 0#5 0#64)) = some 0x28#64 := by decide
theorem test_step_lsr : xAfter 11#5 (start 0xD340126B (xx 19#5 0x8000000000000050#64 0#5 0#64)) =
    some 0x0800000000000005#64 := by decide

/-! Integer immediates (section 5). -/

theorem test_step_addi_zero_extends : xAfter 9#5 (start 0x913FFD49 (xx 10#5 0xFFFFFFFFFFFFFFFF#64 0#5 0#64)) =
    some 0xFFE#64 := by decide
theorem test_step_addis : flagsAfter (start 0xB1000549 (xx 10#5 0x7FFFFFFFFFFFFFFF#64 0#5 0#64)) =
    some ⟨true, false, false, true⟩ := by decide
theorem test_step_subi_zero_register : xAfter 9#5 (start 0xD10007E9 id) = some 0xFFFFFFFFFFFFFFFF#64 := by decide
theorem test_step_subis_borrow : flagsAfter (start 0xF1001549 (xx 10#5 4#64 0#5 0#64)) =
    some ⟨true, false, false, false⟩ := by decide
theorem test_step_andi : xAfter 9#5 (start 0x9203FD49 (xx 10#5 0x123456789ABCDEF0#64 0#5 0#64)) = some 0xF0#64 := by decide
theorem test_step_orri : xAfter 9#5 (start 0xB23C3D49 (xx 10#5 0x1000#64 0#5 0#64)) = some 0x1F0F#64 := by decide
theorem test_step_eori : xAfter 9#5 (start 0xD23FFD49 (xx 10#5 0xFFFF#64 0#5 0#64)) = some 0xF000#64 := by decide
theorem test_step_andis : flagsAfter (start 0xF2200149 (xx 10#5 0xFFFFFFFFFFFFFFFF#64 0#5 0#64)) =
    some ⟨false, false, false, false⟩ := by decide
theorem test_step_movz : xAfter 9#5 (start 0xD2FFFFE9 (xx 9#5 0x1#64 0#5 0#64)) = some 0xFFFF000000000000#64 := by decide
theorem test_step_movk : xAfter 9#5 (start 0xF2D7DDE9 (xx 9#5 0x1111222233334444#64 0#5 0#64)) =
    some 0x1111BEEF33334444#64 := by decide

/-! Multiply and divide (section 6). -/

theorem test_step_mul : xAfter 9#5 (start 0x9B0B7D49 (xx 10#5 0xFFFFFFFFFFFFFFFF#64 11#5 7#64)) =
    some 0xFFFFFFFFFFFFFFF9#64 := by decide
theorem test_step_smulh : xAfter 9#5 (start 0x9B4B0149 (xx 10#5 0xFFFFFFFFFFFFFFFF#64 11#5 7#64)) =
    some 0xFFFFFFFFFFFFFFFF#64 := by decide
theorem test_step_umulh : xAfter 9#5 (start 0x9BCB0149 (xx 10#5 0xFFFFFFFFFFFFFFFF#64 11#5 7#64)) = some 6#64 := by decide
theorem test_step_sdiv_toward_zero : xAfter 9#5 (start 0x9ACB0949 (xx 10#5 0xFFFFFFFFFFFFFFF9#64 11#5 2#64)) =
    some 0xFFFFFFFFFFFFFFFD#64 := by decide
theorem test_step_sdiv_overflow :
    xAfter 9#5 (start 0x9ACB0949 (xx 10#5 0x8000000000000000#64 11#5 0xFFFFFFFFFFFFFFFF#64)) =
      some 0x8000000000000000#64 := by decide
theorem test_step_udiv : xAfter 9#5 (start 0x9ACB0D49 (xx 10#5 0xFFFFFFFFFFFFFFFF#64 11#5 2#64)) =
    some 0x7FFFFFFFFFFFFFFF#64 := by decide
theorem test_step_udiv_by_zero : xAfter 9#5 (start 0x9ACB0D49 (xx 10#5 7#64 9#5 1#64)) = some 0#64 := by decide

/-! Branches (section 3). -/

theorem test_step_b_back : pcAfter (start 0x17FFFFFF id) = some 0x3FFFFC#64 := by decide
theorem test_step_bl_link : xAfter 30#5 (start 0x97FFFFF7 id) = some 0x400004#64 := by decide
theorem test_step_bl_target : pcAfter (start 0x94000010 fun s => { s with pc := 0x400020#64 }) = some 0x400060#64 := by
  decide
theorem test_step_bCond_taken : pcAfter (start 0x54000040 fun s => s.writeFlags ⟨false, true, true, false⟩) =
    some 0x400008#64 := by decide
theorem test_step_bCond_not_taken : pcAfter (start 0x5400008C fun s => s.writeFlags ⟨false, true, true, false⟩) =
    some 0x400004#64 := by decide
theorem test_step_cbz_taken : pcAfter (start 0xB400007F id) = some 0x40000C#64 := by decide
theorem test_step_cbz_not_taken : pcAfter (start 0xB4000069 (xx 9#5 1#64 0#5 0#64)) = some 0x400004#64 := by decide
theorem test_step_cbnz_taken : pcAfter (start 0xB5FFFFCA fun s => { s.writeX 10#5 5#64 with pc := 0x400010#64 }) =
    some 0x400008#64 := by decide
theorem test_step_cbnz_not_taken : pcAfter (start 0xB5FFFFCA id) = some 0x400004#64 := by decide
theorem test_step_br : pcAfter (start 0xD6000120 (xx 9#5 0x402#64 0#5 0#64)) = some 0x402#64 := by decide

/-- All fourteen conditions, in the order of their codes. -/
def allConds : List Cond := [.eq, .ne, .hs, .lo, .mi, .pl, .vs, .vc, .hi, .ls, .ge, .lt, .gt, .le]

theorem test_conditions_after_less : allConds.map (conditionHolds · ⟨true, false, false, false⟩) =
    [false, true, false, true, true, false, false, true, false, true, false, true, false, true] := by decide
theorem test_conditions_after_overflow : allConds.map (conditionHolds · ⟨false, false, true, true⟩) =
    [false, true, true, false, false, true, true, false, true, false, false, true, false, true] := by decide

/-! Loads and stores (the Example lines of 42_loads_stores.md and 95_test_vectors.md section 7). -/

theorem test_step_sturb : bytesAfter 0x2002 3 (start 0x38003149 (xx 9#5 0x1122334455667788#64 10#5 0x2000#64)) =
    some [none, some 0x88#8, none] := by decide
theorem test_step_ldurb : xAfter 9#5 (start 0x38403149 (mm 10#5 0x2000#64 0x2003 [0x84#8])) = some 0x84#64 := by decide
theorem test_step_sturh : bytesAfter 0x2002 3 (start 0x78002149 (xx 9#5 0x1122334455667788#64 10#5 0x2000#64)) =
    some [some 0x77#8, some 0x88#8, none] := by decide
theorem test_step_ldurh : xAfter 9#5 (start 0x785FE149 (mm 10#5 0x2004#64 0x2002 [0x33#8, 0x44#8])) =
    some 0x3344#64 := by decide
theorem test_step_ldurh_misaligned : endAfter (start 0x7840114B (mm 10#5 0x2000#64 0x2000 [1#8, 2#8, 3#8])) =
    some (.faulted .dataAbort, some 0x2001#64) := by decide
theorem test_step_sturw : bytesAfter 0x2004 5 (start 0xB8004149 (xx 9#5 0x1122334455667788#64 10#5 0x2000#64)) =
    some [some 0x55#8, some 0x66#8, some 0x77#8, some 0x88#8, none] := by decide
theorem test_step_ldursw_negative :
    xAfter 11#5 (start 0xB880014B (mm 10#5 0x2000#64 0x2000 [0x80#8, 0#8, 0#8, 1#8])) =
      some 0xFFFFFFFF80000001#64 := by decide
theorem test_step_ldursw_positive :
    xAfter 9#5 (start 0xB8804149 (mm 10#5 0x2000#64 0x2004 [0x55#8, 0x66#8, 0x77#8, 0x88#8])) =
      some 0x0000000055667788#64 := by decide
theorem test_step_stur : bytesAfter 0x2040 8 (start 0xF80402C9 (xx 9#5 0x1122334455667788#64 22#5 0x2000#64)) =
    some [some 0x11#8, some 0x22#8, some 0x33#8, some 0x44#8, some 0x55#8, some 0x66#8, some 0x77#8, some 0x88#8] := by
  decide
theorem test_step_ldur_negative_offset : xAfter 9#5
    (start 0xF85F82C9 (mm 22#5 0x2008#64 0x2000 [0x11#8, 0x22#8, 0x33#8, 0x44#8, 0x55#8, 0x66#8, 0x77#8, 0x88#8])) =
      some 0x1122334455667788#64 := by decide
theorem test_step_ldur_misaligned : endAfter (start 0xF840414B (xx 10#5 0x2000#64 0#5 0#64)) =
    some (.faulted .dataAbort, some 0x2004#64) := by decide
theorem test_step_ldur_unwritten : step (start 0xF840014B (xx 10#5 0x2000#64 0#5 0#64)) =
    .fault (.unwrittenRead 0x2000) := rfl
theorem test_step_sturs : bytesAfter 0x3000 4 (start 0xBC000264 fun s => (s.writeD 4#5 0xFFFFFFFF40400000#64).writeX 19#5
    0x3000#64) = some [some 0x40#8, some 0x40#8, some 0#8, some 0#8] := by decide
theorem test_step_ldurs : dAfter 4#5 (start 0xBC404264 fun s => mm 19#5 0x3000#64 0x3004 [0x3F#8, 0x80#8, 0#8, 0#8]
    (s.writeD 4#5 0xFFFFFFFFFFFFFFFF#64)) = some 0x000000003F800000#64 := by decide
theorem test_step_sturd : bytesAfter 0x3008 3 (start 0xFC008264 fun s => (s.writeD 4#5 0x4008000000000000#64).writeX 19#5
    0x3000#64) = some [some 0x40#8, some 0x08#8, some 0#8] := by decide
theorem test_step_ldurd : dAfter 4#5
    (start 0xFC408264 (mm 19#5 0x3000#64 0x3008 [0x3F#8, 0xF0#8, 0#8, 0#8, 0#8, 0#8, 0#8, 0#8])) =
      some 0x3FF0000000000000#64 := by decide
theorem test_step_ldxr_arms : (match step (start 0xC840028A
    (mm 20#5 0x2000#64 0x2000 [0#8, 0#8, 0#8, 0#8, 0#8, 0#8, 0#8, 41#8])) with
      | .next t => some (t.readX 10#5, t.monitor)
      | .fault _ => none
      | .refused _ => none) = some (41#64, .armed 0x2000#64) := by decide
theorem test_step_stxr_clear_fails : xAfter 9#5 (start 0xC8090297 (xx 20#5 0x2000#64 23#5 7#64)) = some 1#64 := by decide
theorem test_step_stxr_stores : bytesAfter 0x2007 1 (start 0xC8090297 fun s =>
    { xx 20#5 0x2000#64 23#5 7#64 s with
      monitor := .armed 0x2000#64
      cfg := { s.cfg with stxrSpuriousFail := false } }) = some [some 7#8] := by decide

/-! Floating point (section 8). -/

theorem test_step_fmuls : dAfter 2#5 (start 0x1E260882 (dd 4#5 0xFFFFFFFF3FC00000#64 6#5 0x40000000#64)) =
    some 0x0000000040400000#64 := by decide
theorem test_step_fmuls_tie_to_even : dAfter 2#5 (start 0x1E260882 (dd 4#5 3#64 6#5 0x3F000000#64)) = some 2#64 := by decide
theorem test_step_fdivs : dAfter 0#5 (start 0x1E221820 (dd 1#5 0x3F800000#64 2#5 0x40400000#64)) =
    some 0x3EAAAAAB#64 := by decide
theorem test_step_fdivs_by_zero : dAfter 0#5 (start 0x1E221820 (dd 1#5 0xBF800000#64 2#5 0#64)) =
    some 0xFF800000#64 := by decide
theorem test_step_fadds_tie_to_even : dAfter 2#5 (start 0x1E262882 (dd 4#5 0x3F800001#64 6#5 0x33800000#64)) =
    some 0x3F800002#64 := by decide
theorem test_step_fadds_nan : dAfter 2#5 (start 0x1E262882 (dd 4#5 0x7FC00001#64 6#5 0x7FA00002#64)) =
    some 0x7FE00002#64 := by decide
theorem test_step_fsubs : dAfter 1#5 (start 0x1E233841 (dd 2#5 0x40A00000#64 3#5 0x40000000#64)) =
    some 0x40400000#64 := by decide
theorem test_step_fsubs_negative_zero : dAfter 1#5 (start 0x1E233841 (dd 2#5 0x80000000#64 3#5 0#64)) =
    some 0x80000000#64 := by decide
theorem test_step_fmuld_overflow : dAfter 2#5 (start 0x1E660882 (dd 4#5 0x7FEFFFFFFFFFFFFF#64 6#5 0x4000000000000000#64)) =
    some 0x7FF0000000000000#64 := by decide +kernel
theorem test_step_fdivd : dAfter 0#5 (start 0x1E621820 (dd 1#5 0x3FF0000000000000#64 2#5 0x4008000000000000#64)) =
    some 0x3FD5555555555555#64 := by decide
theorem test_step_faddd : dAfter 2#5 (start 0x1E662882 (dd 4#5 0x3FF0000000000001#64 6#5 0x3CA0000000000000#64)) =
    some 0x3FF0000000000002#64 := by decide
theorem test_step_faddd_invalid : dAfter 2#5 (start 0x1E662882 (dd 4#5 0x7FF0000000000000#64 6#5 0xFFF0000000000000#64)) =
    some 0x7FF8000000000000#64 := by decide
theorem test_step_fsubd : dAfter 1#5 (start 0x1E633841 (dd 2#5 0x4014000000000000#64 3#5 0x4000000000000000#64)) =
    some 0x4008000000000000#64 := by decide
theorem test_step_fcmps_zeros_equal : flagsAfter (start 0x1E262080 (dd 4#5 0#64 6#5 0x80000000#64)) =
    some ⟨false, true, true, false⟩ := by decide
theorem test_step_fcmps_unordered : flagsAfter (start 0x1E262080 (dd 4#5 0x3F800000#64 6#5 0x7FA00000#64)) =
    some ⟨false, false, true, true⟩ := by decide
theorem test_step_fcmpd_less : flagsAfter (start 0x1E622020 (dd 1#5 0xBFF0000000000000#64 2#5 0x3FF0000000000000#64)) =
    some ⟨true, false, false, false⟩ := by decide
theorem test_step_fcmpd_greater : flagsAfter (start 0x1E622020 (dd 1#5 0x4000000000000000#64 2#5 0x3FF0000000000000#64)) =
    some ⟨false, false, true, false⟩ := by decide

/-! The end of a run and its faults (section 9, program 7). -/

theorem test_step_undefined : endAfter (start 0xD65F03C0 id) = some (.faulted .unknown, none) := by decide
theorem test_step_misaligned_pc : endAfter { State.reset with pc := 0x402#64 } =
    some (.faulted .pcAlignment, some 0x402#64) := by decide
theorem test_step_halts : endAfter { State.reset with pc := 0xFFFFFFFFFFFFFFF0#64 } = some (.ended, none) := by decide
theorem test_step_a64_br_refused : step (start 0xD61F03C0 id) = .refused (.refusedWord (.unusedField .br .rm)) := rfl

/-! ## Witnesses: a concrete case that meets the hypotheses of each obligation that has some, clause by clause -/

/-- Whether an outcome is a next state. -/
def isNext : Result → Bool
  | .next _ => true
  | .fault _ => false
  | .refused _ => false

/-- How the run stands after one step. -/
def runAfter (s : State) : Option RunStatus :=
  match step s with
  | .next t => some t.run
  | .fault _ => none
  | .refused _ => none

/-- The next step runs what the fetched word decodes to. -/
theorem runs_of_fetch {s : State} {w : InstrWord} {i : Instr} (hr : s.run = .running) (hh : s.pc ≠ s.cfg.haltPc)
    (h : fetch s = .word w) (hd : decode s.cfg.unusedFields w = .instr i) : Runs s i :=
  ⟨w, fetches_of_fetch hr hh h, hd⟩

/-- A state whose memory map is one region with all marks. -/
def mapped (base size : Nat) (s : State) : State := { s with cfg := { s.cfg with memMap := [⟨base, size, true, true, true⟩] } }

/-- A state with the floating-point unit disabled. -/
def fpOff (s : State) : State := { s with cfg := { s.cfg with fpEnabled := false } }

/-- A state in which the given exceptions trap. -/
def trapping (traps : FpExceptions) (s : State) : State := { s with cfg := { s.cfg with fpTraps := traps } }

/-- Eight bytes at 0x2000 and `x[10] = 0x2000`, `x[9] = 0x1122334455667788`. -/
def eightBytes : State :=
  mm 10#5 0x2000#64 0x2000 [0x11#8, 0x22#8, 0x33#8, 0x44#8, 0x55#8, 0x66#8, 0x77#8, 0x88#8]
    (State.reset.writeX 9#5 0x1122334455667788#64)

/-- The bytes of `eightBytes`. -/
def theBytes (j : Nat) : Byte := [0x11#8, 0x22#8, 0x33#8, 0x44#8, 0x55#8, 0x66#8, 0x77#8, 0x88#8].getD j 0#8

/-! Encoding. -/

theorem witness_DecodeInvertsEncode :
    (Instr.stxr 9#5 23#5 20#5).wellFormed = true ∧ (Instr.stxr 31#5 31#5 31#5).wellFormed = true := by decide

theorem witness_EncodeInvertsDecode : decode .refuse 0x8B0A02A9#32 = .instr (.add 9#5 21#5 10#5) := by decide

theorem witness_UndefinedWordsMatchNoRow :
    decode .ignore 0xFFFFFFFF#32 = .undefined ∧ decode .refuse 0x1E262C82#32 = .undefined := by decide

theorem witness_RefusedWordsAreTheListedOnes :
    (rowOf 0x8B0A06A9#32 = some .add ∧ 0x8B0A06A9#32 &&& unusedMask .add ≠ 0#32) ∧
      (rowOf 0x5400004E#32 = some .bCond ∧ 14 ≤ ((0x5400004E#32 : InstrWord).extractLsb' 0 4).toNat) ∧
      (rowOf 0xC8140297#32 = some .stxr ∧
        (0xC8140297#32 : InstrWord).extractLsb' 16 5 = (0xC8140297#32 : InstrWord).extractLsb' 5 5) := by decide

theorem witness_UnusedFieldsFollowThePolicy :
    (rowOf 0x8B0A06A9#32 = some .add ∧ 0x8B0A06A9#32 &&& unusedMask .add ≠ 0#32) ∧
      (rowOf 0x8B0A02A9#32 = some .add ∧ 0x8B0A02A9#32 &&& unusedMask .add = 0#32) := by decide

/-! The step. -/

theorem witness_StepRunsDecodedInstruction : Runs (start 0x8B0A02A9 id) (.add 9#5 21#5 10#5) :=
  runs_of_fetch (w := 0x8B0A02A9#32) rfl (by decide) (by decide) (by decide)

theorem witness_StepChecksInOrder_end :
    State.run { State.reset with pc := 0xFFFFFFFFFFFFFFF0#64 } = .running ∧
      State.pc { State.reset with pc := 0xFFFFFFFFFFFFFFF0#64 } = Config.standard.haltPc := by decide

theorem witness_StepChecksInOrder_misaligned :
    (0x400003#64).toNat % 4 ≠ 0 ∧ State.run { State.reset with pc := 0x400003#64 } = .running ∧
      State.pc { State.reset with pc := 0x400003#64 } ≠ Config.standard.haltPc := by decide

/-- The last of the four bytes does not exist. -/
theorem witness_StepChecksInOrder_notExecutable :
    (mapped 0x400000 3 State.reset).run = .running ∧
      (mapped 0x400000 3 State.reset).pc ≠ (mapped 0x400000 3 State.reset).cfg.haltPc ∧
      (mapped 0x400000 3 State.reset).pc.toNat % 4 = 0 ∧
      ∃ j, j < 4 ∧ permits (mapped 0x400000 3 State.reset).cfg.memMap .fetch
        ((mapped 0x400000 3 State.reset).pc.toNat + j) = false :=
  ⟨rfl, by decide, by decide, 3, by decide, by decide⟩

/-- The first unwritten byte is the first, and the last. -/
theorem witness_StepChecksInOrder_unwritten :
    MayAccess State.reset .fetch State.reset.pc 4 ∧ State.reset.mem.read (State.reset.pc.toNat + 0) = none ∧
      (∀ k, k < 3 → (State.mem (mm 0#5 0#64 0x400000 [1#8, 2#8, 3#8] State.reset)).read (0x400000 + k) ≠ none) ∧
      (State.mem (mm 0#5 0#64 0x400000 [1#8, 2#8, 3#8] State.reset)).read (0x400000 + 3) = none :=
  ⟨⟨by decide, by decide⟩, by decide, by decide, by decide⟩

theorem witness_StepChecksInOrder_undefined : Fetches (start 0 id) 0#32 ∧ decode .refuse 0#32 = .undefined :=
  ⟨fetches_of_fetch rfl (by decide) (by decide), by decide⟩

theorem witness_StepChecksInOrder_refused : Fetches (start 0x5400004E id) 0x5400004E#32 ∧
    decode .refuse 0x5400004E#32 = .refused (.condition 14#4) :=
  ⟨fetches_of_fetch rfl (by decide) (by decide), by decide⟩

theorem witness_TerminalStatesRepeat :
    State.run { State.reset with run := .ended } ≠ .running ∧
      State.run { State.reset with run := .faulted .unknown } ≠ .running := by decide

theorem witness_StepAfterWithFetchWord :
    State.reset.run = .running ∧ State.reset.pc ≠ State.reset.cfg.haltPc ∧ MayAccess State.reset .fetch State.reset.pc 4 ∧
      decode State.reset.cfg.unusedFields (BitVec.ofNat 32 (0x8B0A02A9 % 2 ^ 32)) = .instr (.add 9#5 21#5 10#5) ∧
      decodeTableWord 32 0x8B0A02A9 = some (.add 9#5 21#5 10#5) :=
  ⟨rfl, by decide, ⟨by decide, by decide⟩, by decide, by decide⟩

/-- The invariant holds before a step that completes, a step that raises an exception and a step that ends the run. -/
theorem witness_StepKeepsInvariant :
    ((start 0x8B0A02A9 id).Inv ∧ isNext (step (start 0x8B0A02A9 id)) = true) ∧
      ((start 0xD65F03C0 id).Inv ∧ runAfter (start 0xD65F03C0 id) = some (.faulted .unknown)) ∧
      (State.Inv { State.reset with pc := 0xFFFFFFFFFFFFFFF0#64 } ∧
        runAfter { State.reset with pc := 0xFFFFFFFFFFFFFFF0#64 } = some .ended) :=
  ⟨⟨⟨by decide, trivial, rfl, rfl, rfl⟩, by decide⟩, ⟨⟨by decide, trivial, rfl, rfl, rfl⟩, by decide⟩,
    ⟨⟨by decide, trivial, rfl, rfl, rfl⟩, by decide⟩⟩

/-- A launch that gives registers, flags and memory up to the last address. -/
def aLaunch : Launch where
  resetPc := 0x400000#64
  x := [(0#5, 5#64), (30#5, 0xFFFFFFFFFFFFFFF0#64)]
  d := [(31#5, 7#64)]
  flags := some ⟨true, false, false, false⟩
  mem := (2 ^ 64 - 1, 0xAB#8) :: wordCells 0x400000 0xD60003C0#32

theorem witness_LaunchStateHoldsWhatItIsGiven :
    (aLaunch.x.map Prod.fst).Nodup ∧ (30#5, 0xFFFFFFFFFFFFFFF0#64) ∈ aLaunch.x ∧ (30#5 : Reg) ≠ 31#5 ∧
      (aLaunch.d.map Prod.fst).Nodup ∧ (31#5, 7#64) ∈ aLaunch.d ∧ aLaunch.flags = some ⟨true, false, false, false⟩ ∧
      (aLaunch.mem.map Prod.fst).Nodup ∧ (∀ c ∈ aLaunch.mem, c.1 < 2 ^ 64) ∧ ∀ c ∈ aLaunch.mem, c.1 ≠ 0x400004 := by
  decide

theorem witness_StepKeepsRunConstants : isNext (step (start 0x8B0A02A9 id)) = true := by decide

/-- One running state for each of the six classes that are raised. -/
theorem witness_OnlySixClassesAreRaised :
    runAfter (start 0xD65F03C0 id) = some (.faulted .unknown) ∧
      runAfter (start 0x1E262882 fpOff) = some (.faulted .simdDisabled) ∧
      runAfter (mapped 0x400000 3 State.reset) = some (.faulted .instructionAbort) ∧
      runAfter { State.reset with pc := 0x402#64 } = some (.faulted .pcAlignment) ∧
      runAfter (start 0xF840414B id) = some (.faulted .dataAbort) ∧
      runAfter (start 0x1E221820 fun s => dd 1#5 0x3F800000#64 2#5 0x40400000#64
        (trapping { FpExceptions.empty with inexact := true } s)) = some (.faulted .fpException) := by decide

theorem witness_DefaultParametersRaiseFourClasses :
    (start 0xD65F03C0 id).run = .running ∧ (start 0xD65F03C0 id).cfg.fpEnabled = true ∧
      (start 0xD65F03C0 id).cfg.fpTraps = FpExceptions.empty ∧
      runAfter (start 0xD65F03C0 id) = some (.faulted .unknown) := by decide

/-- A class that records an address and one that does not. -/
theorem witness_ExceptionEntryWritesOnlyTheRecord :
    (start 0xF840414B id).run = .running ∧ runAfter (start 0xF840414B id) = some (.faulted .dataAbort) ∧
      runAfter (start 0xD65F03C0 id) = some (.faulted .unknown) := by decide

theorem witness_MisalignedPcOnlyFromBr :
    (start 0xD6000120 (xx 9#5 0x402#64 0#5 0#64)).pc.toNat % 4 = 0 ∧
      pcAfter (start 0xD6000120 (xx 9#5 0x402#64 0#5 0#64)) = some 0x402#64 ∧ (0x402#64).toNat % 4 ≠ 0 := by decide

/-! Instructions as a whole. -/

/-- A store, an instruction that stores nothing, one that is no branch, one that leaves the flags. -/
theorem witness_InstructionFrame :
    isNext (exec (.stur 9#5 10#5 0#9) eightBytes) = true ∧ storeTarget (.stur 9#5 10#5 0#9) eightBytes = some (0x2000#64, 8) ∧
      isNext (exec (.add 9#5 21#5 10#5) eightBytes) = true ∧ storeTarget (.add 9#5 21#5 10#5) eightBytes = none ∧
      Instr.isBranch (.add 9#5 21#5 10#5) = false ∧ Instr.writesFlags (.add 9#5 21#5 10#5) = false ∧
      Instr.intDest (.add 9#5 21#5 10#5) ≠ some 10#5 ∧ Instr.fpDest (.add 9#5 21#5 10#5) ≠ some 9#5 := by decide

theorem witness_OnlyConditionalBranchReadsFlags :
    (∀ c a, Instr.adds 9#5 21#5 10#5 ≠ .bCond c a) ∧ isNext (exec (.adds 9#5 21#5 10#5) State.reset) = true :=
  ⟨(by intro c a h; cases h), by decide⟩

theorem witness_WellFormedInstructionsProceed : (Instr.stxr 31#5 31#5 31#5).wellFormed = true := by decide

theorem witness_ZeroRegisterReadsZeroAndDiscards :
    Instr.intDest (.subs 31#5 10#5 11#5) = some 31#5 ∧ isNext (exec (.subs 31#5 10#5 11#5) eightBytes) = true := by decide

/-! Integer instructions. -/

theorem witness_RegisterAddSubFlags :
    0x2000#64 = eightBytes.readX 10#5 ∧ 0x1122334455667788#64 = eightBytes.readX 9#5 := by decide

theorem witness_ImmediateAddSubFlags : 0x2000#64 = eightBytes.readX 10#5 ∧ 4095#64 = (4095#12).setWidth 64 := by decide

/-- A zero divisor, the quotient that overflows, and neither. -/
theorem witness_DivideLaws :
    (0#64 = State.reset.readX 11#5) ∧
      ((0x8000000000000000#64).toInt = -2 ^ 63 ∧ (0xFFFFFFFFFFFFFFFF#64).toInt = -1 ∧
        0x8000000000000000#64 = (xx 10#5 0x8000000000000000#64 11#5 0xFFFFFFFFFFFFFFFF#64 State.reset).readX 10#5 ∧
        0xFFFFFFFFFFFFFFFF#64 = (xx 10#5 0x8000000000000000#64 11#5 0xFFFFFFFFFFFFFFFF#64 State.reset).readX 11#5) ∧
      (1#64 ≠ 0#64 ∧ ¬((0x8000000000000000#64).toInt = -2 ^ 63 ∧ (1#64).toInt = -1)) := by decide

theorem witness_ConditionTable :
    (∃ rm, Instr.subs 9#5 10#5 9#5 = .subs 9#5 10#5 rm ∧ 0x1122334455667788#64 = eightBytes.readX rm) ∧
      (∃ imm, Instr.subis 9#5 10#5 4095#12 = .subis 9#5 10#5 imm ∧ 4095#64 = imm.setWidth 64) ∧
      0x2000#64 = eightBytes.readX 10#5 :=
  ⟨⟨9#5, rfl, by decide⟩, ⟨4095#12, rfl, by decide⟩, by decide⟩

/-- The three misaligned residues of a target. -/
theorem witness_BranchRegister :
    ∀ v ∈ [0x401#64, 0x402#64, 0x403#64], (match exec (.br 9#5) (State.reset.writeX 9#5 v) with
      | .next t => t.run = .running ∧ v ≠ t.cfg.haltPc
      | .fault _ => False
      | .refused _ => False) ∧ v.extractLsb' 0 2 ≠ 0#2 := by
  intro v hv
  simp only [List.mem_cons, List.not_mem_nil, or_false] at hv
  rcases hv with rfl | rfl | rfl <;> exact ⟨⟨rfl, by decide⟩, by decide⟩

/-! Loads and stores. -/

/-- Readable bytes of each width, the last doubleword of the address space among them, and an access that is misaligned or
whose last byte does not exist. -/
theorem witness_IntegerLoads :
    Holds eightBytes 0x2000#64 1 theBytes ∧ Holds eightBytes 0x2000#64 2 theBytes ∧ Holds eightBytes 0x2000#64 4 theBytes ∧
      Holds eightBytes 0x2000#64 8 theBytes ∧
      Holds (mm 10#5 0#64 0xFFFFFFFFFFFFFFF8 [0#8, 0#8, 0#8, 0#8, 0#8, 0#8, 0#8, 0#8] State.reset)
        0xFFFFFFFFFFFFFFF8#64 8 (fun _ => 0#8) ∧
      ¬MayAccess eightBytes .read 0x2004#64 8 ∧ ¬MayAccess (mapped 0x2000 7 eightBytes) .read 0x2000#64 8 ∧
      ¬MayAccess (mapped 0x2001 7 eightBytes) .read 0x2000#64 1 :=
  ⟨⟨⟨by decide, by decide⟩, by decide⟩, ⟨⟨by decide, by decide⟩, by decide⟩, ⟨⟨by decide, by decide⟩, by decide⟩,
    ⟨⟨by decide, by decide⟩, by decide⟩, ⟨⟨by decide, by decide⟩, by decide⟩, fun h => absurd h.1 (by decide),
    fun h => absurd (h.2 7 (by decide)) (by decide), fun h => absurd (h.2 0 (by decide)) (by decide)⟩

theorem witness_IntegerStores :
    MayAccess eightBytes .write 0x2001#64 1 ∧ MayAccess eightBytes .write 0x2002#64 2 ∧
      MayAccess eightBytes .write 0x2004#64 4 ∧ MayAccess eightBytes .write 0xFFFFFFFFFFFFFFF8#64 8 ∧
      ¬MayAccess eightBytes .write 0x2001#64 2 ∧ ¬MayAccess (mapped 0x2000 7 eightBytes) .write 0x2000#64 8 :=
  ⟨⟨by decide, by decide⟩, ⟨by decide, by decide⟩, ⟨by decide, by decide⟩, ⟨by decide, by decide⟩,
    fun h => absurd h.1 (by decide), fun h => absurd (h.2 7 (by decide)) (by decide)⟩

theorem witness_FloatingPointLoads :
    (fpOff eightBytes).cfg.fpEnabled = false ∧ eightBytes.cfg.fpEnabled = true ∧ Holds eightBytes 0x2004#64 4
      (fun j => theBytes (4 + j)) ∧ Holds eightBytes 0x2000#64 8 theBytes ∧ ¬MayAccess eightBytes .read 0x2002#64 4 :=
  ⟨rfl, rfl, ⟨⟨by decide, by decide⟩, by decide⟩, ⟨⟨by decide, by decide⟩, by decide⟩, fun h => absurd h.1 (by decide)⟩

theorem witness_FloatingPointStores :
    (fpOff eightBytes).cfg.fpEnabled = false ∧ eightBytes.cfg.fpEnabled = true ∧ MayAccess eightBytes .write 0x2004#64 4 ∧
      MayAccess eightBytes .write 0x2008#64 8 ∧ ¬MayAccess eightBytes .write 0x2004#64 8 :=
  ⟨rfl, rfl, ⟨by decide, by decide⟩, ⟨by decide, by decide⟩, fun h => absurd h.1 (by decide)⟩

/-- An integer load, a floating-point store and a store-exclusive. -/
theorem witness_MisalignedOrForbiddenAccessAborts :
    (dataAccess (.ldur 11#5 10#5 4#9) eightBytes = some (.read, 0x2004#64, 8) ∧ ¬MayAccess eightBytes .read 0x2004#64 8) ∧
      (dataAccess (.sturs 11#5 10#5 2#9) eightBytes = some (.write, 0x2002#64, 4) ∧ eightBytes.cfg.fpEnabled = true ∧
        ¬MayAccess eightBytes .write 0x2002#64 4) ∧
      (dataAccess (.stxr 11#5 9#5 10#5) (mapped 0x2000 7 eightBytes) = some (.write, 0x2000#64, 8) ∧
        (Instr.stxr 11#5 9#5 10#5).wellFormed = true ∧ ¬MayAccess (mapped 0x2000 7 eightBytes) .write 0x2000#64 8) :=
  ⟨⟨by decide, fun h => absurd h.1 (by decide)⟩, ⟨by decide, rfl, fun h => absurd h.1 (by decide)⟩,
    ⟨by decide, by decide, fun h => absurd (h.2 7 (by decide)) (by decide)⟩⟩

/-- The first unwritten byte is the first, and the last, of the access. -/
theorem witness_UnwrittenLoadIsAModelFault :
    (dataAccess (.ldur 11#5 10#5 8#9) eightBytes = some (.read, 0x2008#64, 8) ∧ MayAccess eightBytes .read 0x2008#64 8 ∧
        eightBytes.mem.read ((0x2008#64).toNat + 0) = none) ∧
      (dataAccess (.ldurh 11#5 10#5 (-2)) (mm 10#5 0x2002#64 0x2000 [1#8] State.reset) = some (.read, 0x2000#64, 2) ∧
        MayAccess (mm 10#5 0x2002#64 0x2000 [1#8] State.reset) .read 0x2000#64 2 ∧
        (∀ k, k < 1 → ((mm 10#5 0x2002#64 0x2000 [1#8] State.reset).mem.read ((0x2000#64).toNat + k)).isSome = true) ∧
        (mm 10#5 0x2002#64 0x2000 [1#8] State.reset).mem.read ((0x2000#64).toNat + 1) = none) :=
  ⟨⟨by decide, ⟨by decide, by decide⟩, by decide⟩, ⟨by decide, ⟨by decide, by decide⟩, by decide, by decide⟩⟩

theorem witness_LoadExclusive :
    Holds eightBytes (eightBytes.readX 10#5) 8 theBytes ∧
      ¬MayAccess (eightBytes.writeX 10#5 0x2004#64) .read ((eightBytes.writeX 10#5 0x2004#64).readX 10#5) 8 :=
  ⟨⟨⟨by decide, by decide⟩, by decide⟩, fun h => absurd h.1 (by decide)⟩

/-- Each overlap; and no overlap with a forbidden, a matching and another monitor, failures allowed and not. -/
theorem witness_StoreExclusive :
    ((9#5 : Reg) ≠ 31#5 ∧ ((9#5 : Reg) = 9#5 ∨ (9#5 : Reg) = 10#5)) ∧
      ¬((31#5 : Reg) ≠ 31#5 ∧ ((31#5 : Reg) = 31#5 ∨ (31#5 : Reg) = 10#5)) ∧
      ¬MayAccess (eightBytes.writeX 10#5 0x2004#64) .write 0x2004#64 8 ∧
      MayAccess eightBytes .write (eightBytes.readX 10#5) 8 ∧
      (eightBytes.setMonitor (.armed 0x2000#64)).monitor = .armed (eightBytes.readX 10#5) ∧
      (eightBytes.setMonitor (.armed 0x2008#64)).monitor ≠ .armed (eightBytes.readX 10#5) ∧
      eightBytes.cfg.stxrSpuriousFail = true :=
  ⟨by decide, by decide, fun h => absurd h.1 (by decide), ⟨by decide, by decide⟩, by decide, by decide, rfl⟩

theorem witness_ExclusivePair :
    State.cfg { eightBytes with cfg := { Config.standard with stxrSpuriousFail := false } } =
        { Config.standard with stxrSpuriousFail := false } ∧
      Holds { eightBytes with cfg := { Config.standard with stxrSpuriousFail := false } } 0x2000#64 8 theBytes ∧
      MayAccess { eightBytes with cfg := { Config.standard with stxrSpuriousFail := false } } .write 0x2000#64 8 ∧
      ((11#5 : Reg) ≠ 10#5 ∨ (10#5 : Reg) = 31#5) ∧ stxrOverlaps 12#5 9#5 10#5 = false :=
  ⟨rfl, ⟨⟨by decide, by decide⟩, by decide⟩, ⟨by decide, by decide⟩, by decide, by decide⟩

theorem witness_MixedWidthAccess :
    (memWrite eightBytes 0x2000#64 8 0x1122334455667788).isSome = true ∧
      (∀ j, j < 8 → permits eightBytes.cfg.memMap .read ((0x2000#64).toNat + j) = true) ∧
      ∀ j, j < 4 → permits eightBytes.cfg.memMap .fetch ((0x2000#64).toNat + j) = true :=
  ⟨by decide, by decide, by decide⟩

/-! Floating point. -/

theorem witness_DisabledUnitRaisesClassSeven :
    Instr.usesFpUnit (.fcmpd 1#5 2#5) = true ∧ Instr.usesFpUnit (.ldurs 4#5 19#5 4#9) = true ∧
      (fpOff State.reset).cfg.fpEnabled = false := by decide

/-- The unit disabled; 1 / 3 with inexact trapping; 1 / 3 with nothing trapping. -/
theorem witness_FloatingPointArithmeticSingle :
    (fpOff State.reset).cfg.fpEnabled = false ∧ State.reset.cfg.fpEnabled = true ∧
      Trapped { FpExceptions.empty with inexact := true }
        (numericsSingle Config.standard .div 0x3F800000#32 0x40400000#32).2 ∧
      ¬Trapped State.reset.cfg.fpTraps (numericsSingle Config.standard .div 0x3F800000#32 0x40400000#32).2 := by
  decide

theorem witness_FloatingPointArithmeticDouble :
    (fpOff State.reset).cfg.fpEnabled = false ∧ State.reset.cfg.fpEnabled = true ∧
      Trapped { FpExceptions.empty with divByZero := true }
        (numericsDouble Config.standard .div 0x3FF0000000000000#64 0#64).2 ∧
      ¬Trapped State.reset.cfg.fpTraps (numericsDouble Config.standard .div 0x3FF0000000000000#64 0#64).2 := by
  decide

/-- The unit disabled; a signalling operand with invalid operation trapping; not trapping; a NaN; equal zeros; less. -/
theorem witness_FloatingPointCompare :
    (fpOff State.reset).cfg.fpEnabled = false ∧
      (State.cfg (trapping { FpExceptions.empty with invalid := true } State.reset)).fpTraps.invalid = true ∧
      fpIsSignalling .single 0x7FA00000 ∧ fpIsSignalling .double 0x7FF0000000000001 ∧
      ¬fpIsSignalling .single 0x7FC00000 ∧ State.reset.cfg.fpTraps.invalid = false ∧ fpIsNan .single 0x7FC00000 = true ∧
      fpIsNan .single 0x80000000 = false ∧ fpIsNan .double 0xFFF0000000000000 = false := by decide

theorem witness_FloatingPointCompare_equal : fpExtended .single 0 = fpExtended .single 0x80000000 := by
  simp [fpExtended, fpValue, fpExponent, fpFraction, FpFormat.single, fpMax]

theorem witness_FloatingPointCompare_less : fpExtended .single 0xFF800000 < fpExtended .single 0x3F800000 := by
  simp [fpExtended, fpValue, fpExponent, fpFraction, FpFormat.single, fpMax, fpSign]

/-- The largest finite numbers, the least denormalised ones, and a divisor that is not zero. -/
theorem witness_FloatingPointRounding :
    fpFinite .single (0x7F7FFFFF#32).toNat ∧ fpFinite .single (0x80000001#32).toNat ∧ ¬fpIsZero .single (0x80000001#32).toNat ∧
      fpFinite .double (0x7FEFFFFFFFFFFFFF#64).toNat ∧ fpFinite .double (1#64).toNat ∧ ¬fpIsZero .double (1#64).toNat := by
  decide

/-- Each clause of the A64 rule: a signalling operand first, second; a quiet one first, second; an invalid operation. -/
theorem witness_NanResults :
    Config.standard.nanRule = .a64 ∧ fpIsSignalling .single 0x7FA00000 ∧
      (¬fpIsSignalling .single 0x7FC00001 ∧ fpIsSignalling .single 0x7F800001) ∧
      (¬fpIsSignalling .single 0x7FC00001 ∧ ¬fpIsSignalling .single 0x3F800000 ∧ fpIsNan .single 0x7FC00001 = true) ∧
      (¬fpIsSignalling .single 0x3F800000 ∧ fpIsNan .single 0x3F800000 = false ∧ fpIsNan .single 0x7FC00001 = true) ∧
      fpIsSignalling .double 0x7FF4000000000000 ∧ fpIsNan .double 0x7FF8000000000000 = true ∧
      Config.nanRule { Config.standard with tininess := .afterRounding } = Config.standard.nanRule := by decide

theorem witness_NanResults_invalid :
    fpInvalidPair .single .mul 0x7F800000 0 ∧ fpInvalidPair .single .div 0 0x80000000 ∧
      fpInvalidPair .double .add 0x7FF0000000000000 0xFFF0000000000000 ∧
      fpInvalidPair .double .sub 0x7FF0000000000000 0x7FF0000000000000 :=
  ⟨.inr (by decide), .inl (by decide), by unfold fpInvalidPair; decide, by unfold fpInvalidPair; decide⟩

/-- Infinities, zeros and numbers for each clause. -/
theorem witness_ZeroAndInfinityResults :
    fpIsInf .single 0x7F800000 ∧ fpIsInf .single 0xFF800000 ∧ fpFinite .single 0x3F800000 ∧ ¬fpIsZero .single 0x3F800000 ∧
      fpIsZero .single 0x80000000 ∧ fpFinite .single 0x80000000 ∧ fpIsNan .single 0x3F800000 = false ∧
      fpIsInf .double 0xFFF0000000000000 ∧ fpFinite .double 1 ∧ ¬fpIsZero .double 1 ∧ fpIsZero .double 0x8000000000000000 ∧
      fpSign .single 0x7F800000 = (fpSign .single 0x7F800000 != false) := by decide

/-- What the signals read: a division by zero, a quiet NaN divided by zero, infinity minus infinity, a signalling operand. -/
theorem witness_signals :
    (fpFinite .single 0x3F800000 ∧ ¬fpIsZero .single 0x3F800000 ∧ fpIsZero .single 0x80000000) ∧
      ¬fpFinite .double 0x7FF8000000000000 ∧
      (numericsSingle Config.standard .div 0x3F800000#32 0x80000000#32).2 = { FpExceptions.empty with divByZero := true } ∧
      (numericsDouble Config.standard .div 0x7FF8000000000000#64 0#64).2 = FpExceptions.empty ∧
      (numericsSingle Config.standard .sub 0x7F800000#32 0x7F800000#32).2 = { FpExceptions.empty with invalid := true } ∧
      (numericsSingle Config.standard .add 0x3F800000#32 0x7FA00000#32).2 = { FpExceptions.empty with invalid := true } := by
  decide

/-- What rounding signals: nothing, inexact, overflow with inexact, underflow, by the exact result (IEEE 754). -/
theorem witness_rounding_signals :
    (numericsSingle Config.standard .add 0x3F800000#32 0x3F800000#32).2 = FpExceptions.empty ∧
      (numericsSingle Config.standard .div 0x3F800000#32 0x40400000#32).2 = { FpExceptions.empty with inexact := true } ∧
      (numericsSingle Config.standard .mul 0x7F7FFFFF#32 0x40000000#32).2 =
        { FpExceptions.empty with overflow := true, inexact := true } ∧
      (numericsSingle Config.standard .mul 0x00800000#32 0x3F000000#32).2 =
        { FpExceptions.empty with underflow := true } := by
  decide

/-- Two zeros whose sum is the exact zero, and two numbers whose difference is. -/
theorem witness_ZeroAndInfinityResults_zero :
    exactResult .add (fpValue .single 0x80000000) (fpValue .single 0) = 0 ∧
      exactResult .sub (fpValue .single 0x3F800000) (fpValue .single 0x3F800000) = 0 :=
  ⟨by simp [exactResult, fpValue, fpFraction, fpExponent, FpFormat.single], by simp [exactResult]⟩

end Sys2Proof.Tests
end

/-! PROOFS. What a step can answer (spec/00_scope.md R10): the run constants are kept, and an instruction stops only at
an unwritten byte of its own load or as an ill-formed `STXR`. -/

namespace Sys2Proof.Machine

/-! ## What an instruction can answer -/

/-- What `exec i s` can answer: a next state with the run constants of `s` (R7, R20), the stop at an unwritten byte
of the load of `i` (R37), or the refusal of an `STXR` with overlapping registers (R179). -/
inductive Answers (i : Instr) (s : State) : Result → Prop
  | next (t : State) (cfg : t.cfg = s.cfg) : Answers i s (.next t)
  | unwritten (a : Word) (n j : Nat) (access : dataAccess i s = some (.read, a, n)) (inside : j < n)
      (absent : s.mem.read (a.toNat + j) = none) : Answers i s (.fault (.unwrittenRead (a.toNat + j)))
  | overlap (illFormed : i.wellFormed = false) : Answers i s (.refused (.refusedWord .stxrOverlap))

theorem Answers.cfg_eq {i : Instr} {s t : State} (h : Answers i s (.next t)) : t.cfg = s.cfg := by
  cases h with
  | next _ cfg => exact cfg

/-! ### By ending, in the order of the operations of the model -/

section Endings

variable {i : Instr} {s : State}

theorem raise_answers (e : Exc) : Answers i s (raise e s) := .next _ rfl

theorem finishX_answers (rd : Reg) (v : Word) : Answers i s (finishX rd v s) := .next _ (by simp)

theorem finishXFlags_answers (rd : Reg) (v : Word) (f : Flags) : Answers i s (finishXFlags rd v f s) :=
  .next _ (by simp)

/-- The state the branch is taken in may differ from `s`: `BL` has written its link register (R122). -/
theorem finishBranch_answers {u : State} (taken : Bool) (offset : Word) (hu : u.cfg = s.cfg) :
    Answers i s (finishBranch taken offset u) := by
  obtain ⟨t, ht, hj⟩ := finishBranch_spec taken offset u
  rw [ht]
  exact .next t (hj.record.cfg.trans hu)

/-- The byte a load stops at lies in the access: `readBytes` stops at an address of its own range. -/
theorem finishLoad_answers {a : Word} {n : Nat} {put : List Byte → State → State}
    (access : dataAccess i s = some (.read, a, n)) (hput : ∀ bytes, (put bytes s).cfg = s.cfg) :
    Answers i s (finishLoad a n put s) := by
  rcases finishLoad_cases a n put s with ⟨_, bytes, _, he⟩ | ⟨_, he⟩ | ⟨_, u, hu, he⟩ <;> rw [he]
  · exact .next _ (hput bytes)
  · exact raise_answers _
  · obtain ⟨hle, hlt, hnone⟩ := Memory.readBytes_unwritten _ _ _ _ hu
    obtain ⟨j, rfl⟩ := Nat.exists_eq_add_of_le hle
    exact .unwritten a n j access (by omega) hnone

theorem finishStore_answers (a : Word) (n v : Nat) : Answers i s (finishStore a n v s) := by
  rcases finishStore_cases a n v s with ⟨_, he⟩ | ⟨_, he⟩ <;> rw [he]
  · exact .next _ rfl
  · exact raise_answers _

theorem ifFpEnabled_answers {body : Result} (h : Answers i s body) : Answers i s (ifFpEnabled s body) := by
  rcases ifFpEnabled_cases s body with ⟨_, he⟩ | ⟨_, he⟩ <;> rw [he]
  · exact h
  · exact raise_answers _

theorem finishArithS_answers (op : FpOp) (rd rn rm : Reg) : Answers i s (finishArithS op rd rn rm s) := by
  rcases finishArithS_cases op rd rn rm s with ⟨_, he⟩ | ⟨_, _, he⟩ | ⟨_, _, he⟩ <;> rw [he]
  · exact raise_answers _
  · exact raise_answers _
  · exact .next _ (by simp)

theorem finishArithD_answers (op : FpOp) (rd rn rm : Reg) : Answers i s (finishArithD op rd rn rm s) := by
  rcases finishArithD_cases op rd rn rm s with ⟨_, he⟩ | ⟨_, _, he⟩ | ⟨_, _, he⟩ <;> rw [he]
  · exact raise_answers _
  · exact raise_answers _
  · exact .next _ (by simp)

theorem finishCompare_answers (a b : FpDatum) : Answers i s (finishCompare a b s) := by
  rcases finishCompare_cases a b s with ⟨_, he⟩ | ⟨_, _, he⟩ | ⟨_, _, he⟩ <;> rw [he]
  · exact raise_answers _
  · exact raise_answers _
  · exact .next _ (by simp)

theorem execStxr_answers (rs rt rn : Reg) : Answers (.stxr rs rt rn) s (execStxr rs rt rn s) := by
  rcases execStxr_cases rs rt rn s with ⟨ho, he⟩ | ⟨_, _, he⟩ | ⟨_, _, _, _, he⟩ | ⟨_, _, _, he⟩ <;> rw [he]
  · exact .overlap (by simp [Instr.wellFormed, ho])
  · exact raise_answers _
  · exact .next _ (by simp)
  · exact .next _ (by simp)

end Endings

/-- Every instruction, by the way its meaning ends (R10). -/
theorem exec_answers (i : Instr) (s : State) : Answers i s (exec i s) := by
  cases i with
  | and | orr | eor | add | sub | lsr | lsl | addi | subi | andi | orri | eori | movz | movk | sdiv | udiv | mul
  | smulh | umulh => exact finishX_answers _ _
  | adds | subs | ands | addis | subis | andis => exact finishXFlags_answers _ _ _
  | b | bCond | cbz | cbnz => exact finishBranch_answers _ _ rfl
  | bl => exact finishBranch_answers _ _ (by simp)
  | br => exact .next _ rfl
  | ldurb | ldurh | ldursw | ldur | ldxr =>
    dsimp only [exec, execLdurb, execLdurh, execLdursw, execLdur, execLdxr]
    exact finishLoad_answers rfl fun _ => by simp
  | ldurs | ldurd => exact ifFpEnabled_answers (finishLoad_answers rfl fun _ => by simp)
  | sturb | sturh | sturw | stur => exact finishStore_answers _ _ _
  | sturs | sturd => exact ifFpEnabled_answers (finishStore_answers _ _ _)
  | stxr => exact execStxr_answers _ _ _
  | fadds | fsubs | fmuls | fdivs => exact finishArithS_answers _ _ _ _
  | faddd | fsubd | fmuld | fdivd => exact finishArithD_answers _ _ _ _
  | fcmps | fcmpd => exact finishCompare_answers _ _

/-- Settles O26: the only stop besides an unwritten byte is the refusal, and it needs an ill-formed instruction. -/
theorem wellFormedInstructionsProceed : Obligations.WellFormedInstructionsProceed := by
  intro i s hwf
  have h := exec_answers i s
  generalize exec i s = r at h ⊢
  cases h with
  | next t => exact .inl ⟨t, rfl⟩
  | unwritten a n j access inside absent => exact .inr ⟨a, n, j, access, inside, absent, rfl⟩
  | overlap illFormed => rw [hwf] at illFormed; cases illFormed

/-! ## What a step can answer -/

/-- Where a word can be fetched, the step is decided by what it decodes to (R90, R256 orders 5 and 6). -/
theorem step_cases_of_fetches {s : State} {w : InstrWord} (h : Fetches s w) :
    (decode s.cfg.unusedFields w = .undefined ∧ step s = raise .unknown s) ∨
      (∃ why, decode s.cfg.unusedFields w = .refused why ∧ step s = .refused (.refusedWord why)) ∨
      (∃ i, decode s.cfg.unusedFields w = .instr i ∧ step s = exec i s) := by
  have hfetch := fetch_of_fetches h
  obtain ⟨hrun, hhalt, -, -⟩ := h
  rcases step_cases s with ⟨hend | ⟨ec, hfault⟩, _⟩ | ⟨_, hpc, _⟩ | ⟨_, _, e, hf, _⟩ | ⟨_, _, u, hf, _⟩ |
    ⟨_, _, w', hf, hcases⟩
  · rw [hrun] at hend; cases hend
  · rw [hrun] at hfault; cases hfault
  · exact absurd hpc hhalt
  · rw [hfetch] at hf; cases hf
  · rw [hfetch] at hf; cases hf
  · rw [hfetch] at hf; cases hf; exact hcases

/-- Settles O8, by the cases of what the fetched word decodes to. -/
theorem stepRunsDecodedInstruction : Obligations.StepRunsDecodedInstruction := by
  rintro s i ⟨w, hfetches, hdecode⟩
  rcases step_cases_of_fetches hfetches with ⟨hd, _⟩ | ⟨why, hd, _⟩ | ⟨i', hd, hstep⟩ <;>
    rw [hdecode] at hd <;> cases hd
  exact hstep

/-- Settles O17: a step repeats or ends the run, raises, or runs one instruction, and each keeps the constants. -/
theorem stepKeepsRunConstants : Obligations.StepKeepsRunConstants := by
  intro s t hst
  rcases step_cases s with ⟨_, he⟩ | ⟨_, _, he⟩ | ⟨_, _, e, _, he⟩ | ⟨_, _, u, _, he⟩ |
    ⟨_, _, w, _, ⟨_, he⟩ | ⟨why, _, he⟩ | ⟨i, _, he⟩⟩ <;> rw [hst] at he
  · cases he; rfl
  · cases he; rfl
  · cases he; rfl
  · cases he
  · cases he; rfl
  · cases he
  · exact (he ▸ exec_answers i s : Answers i s (.next t)).cfg_eq

end Sys2Proof.Machine

/-! PROOFS. The state (spec/10_state.md): what an instruction leaves unchanged and does not read, the invariant of every
state, and the values at reset and at a launch. -/

namespace Sys2Proof.Machine

/-! ## What an instruction leaves unchanged -/

/-- What `i` has left of `s` in `t`, a state before the update of `pc`: the frame of R211, and the two parts of the
invariant that only a store or the monitor could break. -/
structure Leaves (i : Instr) (s t : State) : Prop where
  pc : t.pc = s.pc
  int : ∀ r, i.intDest ≠ some r → t.readX r = s.readX r
  fp : ∀ r, i.fpDest ≠ some r → t.readD r = s.readD r
  flags : i.writesFlags = false → t.flags = s.flags
  monitor : (∀ rt rn, i ≠ .ldxr rt rn) → (∀ rs rt rn, i ≠ .stxr rs rt rn) → t.monitor = s.monitor
  record : SameRecord s t
  memory : storeTarget i s = none → SameMemory s t
  outside : ∀ a n, storeTarget i s = some (a, n) → SameMemoryOutside a.toNat n s t
  canonical : s.mem.wf = true → t.mem.wf = true
  aligned : monitorAligned s.monitor → monitorAligned t.monitor

/-! ### One rule per operation on the state -/

section Rules

variable {i : Instr} {s t : State}

theorem SameRecord.trans {u : State} (h : SameRecord s t) (hu : SameRecord t u) : SameRecord s u :=
  ⟨hu.esr.trans h.esr, hu.faultPc.trans h.faultPc, hu.faultAddr.trans h.faultAddr, hu.run.trans h.run,
    hu.cfg.trans h.cfg⟩

theorem Leaves.refl : Leaves i s s where
  pc := rfl
  int _ _ := rfl
  fp _ _ := rfl
  flags _ := rfl
  monitor _ _ := rfl
  record := SameRecord.refl s
  memory _ _ := rfl
  outside _ _ _ _ _ := rfl
  canonical := id
  aligned := id

theorem Leaves.writeX {rd : Reg} (h : Leaves i s t) (hd : i.intDest = some rd) (v : Word) :
    Leaves i s (t.writeX rd v) where
  pc := by simpa using h.pc
  int r hr := by
    have hne : r ≠ rd := fun e => hr (e ▸ hd)
    rw [State.readX_writeX_of_ne _ hne, h.int r hr]
  fp r hr := by simpa using h.fp r hr
  flags hw := by simpa using h.flags hw
  monitor hl hs := by simpa using h.monitor hl hs
  record := h.record.trans (WroteX.of_writeX rd v t).record
  memory hm a := by simpa using h.memory hm a
  outside a n hm b hb := by simpa using h.outside a n hm b hb
  canonical hs := by simpa using h.canonical hs
  aligned hs := by simpa using h.aligned hs

theorem Leaves.writeD {rd : Reg} (h : Leaves i s t) (hd : i.fpDest = some rd) (v : Word) :
    Leaves i s (t.writeD rd v) :=
  { h with
    fp := fun r hr => by
      have hne : r ≠ rd := fun e => hr (e ▸ hd)
      rw [State.readD_writeD, if_neg hne, h.fp r hr]
    record := h.record.trans ⟨rfl, rfl, rfl, rfl, rfl⟩ }

theorem Leaves.writeFlags (h : Leaves i s t) (hw : i.writesFlags = true) (f : Flags) : Leaves i s (t.writeFlags f) :=
  { h with
    flags := fun hn => by rw [hw] at hn; cases hn
    record := h.record.trans ⟨rfl, rfl, rfl, rfl, rfl⟩ }

/-- Only `LDXR` and `STXR` set the monitor (R32), to nothing or to an aligned address. -/
theorem Leaves.setMonitor {m : Monitor} (h : Leaves i s t)
    (hi : (∃ rt rn, i = .ldxr rt rn) ∨ ∃ rs rt rn, i = .stxr rs rt rn) (hm : monitorAligned m) :
    Leaves i s (t.setMonitor m) :=
  { h with
    monitor := fun hl hs => by
      rcases hi with ⟨rt, rn, e⟩ | ⟨rs, rt, rn, e⟩
      · exact absurd e (hl rt rn)
      · exact absurd e (hs rs rt rn)
    record := h.record.trans ⟨rfl, rfl, rfl, rfl, rfl⟩
    aligned := fun _ => hm }

theorem Leaves.draw (h : Leaves i s t) (k : Nat) : Leaves i s { t with draws := k } :=
  { h with record := h.record.trans ⟨rfl, rfl, rfl, rfl, rfl⟩ }

/-- A store writes the bytes of its target only (R54); they lie below 2^64, so memory stays canonical. -/
theorem Leaves.writeBytes {a : Word} {n : Nat} (h : Leaves i s t) (hst : storeTarget i s = some (a, n))
    (hend : a.toNat + n ≤ 2 ^ 64) (v : Nat) :
    Leaves i s { t with mem := t.mem.writeBytes a.toNat (beBytes n v) } :=
  { h with
    record := h.record.trans ⟨rfl, rfl, rfl, rfl, rfl⟩
    memory := fun hn => by rw [hst] at hn; cases hn
    outside := fun a' n' hst' b hb => by
      rw [hst] at hst'
      cases hst'
      exact (Memory.read_writeBytes_outside _ _ _ _ (by simpa using hb)).trans (h.outside a n hst b hb)
    canonical := fun hs => Memory.wf_writeBytes _ _ _ (by simpa using hend) (h.canonical hs) }

/-- The accesses of the stores: 1, 2, 4 or 8 bytes (R51). -/
theorem storeTarget_size {a : Word} {n : Nat} (h : storeTarget i s = some (a, n)) :
    n = 1 ∨ n = 2 ∨ n = 4 ∨ n = 8 := by
  cases i with
  | sturb | sturh | sturw | sturs | stxr | stur | sturd => cases h; decide
  | _ => cases h

/-- An access that passes the check of R54 leaves what a store may not touch. -/
theorem leaves_of_memWrite {a : Word} {n v : Nat} (hst : storeTarget i s = some (a, n))
    (h : memWrite s a n v = some t) : Leaves i s t := by
  rcases memWrite_eq s a n v with ⟨ha, he⟩ | ⟨_, he⟩ <;> rw [h] at he <;> cases he
  obtain ⟨haligned, -⟩ := (accessible_iff _ _ _ _).mp ha
  exact Leaves.refl.writeBytes hst (aligned_end_le a n (storeTarget_size hst) haligned) v

end Rules

/-! ## What an instruction does not read -/

/-- The flags and the exception record: no instruction but `B.cond` reads any of it (R25, R30, R31). -/
structure Unread where
  flags : Flags
  esr : Option (BitVec 32)
  faultPc : Option Word
  faultAddr : Option Word

/-- `s` with other flags and another record. -/
def State.withUnread (s : State) (h : Unread) : State :=
  { s with flags := h.flags, esr := h.esr, faultPc := h.faultPc, faultAddr := h.faultAddr }

/-- The flags and the record of `s`. -/
def State.unread (s : State) : Unread := ⟨s.flags, s.esr, s.faultPc, s.faultAddr⟩

theorem State.readX_withUnread (s : State) (h : Unread) (r : Reg) : (s.withUnread h).readX r = s.readX r := rfl

theorem State.writeX_withUnread (s : State) (h : Unread) (rd : Reg) (v : Word) :
    (s.withUnread h).writeX rd v = (s.writeX rd v).withUnread h := by
  unfold State.writeX
  split <;> rfl

theorem memWrite_withUnread (s : State) (h : Unread) (a : Word) (n v : Nat) :
    memWrite (s.withUnread h) a n v = (memWrite s a n v).map (·.withUnread h) := by
  rcases memWrite_eq s a n v with ⟨ha, he⟩ | ⟨ha, he⟩ <;> rw [he]
  · exact if_pos ha
  · exact if_neg (by rw [Bool.not_eq_true]; exact ha)

/-- `h` once `i` has completed in `t`: a flag-setting instruction has written the flags of `t`, any other none. -/
def Unread.after (h : Unread) (i : Instr) (t : State) : Unread :=
  { h with flags := if i.writesFlags then t.flags else h.flags }

theorem Unread.after_of_keeps {i : Instr} (hw : i.writesFlags = false) (h : Unread) (t : State) : h.after i t = h := by
  simp [Unread.after, hw]

theorem Unread.after_of_writes {i : Instr} (hw : i.writesFlags = true) (h : Unread) (t : State) :
    h.after i t = { h with flags := t.flags } := by
  simp [Unread.after, hw]

/-- What `i` can answer from `s` and, beside it, from `s.withUnread h`: the same exception, one the machine raises
(R252); completion in one state but for what is not read, with its frame; the same stop. -/
inductive Mirrors (i : Instr) (s : State) (h : Unread) : Result → Result → Prop
  | raised (e : Exc) (class_raised : raisable e.cls = true) :
    Mirrors i s h (.next (takeException e s)) (.next (takeException e (s.withUnread h)))
  | completed (t : State) (target : Word) (leaves : Leaves i s t)
    (next : i.isBranch = false → target = s.pc + 4#64) :
    Mirrors i s h (.next (t.jump target)) (.next ((t.withUnread (h.after i t)).jump target))
  | fault (x : Fault) : Mirrors i s h (.fault x) (.fault x)
  | refused (r : Refusal) : Mirrors i s h (.refused r) (.refused r)

/-! ### By ending, in the order of the operations of the model -/

section Endings

variable {i : Instr} {s : State} {h : Unread}

theorem Mirrors.raise {e : Exc} (he : raisable e.cls = true) : Mirrors i s h (raise e s) (raise e (s.withUnread h)) :=
  .raised e he

/-- A check that reads no flag and no record goes the same way in both states. -/
theorem Mirrors.ite {c : Prop} [Decidable c] {r r' q q' : Result} (hr : Mirrors i s h r r') (hq : Mirrors i s h q q') :
    Mirrors i s h (if c then r else q) (if c then r' else q') := by
  split
  · exact hr
  · exact hq

/-- Completing with `pc + 4` an instruction that keeps the flags. -/
theorem Mirrors.advance {t : State} (hw : i.writesFlags = false) (leaves : Leaves i s t) :
    Mirrors i s h (.next t.advance) (.next (t.withUnread h).advance) := by
  have hm := Mirrors.completed (h := h) t (t.pc + 4#64) leaves fun _ => by rw [leaves.pc]
  rwa [Unread.after_of_keeps hw] at hm

/-- Completing with `pc + 4` an instruction that writes the flags. -/
theorem Mirrors.advance_writeFlags {t : State} (hw : i.writesFlags = true) (f : Flags) (leaves : Leaves i s t) :
    Mirrors i s h (.next (t.writeFlags f).advance) (.next ((t.withUnread h).writeFlags f).advance) := by
  have hm := Mirrors.completed (h := h) (t.writeFlags f) (t.pc + 4#64) (leaves.writeFlags hw f)
    fun _ => by rw [leaves.pc]
  rwa [Unread.after_of_writes hw] at hm

theorem finishX_mirrors {rd : Reg} (hd : i.intDest = some rd) (hw : i.writesFlags = false) (v : Word) :
    Mirrors i s h (finishX rd v s) (finishX rd v (s.withUnread h)) := by
  unfold finishX
  rw [State.writeX_withUnread]
  exact .advance hw (Leaves.refl.writeX hd v)

theorem finishXFlags_mirrors {rd : Reg} (hd : i.intDest = some rd) (hw : i.writesFlags = true) (v : Word) (f : Flags) :
    Mirrors i s h (finishXFlags rd v f s) (finishXFlags rd v f (s.withUnread h)) := by
  unfold finishXFlags
  rw [State.writeX_withUnread]
  exact .advance_writeFlags hw f (Leaves.refl.writeX hd v)

/-- The state the branch is taken in may differ from `s`: `BL` has written its link register (R122). -/
theorem finishBranch_mirrors {t : State} (hb : i.isBranch = true) (hw : i.writesFlags = false) (taken : Bool)
    (offset : Word) (leaves : Leaves i s t) :
    Mirrors i s h (finishBranch taken offset t) (finishBranch taken offset (t.withUnread h)) := by
  cases taken with
  | false => exact .advance hw leaves
  | true =>
    have hm := Mirrors.completed (h := h) t (t.pc + offset) leaves fun hn => by rw [hb] at hn; cases hn
    rwa [Unread.after_of_keeps hw] at hm

/-- `put` may rely on the alignment of the access: `LDXR` arms the monitor with its address (R180). -/
theorem finishLoad_mirrors {a : Word} {n : Nat} {put : List Byte → State → State} (hw : i.writesFlags = false)
    (hput : ∀ bytes, put bytes (s.withUnread h) = (put bytes s).withUnread h)
    (leaves : ∀ bytes, a.toNat % n = 0 → Leaves i s (put bytes s)) :
    Mirrors i s h (finishLoad a n put s) (finishLoad a n put (s.withUnread h)) := by
  have hread : memRead (s.withUnread h) a n = memRead s a n := rfl
  unfold finishLoad
  rw [hread]
  rcases memRead_eq s a n with ⟨ha, -⟩ | ⟨-, he⟩
  · cases memRead s a n with
    | ok bytes =>
      dsimp only
      rw [hput]
      exact .advance hw (leaves bytes ((accessible_iff _ _ _ _).mp ha).1)
    | abort => exact .raise rfl
    | unwritten u => exact .fault _
  · rw [he]
    exact .raise rfl

theorem finishStore_mirrors {a : Word} {n : Nat} (hst : storeTarget i s = some (a, n)) (hw : i.writesFlags = false)
    (v : Nat) : Mirrors i s h (finishStore a n v s) (finishStore a n v (s.withUnread h)) := by
  unfold finishStore
  rw [memWrite_withUnread]
  cases hm : memWrite s a n v with
  | some t => exact .advance hw (leaves_of_memWrite hst hm)
  | none => exact .raise rfl

theorem ifFpEnabled_mirrors {r r' : Result} (hr : Mirrors i s h r r') :
    Mirrors i s h (ifFpEnabled s r) (ifFpEnabled (s.withUnread h) r') :=
  .ite hr (.raise rfl)

theorem finishArithS_mirrors {rd : Reg} (hd : i.fpDest = some rd) (hw : i.writesFlags = false) (op : FpOp)
    (rn rm : Reg) : Mirrors i s h (finishArithS op rd rn rm s) (finishArithS op rd rn rm (s.withUnread h)) :=
  ifFpEnabled_mirrors (.ite (.raise rfl) (.advance hw (Leaves.refl.writeD hd _)))

theorem finishArithD_mirrors {rd : Reg} (hd : i.fpDest = some rd) (hw : i.writesFlags = false) (op : FpOp)
    (rn rm : Reg) : Mirrors i s h (finishArithD op rd rn rm s) (finishArithD op rd rn rm (s.withUnread h)) :=
  ifFpEnabled_mirrors (.ite (.raise rfl) (.advance hw (Leaves.refl.writeD hd _)))

theorem finishCompare_mirrors (hw : i.writesFlags = true) (a b : FpDatum) :
    Mirrors i s h (finishCompare a b s) (finishCompare a b (s.withUnread h)) :=
  ifFpEnabled_mirrors (.ite (.raise rfl) (.advance_writeFlags hw _ .refl))

/-- What an `STXR` that passes its checks does besides storing (R179). -/
theorem stxrEnd_mirrors {rs rt rn : Reg} {t : State} (status : Word) (leaves : Leaves (.stxr rs rt rn) s t) :
    Mirrors (.stxr rs rt rn) s h (.next ((t.writeX rs status).setMonitor .clear).advance)
      (.next (((t.withUnread h).writeX rs status).setMonitor .clear).advance) := by
  rw [State.writeX_withUnread]
  exact .advance rfl ((leaves.writeX rfl status).setMonitor (.inr ⟨_, _, _, rfl⟩) trivial)

theorem execStxr_mirrors (rs rt rn : Reg) :
    Mirrors (.stxr rs rt rn) s h (execStxr rs rt rn s) (execStxr rs rt rn (s.withUnread h)) := by
  unfold execStxr
  refine .ite (.refused _) ?_
  dsimp only
  rw [State.readX_withUnread, State.readX_withUnread, memWrite_withUnread]
  rcases memWrite_eq s (s.readX rn) 8 (s.readX rt).toNat with ⟨_, he⟩ | ⟨_, he⟩
  · have leaves : Leaves (.stxr rs rt rn) s _ := leaves_of_memWrite rfl he
    rw [he]
    dsimp only [Option.map]
    exact .ite (stxrEnd_mirrors 0#64 (leaves.draw _)) (stxrEnd_mirrors 1#64 (Leaves.refl.draw _))
  · rw [he]
    exact .raise rfl

end Endings

/-- Every instruction, by the way its meaning ends; only `B.cond` needs the flags to be the same (R123). -/
theorem exec_mirrors (i : Instr) (s : State) (h : Unread) (hflags : (∀ c a, i ≠ .bCond c a) ∨ h.flags = s.flags) :
    Mirrors i s h (exec i s) (exec i (s.withUnread h)) := by
  cases i with
  | and | orr | eor | add | sub | lsr | lsl | addi | subi | andi | orri | eori | movz | movk | sdiv | udiv | mul
  | smulh | umulh => exact finishX_mirrors rfl rfl _
  | adds | subs | ands | addis | subis | andis => exact finishXFlags_mirrors rfl rfl _ _
  | b | cbz | cbnz => exact finishBranch_mirrors rfl rfl _ _ .refl
  | bCond cond address =>
    have hf : h.flags = s.flags := hflags.resolve_left fun hne => hne _ _ rfl
    change Mirrors _ s h (finishBranch (conditionHolds cond s.flags) _ s)
      (finishBranch (conditionHolds cond h.flags) _ (s.withUnread h))
    rw [hf]
    exact finishBranch_mirrors rfl rfl _ _ .refl
  | bl address =>
    change Mirrors _ s h (execBl address s) (finishBranch true _ ((s.withUnread h).writeX 30#5 (s.pc + 4#64)))
    rw [State.writeX_withUnread]
    exact finishBranch_mirrors rfl rfl _ _ (Leaves.refl.writeX rfl _)
  | br rn => exact .completed s (s.readX rn) .refl fun hn => by cases hn
  | ldurb | ldurh | ldursw | ldur =>
    dsimp only [exec, execLdurb, execLdurh, execLdursw, execLdur]
    exact finishLoad_mirrors rfl (fun _ => State.writeX_withUnread _ _ _ _) fun _ _ => Leaves.refl.writeX rfl _
  | ldxr rt rn =>
    dsimp only [exec, execLdxr]
    exact finishLoad_mirrors rfl
      (fun _ => congrArg (State.setMonitor · (.armed (s.readX rn))) (State.writeX_withUnread s h rt _))
      fun _ haligned => (Leaves.refl.writeX rfl _).setMonitor (.inl ⟨rt, rn, rfl⟩) haligned
  | ldurs | ldurd =>
    exact ifFpEnabled_mirrors (finishLoad_mirrors rfl (fun _ => rfl) fun _ _ => Leaves.refl.writeD rfl _)
  | sturb | sturh | sturw | stur => exact finishStore_mirrors rfl rfl _
  | sturs | sturd => exact ifFpEnabled_mirrors (finishStore_mirrors rfl rfl _)
  | stxr => exact execStxr_mirrors _ _ _
  | fadds | fsubs | fmuls | fdivs => exact finishArithS_mirrors rfl rfl _ _ _
  | faddd | fsubd | fmuld | fdivd => exact finishArithD_mirrors rfl rfl _ _ _
  | fcmps | fcmpd => exact finishCompare_mirrors rfl _ _

/-- What a next state of an instruction is: exception entry, or completion with the frame of `Leaves`. -/
theorem exec_next_cases {i : Instr} {s t : State} (ht : exec i s = .next t) :
    (∃ e, raisable e.cls = true ∧ t = takeException e s) ∨
      ∃ u target, Leaves i s u ∧ (i.isBranch = false → target = s.pc + 4#64) ∧ t = u.jump target := by
  have hm := exec_mirrors i s s.unread (.inr rfl)
  rw [ht] at hm
  generalize exec i (s.withUnread s.unread) = r at hm
  cases hm with
  | raised e he => exact .inl ⟨e, he, rfl⟩
  | completed u target leaves next => exact .inr ⟨u, target, leaves, next, rfl⟩

/-! ## The frame and the zero register -/

/-- Settles O23: a next state is exception entry, or the frame that each ending of a meaning keeps. -/
theorem instructionFrame : Obligations.InstructionFrame := by
  intro i s t ht
  rcases exec_next_cases ht with ⟨e, _, rfl⟩ | ⟨u, target, h, hpc, rfl⟩
  · exact .inl ⟨e, took_takeException e s⟩
  · have record : SameRecord s (u.jump target) := h.record.trans ⟨rfl, rfl, rfl, rfl, rfl⟩
    exact .inr ⟨h.int, h.fp, h.flags, h.monitor, record, hpc, h.memory, h.outside⟩

/-- Settles O27: by the frame no register but the destination changes, and register 31 reads as zero before and after. -/
theorem zeroRegisterReadsZeroAndDiscards : Obligations.ZeroRegisterReadsZeroAndDiscards := by
  refine ⟨State.readX_zero, fun i s t hdest ht r => ?_⟩
  rcases instructionFrame i s t ht with ⟨e, took⟩ | ⟨hint, _⟩
  · exact took.int r
  · by_cases hr : r = 31#5
    · rw [hr, State.readX_zero, State.readX_zero]
    · exact hint r fun h => hr (Option.some.inj (h.symm.trans hdest))

/-! ## Noninterference -/

/-- Settles O24, with `s.writeFlags f` as `s` with other flags and its own record. -/
theorem onlyConditionalBranchReadsFlags : Obligations.OnlyConditionalBranchReadsFlags := by
  intro i s f hi
  have hm : Mirrors i s { s.unread with flags := f } (exec i s) (exec i (s.writeFlags f)) :=
    exec_mirrors i s _ (.inl hi)
  generalize exec i s = r, exec i (s.writeFlags f) = r' at hm
  cases hm with
  | raised e _ => exact ⟨f, rfl, fun _ => rfl, fun _ => .inr ⟨⟨e, took_takeException e s⟩, rfl⟩⟩
  | completed t target leaves _ =>
    obtain ⟨hesr, hpc, haddr, -, -⟩ := leaves.record
    refine ⟨if i.writesFlags then t.flags else f, ?_, fun hw => by simp [hw], fun hw => .inl (by simp [hw])⟩
    simp only [Unread.after, State.withUnread, State.unread, State.jump, State.writeFlags, ← hesr, ← hpc, ← haddr]
  | fault x => rfl
  | refused r => rfl

/-- Settles O25: the flags are the same, so no instruction can tell the two states apart. -/
theorem noInstructionReadsTheRecord : Obligations.NoInstructionReadsTheRecord := by
  intro i s e p a
  have hm : Mirrors i s ⟨s.flags, e, p, a⟩ (exec i s) (exec i { s with esr := e, faultPc := p, faultAddr := a }) :=
    exec_mirrors i s _ (.inr rfl)
  generalize exec i s = r, exec i { s with esr := e, faultPc := p, faultAddr := a } = r' at hm
  cases hm with
  | raised x _ => exact ⟨_, rfl, fun _ => rfl, fun _ => rfl, fun _ => rfl, rfl, rfl, rfl, rfl, rfl⟩
  | completed t target leaves _ =>
    refine ⟨_, rfl, fun _ => rfl, fun _ => rfl, fun _ => rfl, ?_, rfl, rfl, rfl, rfl⟩
    change (if i.writesFlags then t.flags else s.flags) = t.flags
    cases hw : i.writesFlags with
    | false => exact (leaves.flags hw).symm
    | true => rfl
  | fault x => rfl
  | refused r => rfl

/-! ## The invariant -/

section Invariant

variable {i : Instr} {s t : State}

theorem recordAgrees_of_running (hr : s.run = .running) :
    recordAgrees s ↔ s.esr = none ∧ s.faultPc = none ∧ s.faultAddr = none := by
  simp [recordAgrees, hr]

/-- Exception entry in a running state writes a record that agrees (R253). -/
theorem State.Inv.takeException {e : Exc} (h : s.Inv) (hr : s.run = .running) (he : raisable e.cls = true) :
    (takeException e s).Inv where
  memory := h.memory
  monitor := trivial
  record := by
    obtain ⟨-, -, haddr⟩ := (recordAgrees_of_running hr).mp h.record
    refine ⟨⟨_, rfl⟩, rfl, ?_, rfl, he⟩
    rw [takeException_faultAddr, haddr]
    cases e <;> rfl

/-- The end of the run at `HALT_PC` (R293). -/
theorem State.Inv.ended (h : s.Inv) (hr : s.run = .running) (hpc : s.pc = s.cfg.haltPc) :
    ({ s with run := .ended } : State).Inv where
  memory := h.memory
  monitor := h.monitor
  record := by
    obtain ⟨hesr, hfpc, haddr⟩ := (recordAgrees_of_running hr).mp h.record
    exact ⟨hesr, hfpc, haddr, hpc⟩

theorem State.Inv.jump_of_leaves (h : s.Inv) (hr : s.run = .running) (leaves : Leaves i s t) (target : Word) :
    (t.jump target).Inv where
  memory := leaves.canonical h.memory
  monitor := leaves.aligned h.monitor
  record := by
    obtain ⟨hesr, hfpc, haddr, hrun, -⟩ := leaves.record
    refine (recordAgrees_of_running (s := t.jump target) (hrun.trans hr)).mpr ?_
    obtain ⟨hesr', hfpc', haddr'⟩ := (recordAgrees_of_running hr).mp h.record
    exact ⟨hesr.trans hesr', hfpc.trans hfpc', haddr.trans haddr'⟩

theorem State.Inv.exec (h : s.Inv) (hr : s.run = .running) (ht : exec i s = .next t) : t.Inv := by
  rcases exec_next_cases ht with ⟨e, he, rfl⟩ | ⟨u, target, leaves, _, rfl⟩
  · exact h.takeException hr he
  · exact h.jump_of_leaves hr leaves target

/-- A fetch raises class 34 or class 32 (R55, R252). -/
theorem raisable_of_fetch_raised {e : Exc} (h : fetch s = .raised e) : raisable e.cls = true := by
  rcases fetch_cases s with ⟨_, he⟩ | ⟨_, _, he⟩ | ⟨_, _, u, _, he⟩ | ⟨_, _, bytes, _, he⟩ <;> rw [h] at he <;> cases he
  · rfl
  · rfl

end Invariant

/-- Settles O13, by what a step can do: each way to a next state keeps the invariant. -/
theorem stepKeepsInvariant : Obligations.StepKeepsInvariant := by
  intro s t h hst
  rcases step_cases s with ⟨_, he⟩ | ⟨hr, hpc, he⟩ | ⟨hr, _, e, hf, he⟩ | ⟨_, _, u, _, he⟩ |
    ⟨hr, _, w, _, ⟨_, he⟩ | ⟨why, _, he⟩ | ⟨i, _, he⟩⟩ <;> rw [hst] at he
  · cases he; exact h
  · cases he; exact h.ended hr hpc
  · cases he; exact h.takeException hr (raisable_of_fetch_raised hf)
  · cases he
  · cases he; exact h.takeException hr rfl
  · cases he
  · exact h.exec hr he.symm

/-! ## A load of an unwritten byte -/

/-- Every load is the shared ending behind the check of the floating-point unit (R144, R185). -/
theorem exec_eq_finishLoad {i : Instr} {s : State} {a : Word} {n : Nat} (hacc : dataAccess i s = some (.read, a, n))
    (hfp : i.usesFpUnit = true → s.cfg.fpEnabled = true) : ∃ put, exec i s = finishLoad a n put s := by
  cases i with
  | ldurb | ldurh | ldursw | ldur | ldxr =>
    cases hacc
    dsimp only [exec, execLdurb, execLdurh, execLdursw, execLdur, execLdxr]
    exact ⟨_, rfl⟩
  | ldurs | ldurd => cases hacc; exact ⟨_, if_pos (hfp rfl)⟩
  | _ => cases hacc

/-- Settles O49: past its checks a load reads in rising order of address and stops at the first unwritten byte. -/
theorem unwrittenLoadIsAModelFault : Obligations.UnwrittenLoadIsAModelFault := by
  intro i s a n j hacc hfp hmay hj hwritten hunwritten
  have hread := Memory.readBytes_first_unwritten s.mem a.toNat n j hj hwritten hunwritten
  obtain ⟨put, he⟩ := exec_eq_finishLoad hacc hfp
  rw [he]
  rcases finishLoad_cases a n put s with ⟨_, bytes, hb, _⟩ | ⟨ha, _⟩ | ⟨_, u, hu, hfault⟩
  · rw [hread] at hb; cases hb
  · exact absurd hmay ((accessible_eq_false_iff _ _ _ _).mp ha)
  · rw [hread] at hu; cases hu; exact hfault

/-! ## Reset -/

/-- Settles O12: reset lists no byte, holds no address in the monitor and records nothing. -/
theorem invariantAtReset : Obligations.InvariantAtReset where
  memory := reset_mem_wf
  monitor := trivial
  record := ⟨rfl, rfl, rfl⟩

theorem reset_readX (r : Reg) : State.reset.readX r = 0#64 := by
  unfold State.readX
  split
  · exact Vector.getElem_replicate _
  · rfl

theorem reset_readD (r : Reg) : State.reset.readD r = 0#64 := Vector.getElem_replicate _

/-- Settles O16: each value as `State.reset` gives it. -/
theorem resetLeaves : Obligations.ResetLeaves :=
  ⟨⟨rfl, rfl, rfl, rfl, State.readX_zero _, rfl, fun _ => rfl⟩, rfl, reset_readX, reset_readD, rfl, rfl⟩

/-! ## A launch -/

section Folds

variable {σ κ ν ω : Type} {write : σ → κ × ν → σ} {read : σ → ω}

/-- Writes that each keep a reading keep it together. -/
theorem read_foldl_of_keeps (cells : List (κ × ν)) (s : σ) (keeps : ∀ u, ∀ c ∈ cells, read (write u c) = read u) :
    read (cells.foldl write s) = read s := by
  induction cells generalizing s with
  | nil => rfl
  | cons c cells ih =>
    rw [List.foldl_cons, ih _ fun u c' hc' => keeps u c' (List.mem_cons_of_mem c hc'), keeps s c List.mem_cons_self]

/-- Where each key is listed once, what a cell writes stands after all writes. -/
theorem read_foldl_of_mem {cells : List (κ × ν)} {c : κ × ν} {v : ω} (s : σ) (nodup : (cells.map Prod.fst).Nodup)
    (mem : c ∈ cells) (hit : ∀ u, read (write u c) = v)
    (miss : ∀ u, ∀ c' ∈ cells, c'.1 ≠ c.1 → read (write u c') = read u) : read (cells.foldl write s) = v := by
  obtain ⟨before, after, rfl⟩ := List.append_of_mem mem
  rw [List.map_append, List.map_cons, List.nodup_append, List.nodup_cons] at nodup
  obtain ⟨-, ⟨hnot, -⟩, -⟩ := nodup
  rw [List.foldl_append, List.foldl_cons, read_foldl_of_keeps (read := read) after _ fun u c' hc' => ?_, hit]
  refine miss u c' (by simp [hc']) fun heq => hnot ?_
  rw [← heq]
  exact List.mem_map_of_mem hc'

end Folds

/-- A list of integer registers written changes no other field. -/
theorem foldl_writeX_eq (regs : List (Reg × Word)) (s : State) :
    ∃ x, regs.foldl (fun t r => t.writeX r.1 r.2) s = { s with x := x } := by
  induction regs generalizing s with
  | nil => exact ⟨s.x, rfl⟩
  | cons r regs ih =>
    obtain ⟨x, hx⟩ := ih (s.writeX r.1 r.2)
    refine ⟨x, hx.trans ?_⟩
    unfold State.writeX
    split <;> rfl

/-- A list of floating-point registers written changes no other field. -/
theorem foldl_writeD_eq (regs : List (Reg × Word)) (s : State) :
    ∃ d, regs.foldl (fun t r => t.writeD r.1 r.2) s = { s with d := d } := by
  induction regs generalizing s with
  | nil => exact ⟨s.d, rfl⟩
  | cons r regs ih => exact ih (s.writeD r.1 r.2)

/-- A launch sets the parameters, `pc`, the flags, memory and the registers; the rest is as at reset (R290). -/
theorem launch_eq (cfg : Config) (l : Launch) :
    ∃ x d, launch cfg l =
      { State.reset with
        cfg := cfg
        pc := l.resetPc
        flags := l.flags.getD State.reset.flags
        mem := launchMemory l.mem
        x := x
        d := d } := by
  unfold launch
  obtain ⟨x, hx⟩ := foldl_writeX_eq l.x _
  obtain ⟨d, hd⟩ := foldl_writeD_eq l.d _
  exact ⟨x, d, by rw [hd, hx]⟩

theorem launch_mem (cfg : Config) (l : Launch) : (launch cfg l).mem = launchMemory l.mem := by
  obtain ⟨x, d, h⟩ := launch_eq cfg l
  rw [h]

/-- Settles O14: the launch memory is built by writes, which keep the canonical form; the rest is as at reset. -/
theorem launchSatisfiesInvariant : Obligations.LaunchSatisfiesInvariant := by
  intro cfg l
  obtain ⟨x, d, h⟩ := launch_eq cfg l
  rw [h]
  exact { memory := Memory.wf_foldl_write l.mem [] rfl, monitor := trivial, record := ⟨rfl, rfl, rfl⟩ }

theorem launch_readX {cfg : Config} {l : Launch} (nodup : (l.x.map Prod.fst).Nodup) {r : Reg} {v : Word}
    (mem : (r, v) ∈ l.x) (hr : r ≠ 31#5) : (launch cfg l).readX r = v := by
  refine (read_foldl_of_keeps (write := fun t c => State.writeD t c.1 c.2) (read := (State.readX · r)) l.d _
    fun _ _ _ => rfl).trans ?_
  refine read_foldl_of_mem (read := (State.readX · r)) _ nodup mem (fun u => ?_) fun u c' _ hne =>
    u.readX_writeX_of_ne hne.symm c'.2
  rw [State.readX_writeX, if_pos ⟨rfl, hr⟩]

theorem launch_readD {cfg : Config} {l : Launch} (nodup : (l.d.map Prod.fst).Nodup) {r : Reg} {v : Word}
    (mem : (r, v) ∈ l.d) : (launch cfg l).readD r = v := by
  refine read_foldl_of_mem (read := (State.readD · r)) _ nodup mem (fun u => ?_) fun u c' _ hne => ?_
  · rw [State.readD_writeD, if_pos rfl]
  · rw [State.readD_writeD, if_neg hne.symm]

/-- The byte at an address the launch lists once (R290). -/
theorem launchMemory_read_of_mem {cells : List Host.Cell} (nodup : (cells.map Prod.fst).Nodup)
    (bound : ∀ c ∈ cells, c.1 < 2 ^ 64) {c : Host.Cell} (mem : c ∈ cells) :
    (launchMemory cells).read c.1 = some c.2 := by
  refine read_foldl_of_mem (read := (Memory.read · c.1)) _ nodup mem (fun u => ?_) fun u c' hc' hne => ?_
  · rw [Nat.mod_eq_of_lt (bound c mem), Memory.read_write, if_pos rfl]
  · rw [Nat.mod_eq_of_lt (bound c' hc'), Memory.read_write, if_neg hne.symm]

/-- Every byte the launch does not list is unwritten (R290, R36). -/
theorem launchMemory_read_of_not_listed {cells : List Host.Cell} (bound : ∀ c ∈ cells, c.1 < 2 ^ 64) {a : Nat}
    (absent : ∀ c ∈ cells, c.1 ≠ a) : (launchMemory cells).read a = none := by
  refine read_foldl_of_keeps (read := (Memory.read · a)) cells [] fun u c hc => ?_
  rw [Nat.mod_eq_of_lt (bound c hc), Memory.read_write, if_neg (absent c hc).symm]

/-- Settles O15: no write of the launch reaches another field, and what is listed once is not written again. -/
theorem launchStateHoldsWhatItIsGiven : Obligations.LaunchStateHoldsWhatItIsGiven := by
  intro cfg l
  have hflags : ∀ f, l.flags = some f → (launch cfg l).flags = f := fun f hf => by
    obtain ⟨x, d, h⟩ := launch_eq cfg l
    rw [h, hf]
    rfl
  have hmem : (l.mem.map Prod.fst).Nodup → (∀ c ∈ l.mem, c.1 < 2 ^ 64) →
      (∀ c ∈ l.mem, (launch cfg l).mem.read c.1 = some c.2) ∧
        ∀ a, (∀ c ∈ l.mem, c.1 ≠ a) → (launch cfg l).mem.read a = none := by
    rw [launch_mem]
    exact fun nodup bound => ⟨fun c => launchMemory_read_of_mem nodup bound,
      fun a => launchMemory_read_of_not_listed bound⟩
  obtain ⟨x, d, h⟩ := launch_eq cfg l
  exact ⟨congrArg State.cfg h, congrArg State.pc h, congrArg State.monitor h, congrArg State.esr h,
    congrArg State.faultPc h, congrArg State.faultAddr h, congrArg State.run h, State.readX_zero _, hflags,
    fun nodup r v => launch_readX nodup, fun nodup r v => launch_readD nodup, hmem⟩

end Sys2Proof.Machine

/-! PROOFS. Memory (spec/20_memory.md): how a program comes to be fetched, that `pc` stays aligned but for `BR`, the
aborts of data accesses, the exclusive pair, and accesses of different widths to the same bytes. -/

namespace Sys2Proof.Machine

/-! ## A word placed at `pc` -/

/-- The word placed at `pc` is the word the next step fetches (R55). -/
theorem withFetchWord_fetches {s : State} {nbits w : Nat} (hrun : s.run = .running) (hhalt : s.pc ≠ s.cfg.haltPc)
    (hmay : MayAccess s .fetch s.pc 4) : Fetches (s.withFetchWord nbits w) (BitVec.ofNat 32 (w % 2 ^ nbits)) :=
  ⟨hrun, hhalt, hmay, fun j hj => read_writeBytes_beBytes _ _ _ _ j hj⟩

theorem step_withFetchWord {s : State} {nbits w : Nat} {i : Instr} (hrun : s.run = .running)
    (hhalt : s.pc ≠ s.cfg.haltPc) (hmay : MayAccess s .fetch s.pc 4)
    (hdecode : decode s.cfg.unusedFields (BitVec.ofNat 32 (w % 2 ^ nbits)) = .instr i) :
    step (s.withFetchWord nbits w) = exec i (s.withFetchWord nbits w) :=
  stepRunsDecodedInstruction _ _ ⟨_, withFetchWord_fetches hrun hhalt hmay, hdecode⟩

/-- The host's reading of a word is the decoder's under `refuse`: the bytes it is laid out in give it back (R55). -/
theorem decodeTableWord_eq_some_iff (nbits w : Nat) (i : Instr) :
    decodeTableWord nbits w = some i ↔ decode .refuse (BitVec.ofNat 32 (w % 2 ^ nbits)) = .instr i := by
  unfold decodeTableWord decodeBytes
  rw [wordOfBytes_bytesOfWord]
  cases decode .refuse (BitVec.ofNat 32 (w % 2 ^ nbits)) with
  | instr j => simp
  | undefined => simp
  | refused why => simp

/-- At reset the four bytes at `pc` may be fetched: every address has all marks (log 4). -/
theorem reset_mayAccess_fetch : MayAccess State.reset .fetch State.reset.pc 4 := ⟨rfl, by decide⟩

/-- Settles O11: the word placed is fetched, and `withFetchWord` writes memory only. -/
theorem stepAfterWithFetchWord : Obligations.StepAfterWithFetchWord := by
  refine ⟨fun s nbits w i => step_withFetchWord, fun s nbits w => ?_, fun nbits w i htable => ?_⟩
  · have outside : SameMemoryOutside s.pc.toNat 4 s (s.withFetchWord nbits w) := fun b hb =>
      Memory.read_writeBytes_outside _ _ _ _ (by simpa [bytesOfWord] using hb)
    exact ⟨fun _ => rfl, fun _ => rfl, outside, ⟨rfl, rfl, rfl, rfl, rfl⟩, rfl, rfl, rfl⟩
  · exact step_withFetchWord rfl (by decide) reset_mayAccess_fetch ((decodeTableWord_eq_some_iff nbits w i).mp htable)

/-! ## Alignment of `pc` -/

/-- A multiple of 4, as an instruction address is (R57). -/
def WordAligned (a : Word) : Prop := a.toNat % 4 = 0

theorem WordAligned.add {a b : Word} (ha : WordAligned a) (hb : WordAligned b) : WordAligned (a + b) := by
  unfold WordAligned at *
  rw [BitVec.toNat_add]
  omega

theorem wordAligned_four : WordAligned 4#64 := rfl

theorem wordAligned_ofInt_four_mul (k : Int) : WordAligned (BitVec.ofInt 64 (4 * k)) := by
  unfold WordAligned
  rw [BitVec.toNat_ofInt]
  omega

theorem wordAligned_branchAddr (address : BitVec 26) : WordAligned (branchAddr address) := by
  rw [branchAddr_eq]
  exact wordAligned_ofInt_four_mul _

theorem wordAligned_condBranchAddr (address : BitVec 19) : WordAligned (condBranchAddr address) := by
  rw [condBranchAddr_eq]
  exact wordAligned_ofInt_four_mul _

/-- A branch keeps `pc` aligned, taken or not: its offset is a multiple of 4 (R91, R120). -/
theorem finishBranch_wordAligned {taken : Bool} {offset : Word} {s t : State} (ho : WordAligned offset)
    (hs : WordAligned s.pc) (ht : finishBranch taken offset s = .next t) : WordAligned t.pc := by
  obtain ⟨u, hu, jumped⟩ := finishBranch_spec taken offset s
  rw [ht] at hu
  cases hu
  rw [jumped.pc]
  cases taken with
  | false => exact hs.add wordAligned_four
  | true => exact hs.add ho

/-- An instruction that is no branch leaves `pc` where exception entry finds it, or advances it (R24, R253). -/
theorem exec_wordAligned_of_not_branch {i : Instr} {s t : State} (hi : i.isBranch = false) (hs : WordAligned s.pc)
    (ht : exec i s = .next t) : WordAligned t.pc := by
  rcases exec_next_cases ht with ⟨e, _, rfl⟩ | ⟨u, target, _, hpc, rfl⟩
  · exact hs
  · rw [State.jump_pc, hpc hi]
    exact hs.add wordAligned_four

/-- Every instruction but `BR` keeps `pc` aligned; `BR` jumps to its register, whatever it holds (R57, R127). -/
theorem exec_wordAligned_or_br {i : Instr} {s t : State} (hs : WordAligned s.pc) (ht : exec i s = .next t) :
    WordAligned t.pc ∨ ∃ rn, i = .br rn ∧ t.pc = s.readX rn := by
  cases i with
  | b address => exact .inl (finishBranch_wordAligned (wordAligned_branchAddr address) hs ht)
  | bl address =>
    have hlink : WordAligned (s.writeX 30#5 (s.pc + 4#64)).pc := by rwa [State.writeX_pc]
    exact .inl (finishBranch_wordAligned (wordAligned_branchAddr address) hlink ht)
  | bCond _ address | cbz _ address | cbnz _ address =>
    exact .inl (finishBranch_wordAligned (wordAligned_condBranchAddr address) hs ht)
  | br rn => cases ht; exact .inr ⟨rn, rfl, rfl⟩
  | _ => exact .inl (exec_wordAligned_of_not_branch rfl hs ht)

/-- Settles O22: a step that runs no instruction keeps `pc`, and only `BR` makes it misaligned. -/
theorem misalignedPcOnlyFromBr : Obligations.MisalignedPcOnlyFromBr := by
  intro s t hs hst hmis
  rcases step_cases s with ⟨_, he⟩ | ⟨_, _, he⟩ | ⟨_, _, e, _, he⟩ | ⟨_, _, u, _, he⟩ |
    ⟨hrun, hhalt, w, hfetch, ⟨_, he⟩ | ⟨why, _, he⟩ | ⟨i, hdecode, he⟩⟩ <;> rw [hst] at he
  · cases he; exact absurd hs hmis
  · cases he; exact absurd hs hmis
  · cases he; exact absurd hs hmis
  · cases he
  · cases he; exact absurd hs hmis
  · cases he
  · rcases exec_wordAligned_or_br hs he.symm with haligned | ⟨rn, rfl, hpc⟩
    · exact absurd haligned hmis
    · exact ⟨rn, ⟨w, fetches_of_fetch hrun hhalt hfetch, hdecode⟩, hpc⟩

/-! ## Accesses that abort -/

/-- Every store but `STXR` is the shared ending behind the check of the floating-point unit (R144, R185). -/
theorem exec_eq_finishStore {i : Instr} {s : State} {a : Word} {n : Nat} (hacc : dataAccess i s = some (.write, a, n))
    (hfp : i.usesFpUnit = true → s.cfg.fpEnabled = true) (hi : ∀ rs rt rn, i ≠ .stxr rs rt rn) :
    ∃ v, exec i s = finishStore a n v s := by
  cases i with
  | sturb | sturh | sturw | stur => cases hacc; exact ⟨_, rfl⟩
  | sturs | sturd => cases hacc; exact ⟨_, if_pos (hfp rfl)⟩
  | stxr rs rt rn => exact absurd rfl (hi rs rt rn)
  | _ => cases hacc

/-- `STXR` makes its checks before it looks at the monitor (R179, log 32). -/
theorem execStxr_of_not_mayAccess {rs rt rn : Reg} {s : State} (ho : stxrOverlaps rs rt rn = false)
    (hmay : ¬MayAccess s .write (s.readX rn) 8) : exec (.stxr rs rt rn) s = raise (.dataAbort (s.readX rn)) s := by
  rcases execStxr_cases rs rt rn s with ⟨ho', _⟩ | ⟨_, _, he⟩ | ⟨_, ha, _⟩ | ⟨_, ha, _⟩
  · rw [ho] at ho'; cases ho'
  · exact he
  · exact absurd ((accessible_iff_mayAccess _ _ _ _).mp ha) hmay
  · exact absurd ((accessible_iff_mayAccess _ _ _ _).mp ha) hmay

/-- No load or store fetches (R51). -/
theorem dataAccess_ne_fetch (i : Instr) (s : State) (a : Word) (n : Nat) : dataAccess i s ≠ some (.fetch, a, n) := by
  cases i <;> exact fun h => by cases h

/-- A misaligned or forbidden access is Data Abort, whichever load or store makes it (R53, R54, R56). -/
theorem exec_of_not_mayAccess {i : Instr} {s : State} {k : AccessKind} {a : Word} {n : Nat}
    (hacc : dataAccess i s = some (k, a, n)) (hwf : i.wellFormed = true)
    (hfp : i.usesFpUnit = true → s.cfg.fpEnabled = true) (hmay : ¬MayAccess s k a n) :
    exec i s = raise (.dataAbort a) s := by
  cases k with
  | read =>
    obtain ⟨put, he⟩ := exec_eq_finishLoad hacc hfp
    rw [he, finishLoad_of_not_mayAccess hmay]
  | write =>
    by_cases hi : ∃ rs rt rn, i = .stxr rs rt rn
    · obtain ⟨rs, rt, rn, rfl⟩ := hi
      cases hacc
      exact execStxr_of_not_mayAccess (by simpa [Instr.wellFormed] using hwf) hmay
    · obtain ⟨v, he⟩ := exec_eq_finishStore hacc hfp fun rs rt rn h => hi ⟨rs, rt, rn, h⟩
      rw [he, finishStore_of_not_mayAccess hmay]
  | fetch => exact absurd hacc (dataAccess_ne_fetch i s a n)

/-- Settles O48: the access answers exception entry, which writes the record and nothing else. -/
theorem misalignedOrForbiddenAccessAborts : Obligations.MisalignedOrForbiddenAccessAborts := by
  intro i s k a n hacc hwf hfp hmay
  have he := exec_of_not_mayAccess hacc hwf hfp hmay
  have took := took_takeException (.dataAbort a) s
  refine ⟨⟨_, he, took⟩, fun t ht => ?_⟩
  rw [he] at ht
  cases ht
  exact ⟨took.faultAddr, took.memory, took.int, took.fp⟩

/-! ## The exclusive accesses -/

/-- `LDXR` of bytes that may be read and are written (R180). -/
theorem execLdxr_of_holds {rt rn : Reg} {s : State} {b : Nat → Byte} (h : Holds s (s.readX rn) 8 b) :
    ∃ t, exec (.ldxr rt rn) s = .next t ∧ WroteX rt (be64 b) s t ∧ t.flags = s.flags ∧
      t.monitor = .armed (s.readX rn) ∧ t.pc = s.pc + 4#64 := by
  have hvalue : loadZero 64 ((List.range 8).map b) = be64 b := by
    rw [loadZero, ofNat_beNat_eight, BitVec.setWidth_eq]
  have he : exec (.ldxr rt rn) s = .next ((s.writeX rt (be64 b)).setMonitor (.armed (s.readX rn))).advance := by
    rw [← hvalue]
    exact finishLoad_of_holds h fun bytes u => (u.writeX rt (loadZero 64 bytes)).setMonitor (.armed (s.readX rn))
  exact ⟨_, he, (WroteX.of_writeX rt (be64 b) s).trans_frame rfl rfl rfl ⟨rfl, rfl, rfl, rfl, rfl⟩, by simp, rfl,
    by simp⟩

/-- The end of an `STXR` that passes its checks, whether or not it has stored: before it only the count of draws and
the memory may have changed (R179). -/
theorem stxrEnds_of_writeX (rs : Reg) (status : Word) (s : State) (k : Nat) (m : Memory) :
    StxrEnds rs status s ((({ s with draws := k, mem := m } : State).writeX rs status).setMonitor .clear).advance := by
  have wrote := WroteX.of_writeX rs status { s with draws := k, mem := m }
  exact ⟨wrote.written, wrote.others, wrote.fp, by simp, rfl,
    ⟨wrote.record.esr, wrote.record.faultPc, wrote.record.faultAddr, wrote.record.run, wrote.record.cfg⟩, by simp⟩

section Stxr

variable {rs rt rn : Reg} {s : State}

/-- `STXR` stores where the monitor is armed for its address and no failure is drawn (R179). -/
theorem execStxr_stores (ho : stxrOverlaps rs rt rn = false) (hmay : MayAccess s .write (s.readX rn) 8)
    (hmon : s.monitor = .armed (s.readX rn)) (hdraw : (s.cfg.stxrSpuriousFail && Config.stxrFails s.draws) = false) :
    ∃ t, exec (.stxr rs rt rn) s = .next t ∧ StxrStored rs (s.readX rn) (s.readX rt) s t := by
  rcases execStxr_cases rs rt rn s with ⟨ho', _⟩ | ⟨_, ha, _⟩ | ⟨_, _, _, _, he⟩ | ⟨_, _, hfail, _⟩
  · rw [ho] at ho'; cases ho'
  · exact absurd hmay ((accessible_eq_false_iff _ _ _ _).mp ha)
  · refine ⟨_, he, stxrEnds_of_writeX rs 0#64 s _ _, fun c hc => ?_, fun j hj => ?_⟩ <;>
      simp only [State.advance_mem, State.setMonitor_mem, State.writeX_mem]
    · exact Memory.read_writeBytes_outside _ _ _ _ (by simpa using hc)
    · exact read_writeBytes_beBytes _ _ _ _ j hj
  · exact absurd ⟨hmon, hdraw⟩ hfail

/-- `STXR` stores nothing where the monitor does not match or a failure is drawn (R179). -/
theorem execStxr_fails (ho : stxrOverlaps rs rt rn = false) (hmay : MayAccess s .write (s.readX rn) 8)
    (hfail : ¬(s.monitor = .armed (s.readX rn) ∧ (s.cfg.stxrSpuriousFail && Config.stxrFails s.draws) = false)) :
    ∃ t, exec (.stxr rs rt rn) s = .next t ∧ StxrFailed rs s t := by
  rcases execStxr_cases rs rt rn s with ⟨ho', _⟩ | ⟨_, ha, _⟩ | ⟨_, _, hmon, hdraw, _⟩ | ⟨_, _, _, he⟩
  · rw [ho] at ho'; cases ho'
  · exact absurd hmay ((accessible_eq_false_iff _ _ _ _).mp ha)
  · exact absurd ⟨hmon, hdraw⟩ hfail
  · exact ⟨_, he, stxrEnds_of_writeX rs 1#64 s _ s.mem, fun c => by simp⟩

end Stxr

/-- An access allowed in one state is allowed under the same run constants (R58). -/
theorem MayAccess.of_cfg_eq {s t : State} {k : AccessKind} {a : Word} {n : Nat} (h : MayAccess s k a n)
    (hcfg : t.cfg = s.cfg) : MayAccess t k a n := by
  obtain ⟨haligned, hmarks⟩ := h
  exact ⟨haligned, by rwa [hcfg]⟩

/-- A load to another register keeps the base; register 31 reads as zero before and after (R22). -/
theorem WroteX.base_eq {rt rn : Reg} {v : Word} {s t : State} (h : WroteX rt v s t) (hne : rt ≠ rn ∨ rn = 31#5) :
    t.readX rn = s.readX rn := by
  rcases hne with hne | rfl
  · exact h.others rn hne.symm
  · rfl

/-- Where the registers of `STXR` do not overlap, writing the status keeps the base (R179). -/
theorem StxrEnds.base_eq {rs rt rn : Reg} {status : Word} {s t : State} (h : StxrEnds rs status s t)
    (ho : stxrOverlaps rs rt rn = false) : t.readX rn = s.readX rn := by
  by_cases hne : rn = rs
  · subst hne
    have h31 : rn = 31#5 := by simpa [stxrOverlaps] using ho
    rw [h31, State.readX_zero, State.readX_zero]
  · exact h.others rn hne

/-- Settles O52: `LDXR` arms the monitor for the address that the first `STXR` stores to; that clears it, so the second
fails. -/
theorem exclusivePair : Obligations.ExclusivePair := by
  intro rt rn rs r2 s b hspurious hholds hmay hne ho
  obtain ⟨t, ht, hload, _, hmon, _⟩ := execLdxr_of_holds (rt := rt) hholds
  have hcfg : t.cfg = s.cfg := hload.record.cfg
  have hbase : t.readX rn = s.readX rn := hload.base_eq hne
  have hdraw : (t.cfg.stxrSpuriousFail && Config.stxrFails t.draws) = false := by rw [hcfg, hspurious]; rfl
  rw [← hbase] at hmay hmon ⊢
  obtain ⟨u, hu, hstored⟩ := execStxr_stores ho (hmay.of_cfg_eq hcfg) hmon hdraw
  have hends := hstored.1
  rw [← hends.base_eq ho] at hmay
  have hclear : u.monitor ≠ .armed (u.readX rn) := by rw [hends.monitor]; exact nofun
  obtain ⟨v, hv, hfailed⟩ :=
    execStxr_fails ho (hmay.of_cfg_eq (hends.record.cfg.trans hcfg)) fun ⟨hmatch, _⟩ => hclear hmatch
  exact ⟨t, u, v, ht, hu, hstored, hv, hfailed⟩

/-! ## Accesses of different widths -/

/-- Part of a stored number, read back: `n` of its `N` bytes from the byte `k` on (R52). -/
theorem readBytes_writeBytes_beBytes (m : Memory) (a N v k n : Nat) (h : k + n ≤ N) :
    Memory.readBytes (Memory.writeBytes m a (beBytes N v)) (a + k) n = .ok (beBytes n (v / 256 ^ (N - k - n))) := by
  refine (Memory.readBytes_ok_iff _ _ _ _).mpr ⟨beBytes_length _ _, fun i hi => ?_⟩
  rw [Memory.read_writeBytes, if_pos (by rw [beBytes_length]; omega), show a + k + i - a = k + i by omega,
    beBytes_getElem? _ _ _ (by omega), beBytes_getElem? _ _ _ hi, Nat.div_div_eq_div_mul, ← pow_add]
  congr 4
  omega

/-- Bytes of a bit vector as a value are its slice (R52). -/
theorem ofNat_beNat_beBytes_div {w : Nat} (v : BitVec w) (n k : Nat) :
    BitVec.ofNat (8 * n) (beNat (beBytes n (v.toNat / 256 ^ k))) = v.extractLsb' (8 * k) (8 * n) := by
  apply BitVec.eq_of_toNat_eq
  rw [beNat_beBytes, BitVec.extractLsb'_toNat, BitVec.toNat_ofNat, Nat.shiftRight_eq_div_pow, pow_mul 2 8, pow_mul 2 8]
  norm_num

/-- What an access of `n` bytes at `a + k` reads after the doubleword `v` was stored at `a` (R53, R54): the aligned
address does not wrap, and big-endian order puts the slice `8 - k - n` bytes from the bottom of `v`. -/
theorem memRead_of_memWrite_doubleword {s t : State} {a v : Word} (hw : memWrite s a 8 v.toNat = some t)
    (hmarks : ∀ j, j < 8 → permits t.cfg.memMap .read (a.toNat + j) = true) {k n : Nat} (hn : n ∣ 8) (hk : n ∣ k)
    (hkn : k + n ≤ 8) :
    ∃ b, memRead t (a + BitVec.ofNat 64 k) n = .ok b ∧
      BitVec.ofNat (8 * n) (beNat b) = v.extractLsb' (8 * (8 - k - n)) (8 * n) := by
  rcases memWrite_eq s a 8 v.toNat with ⟨ha, he⟩ | ⟨_, he⟩ <;> rw [hw] at he <;> cases he
  obtain ⟨h8, -⟩ := (accessible_iff _ _ _ _).mp ha
  have hpos : 0 < n := Nat.pos_of_dvd_of_pos hn (by decide)
  have haddr : (a + BitVec.ofNat 64 k).toNat = a.toNat + k := by
    have := a.isLt
    rw [BitVec.toNat_add, BitVec.toNat_ofNat]
    omega
  have haligned : (a.toNat + k) % n = 0 :=
    Nat.mod_eq_zero_of_dvd ((hn.trans (Nat.dvd_of_mod_eq_zero h8)).add hk)
  refine ⟨_, ?_, ofNat_beNat_beBytes_div v n (8 - k - n)⟩
  unfold memRead
  rw [if_pos ((accessible_iff _ _ _ _).mpr ⟨by rwa [haddr], fun i hi => ?_⟩), haddr,
    readBytes_writeBytes_beBytes _ _ _ _ _ _ hkn]
  rw [haddr, Nat.add_assoc]
  exact hmarks (k + i) (by omega)

/-- A fetch of four bytes that are written, where it is aligned and has the marks (R55). -/
theorem fetch_eq_word {s : State} {bytes : List Byte} (hmay : MayAccess s .fetch s.pc 4)
    (hbytes : s.mem.readBytes s.pc.toNat 4 = .ok bytes) : fetch s = .word (wordOfBytes bytes) := by
  obtain ⟨haligned, hmarks⟩ := hmay
  rcases fetch_cases s with ⟨h, _⟩ | ⟨_, h, _⟩ | ⟨_, _, u, h, _⟩ | ⟨_, _, bs, h, he⟩
  · exact absurd haligned h
  · rw [(permitsAll_iff _ _ _ _).mpr hmarks] at h; cases h
  · rw [hbytes] at h; cases h
  · rw [hbytes] at h; cases h; exact he

/-- The upper word of a stored doubleword is the instruction at its address (R55, R67). -/
theorem fetch_of_memWrite_doubleword {s t : State} {a v : Word} (hw : memWrite s a 8 v.toNat = some t)
    (hmarks : ∀ j, j < 4 → permits t.cfg.memMap .fetch (a.toNat + j) = true) :
    fetch (t.jump a) = .word (v.extractLsb' 32 32) := by
  rcases memWrite_eq s a 8 v.toNat with ⟨ha, he⟩ | ⟨_, he⟩ <;> rw [hw] at he <;> cases he
  obtain ⟨h8, -⟩ := (accessible_iff _ _ _ _).mp ha
  have hmay : MayAccess (({ s with mem := s.mem.writeBytes a.toNat (beBytes 8 v.toNat) } : State).jump a) .fetch a 4 :=
    ⟨by omega, hmarks⟩
  rw [fetch_eq_word hmay (readBytes_writeBytes_beBytes s.mem a.toNat 8 v.toNat 0 4 (by decide))]
  exact congrArg Fetched.word (ofNat_beNat_beBytes_div v 4 4)

/-- Settles O53: each access reads the slice of the stored doubleword at its own place. -/
theorem mixedWidthAccess : Obligations.MixedWidthAccess := by
  intro s t a v hw
  refine ⟨fun hmarks => ⟨?_, ?_, ?_, ?_⟩, fetch_of_memWrite_doubleword hw⟩
  · simpa using memRead_of_memWrite_doubleword hw hmarks (k := 0) (n := 4) (by decide) (by decide) (by decide)
  · exact memRead_of_memWrite_doubleword hw hmarks (k := 4) (n := 4) (by decide) (by decide) (by decide)
  · exact memRead_of_memWrite_doubleword hw hmarks (k := 7) (n := 1) (by decide) (by decide) (by decide)
  · simpa using memRead_of_memWrite_doubleword hw hmarks (k := 0) (n := 8) (by decide) (by decide) (by decide)

end Sys2Proof.Machine

/-! PROOFS. The encoding (spec/30_encoding.md): the opcode table, which words the decoder refuses, and that the decoder
and the encoder invert each other. -/

namespace Sys2Proof

/-! ## The opcode table -/

/-- No two rows of the table hold the same opcode and Shamt (R82, R89). -/
theorem opcodeTable_pairwise : opcodeTable.Pairwise fun a b => a.last < b.first ∨
    (a.first = a.last ∧ b.first = b.last ∧ a.first = b.first ∧ a.shamt.isSome = true ∧ b.shamt.isSome = true ∧
      a.shamt ≠ b.shamt) := by decide

/-- Two lines of the table that hold no opcode and Shamt in common. -/
def OpcodeRow.Apart (a b : OpcodeRow) : Prop :=
  a.last < b.first ∨ b.last < a.first ∨
    ((a.first, a.last) = (b.first, b.last) ∧ a.shamt.isSome = true ∧ b.shamt.isSome = true ∧ a.shamt ≠ b.shamt)

theorem OpcodeRow.Apart.symm {a b : OpcodeRow} : a.Apart b → b.Apart a
  | .inl h => .inr (.inl h)
  | .inr (.inl h) => .inl h
  | .inr (.inr ⟨hrange, ha, hb, hne⟩) => .inr (.inr ⟨hrange.symm, hb, ha, hne.symm⟩)

theorem apart_of_ne {a b : OpcodeRow} (ha : a ∈ opcodeTable) (hb : b ∈ opcodeTable) (hne : a ≠ b) : a.Apart b := by
  have : Std.Symm OpcodeRow.Apart := ⟨fun _ _ => OpcodeRow.Apart.symm⟩
  refine List.Pairwise.forall (opcodeTable_pairwise.imp ?_) ha hb hne
  rintro a b (hlt | ⟨hfa, hfb, hab, hshamt⟩)
  · exact .inl hlt
  · exact .inr (.inr ⟨Prod.ext hab (by simp only; omega), hshamt⟩)

/-- A row is one line of the table (R94). -/
theorem opcodeTable_rows_nodup : (opcodeTable.map (·.row)).Nodup := by decide

theorem op11Field_toNat (w : InstrWord) : (op11Field w).toNat = w.toNat / 2 ^ 21 := by
  rw [op11Field, BitVec.extractLsb'_toNat, Nat.shiftRight_eq_div_pow]
  have := w.isLt
  omega

theorem rowCovers_iff (op : BitVec 11) (shamt : BitVec 6) (r : OpcodeRow) :
    rowCovers op shamt r = true ↔
      r.first ≤ op.toNat ∧ op.toNat ≤ r.last ∧ (r.shamt = none ∨ r.shamt = some shamt.toNat) := by
  rcases r with ⟨_, _, _, _ | _⟩ <;> simp [rowCovers, inRange, and_assoc, eq_comm (a := shamt.toNat)]

theorem rowCovers_unique {op : BitVec 11} {shamt : BitVec 6} {a b : OpcodeRow} (ha : a ∈ opcodeTable)
    (hb : b ∈ opcodeTable) (hca : rowCovers op shamt a = true) (hcb : rowCovers op shamt b = true) : a = b := by
  obtain ⟨hfa, hla, hsa⟩ := (rowCovers_iff _ _ _).mp hca
  obtain ⟨hfb, hlb, hsb⟩ := (rowCovers_iff _ _ _).mp hcb
  by_contra hne
  rcases apart_of_ne ha hb hne with hlt | hlt | ⟨_, ha', hb', hshamt⟩
  · omega
  · omega
  · rw [Option.isSome_iff_ne_none] at ha' hb'
    exact hshamt ((hsa.resolve_left ha').trans (hsb.resolve_left hb').symm)

/-- A word is a row's where its opcode and Shamt are those of the row's line (R89, R90). -/
theorem rowOf_eq_some_iff {w : InstrWord} {r : OpcodeRow} (hr : r ∈ opcodeTable) :
    rowOf w = some r.row ↔ rowCovers (op11Field w) (shamtField w) r = true := by
  rw [rowOf, rowFor, Option.map_eq_some_iff]
  constructor
  · rintro ⟨r', hfind, hrow⟩
    rw [← List.inj_on_of_nodup_map opcodeTable_rows_nodup (List.mem_of_find?_eq_some hfind) hr hrow]
    exact List.find?_some hfind
  · intro hc
    obtain ⟨r', hfind⟩ := Option.isSome_iff_exists.mp (List.find?_isSome.mpr ⟨r, hr, hc⟩)
    exact ⟨r', hfind, congrArg _ (rowCovers_unique (List.mem_of_find?_eq_some hfind) hr (List.find?_some hfind) hc)⟩

theorem exists_mem_of_rowOf {w : InstrWord} {row : Row} (h : rowOf w = some row) :
    ∃ r ∈ opcodeTable, r.row = row := by
  obtain ⟨r, hfind, hrow⟩ := Option.map_eq_some_iff.mp h
  exact ⟨r, List.mem_of_find?_eq_some hfind, hrow⟩

theorem rowOf_eq_none_iff (w : InstrWord) :
    rowOf w = none ↔ ∀ r ∈ opcodeTable, ¬rowCovers (op11Field w) (shamtField w) r = true := by
  rw [rowOf, rowFor, Option.map_eq_none_iff, List.find?_eq_none]

/-- A row whose line is the range of the 11-bit opcodes that begin with `p` fixes the opcode of its layout (R82). -/
theorem opcode_of_rowOf {w : InstrWord} {row : Row} {p : Nat} {shamt : Option Nat} (n : Nat) (h : rowOf w = some row)
    (hr : ⟨row, p * 2 ^ n, p * 2 ^ n + (2 ^ n - 1), shamt⟩ ∈ opcodeTable) :
    w.extractLsb' (21 + n) (11 - n) = BitVec.ofNat (11 - n) p := by
  obtain ⟨hfirst, hlast, _⟩ := (rowCovers_iff _ _ _).mp ((rowOf_eq_some_iff hr).mp h)
  simp only [op11Field_toNat] at hfirst hlast
  have hp : w.toNat / 2 ^ 21 / 2 ^ n = p :=
    Nat.div_eq_of_lt_le hfirst (by have := Nat.two_pow_pos n; rw [Nat.add_mul]; omega)
  apply BitVec.eq_of_toNat_eq
  rw [BitVec.toNat_ofNat, BitVec.extractLsb'_toNat, Nat.shiftRight_eq_div_pow, pow_add, ← Nat.div_div_eq_div_mul, hp]

/-- A row with a Shamt fixes bits 15:10 (R89). -/
theorem shamtField_of_rowOf {w : InstrWord} {row : Row} {first last k : Nat} (h : rowOf w = some row)
    (hr : ⟨row, first, last, some k⟩ ∈ opcodeTable) : shamtField w = BitVec.ofNat 6 k := by
  obtain ⟨_, _, hs⟩ := (rowCovers_iff _ _ _).mp ((rowOf_eq_some_iff hr).mp h)
  rw [Option.some.inj (hs.resolve_left nofun), BitVec.ofNat_toNat, BitVec.setWidth_eq]

/-! ### The occupied opcodes -/

/-- The ranges of the table, each once: rows told apart by Shamt share theirs (R89). -/
def occupiedRanges : List (Nat × Nat) := (opcodeTable.map fun r => (r.first, r.last)).dedup

theorem mem_occupiedRanges {x : Nat × Nat} : x ∈ occupiedRanges ↔ ∃ r ∈ opcodeTable, (r.first, r.last) = x := by
  rw [occupiedRanges, List.mem_dedup, List.mem_map]

theorem occupiedRanges_pairwiseDisjoint :
    (occupiedRanges.toFinset : Set (Nat × Nat)).PairwiseDisjoint fun x => Finset.Icc x.1 x.2 := by
  intro x hx y hy hne
  obtain ⟨a, ha, rfl⟩ := mem_occupiedRanges.mp (List.mem_toFinset.mp hx)
  obtain ⟨b, hb, rfl⟩ := mem_occupiedRanges.mp (List.mem_toFinset.mp hy)
  refine Finset.disjoint_left.mpr fun op hop hop' => ?_
  rw [Finset.mem_Icc] at hop hop'
  rcases apart_of_ne ha hb (fun h => hne (h ▸ rfl)) with hlt | hlt | ⟨hrange, _⟩
  · exact absurd hlt (by simp only at hop hop'; omega)
  · exact absurd hlt (by simp only at hop hop'; omega)
  · exact hne hrange

theorem mem_biUnion_occupiedRanges (op : Nat) :
    op ∈ occupiedRanges.toFinset.biUnion (fun x => Finset.Icc x.1 x.2) ↔
      ∃ r ∈ opcodeTable, r.first ≤ op ∧ op ≤ r.last := by
  simp only [Finset.mem_biUnion, List.mem_toFinset, mem_occupiedRanges, Finset.mem_Icc]
  constructor
  · rintro ⟨_, ⟨r, hr, rfl⟩, h⟩
    exact ⟨r, hr, h⟩
  · rintro ⟨r, hr, h⟩
    exact ⟨_, ⟨r, hr, rfl⟩, h⟩

theorem opcodeTable_last_lt : ∀ r ∈ opcodeTable, r.last < 2048 := by decide

theorem card_occupied : (occupiedRanges.toFinset.biUnion fun x => Finset.Icc x.1 x.2).card = 143 := by
  have hnodup : occupiedRanges.Nodup := List.nodup_dedup _
  rw [Finset.card_biUnion occupiedRanges_pairwiseDisjoint, List.sum_toFinset _ hnodup]
  simp only [Nat.card_Icc]
  decide

/-- Settles O3: the occupied opcodes are the disjoint union of the ranges, so their number is the sum of the ranges'. -/
theorem opcodeRowsAreDisjoint : Obligations.OpcodeRowsAreDisjoint := by
  refine ⟨rfl, opcodeTable_pairwise, ?_⟩
  rw [List.countP_eq_length_filter, ← List.toFinset_card_of_nodup (List.nodup_range.filter _), ← card_occupied]
  refine congrArg Finset.card (Finset.ext fun op => ?_)
  rw [mem_biUnion_occupiedRanges, List.mem_toFinset, List.mem_filter, List.mem_range, List.any_eq_true]
  simp only [Bool.and_eq_true, decide_eq_true_eq]
  exact ⟨And.right, fun ⟨r, hr, hop⟩ => ⟨hop.2.trans_lt (opcodeTable_last_lt r hr), r, hr, hop⟩⟩

/-! ## The outcomes of the decoder -/

theorem decode_ignore {w : InstrWord} {row : Row} (h : rowOf w = some row) : decode .ignore w = operandsOf row w := by
  simp only [decode, h]

theorem decode_refuse_of_unused {w : InstrWord} {row : Row} {f : Field} (h : rowOf w = some row)
    (hu : nonzeroUnused row w = some f) : decode .refuse w = .refused (.unusedField row f) := by
  simp only [decode, h, hu]

/-- What the decoder answers (R90): `Undefined` without a row, a refusal of the row's first unused field that is not
zero, or what the operands give. -/
theorem decode_cases (mode : UnusedFields) (w : InstrWord) :
    (rowOf w = none ∧ decode mode w = .undefined) ∨
      ∃ row, rowOf w = some row ∧
        ((mode = .refuse ∧ ∃ f, nonzeroUnused row w = some f ∧ decode mode w = .refused (.unusedField row f)) ∨
          (¬(mode = .refuse ∧ nonzeroUnused row w ≠ none) ∧ decode mode w = operandsOf row w)) := by
  cases hrow : rowOf w with
  | none => exact .inl ⟨rfl, by simp only [decode, hrow]⟩
  | some row =>
    refine .inr ⟨row, rfl, ?_⟩
    cases mode with
    | ignore => exact .inr ⟨nofun, decode_ignore hrow⟩
    | refuse =>
      cases hu : nonzeroUnused row w with
      | none => exact .inr ⟨fun h => h.2 rfl, decode_of_row _ _ _ hrow hu⟩
      | some f => exact .inl ⟨rfl, f, rfl, decode_refuse_of_unused hrow hu⟩

/-- The code of a condition is below 14 (R124). -/
theorem condOf_eq_none_iff : ∀ code : BitVec 4, condOf code = none ↔ 14 ≤ code.toNat := by decide

theorem stxrOverlaps_iff (rs rt rn : Reg) : stxrOverlaps rs rt rn = true ↔ rs ≠ 31#5 ∧ (rs = rt ∨ rs = rn) := by
  simp [stxrOverlaps]

/-- The refusals that depend on the operands: condition 14 or 15 (R124) and overlapping registers of `STXR` (R179). -/
def RefusedOperands (row : Row) (w : InstrWord) : Prop :=
  (row = .bCond ∧ 14 ≤ (condField w).toNat) ∨
    (row = .stxr ∧ rmField w ≠ 31#5 ∧ (rmField w = rdField w ∨ rmField w = rnField w))

/-- What the operands of a row give: an instruction, well-formed, but for the two refusals (R90). -/
theorem operandsOf_cases (row : Row) (w : InstrWord) :
    (RefusedOperands row w ∧ ∃ why, operandsOf row w = .refused why) ∨
      (¬RefusedOperands row w ∧ ∃ i, operandsOf row w = .instr i ∧ i.wellFormed = true) := by
  cases row with
  | bCond =>
    cases hc : condOf (condField w) with
    | none => exact .inl ⟨.inl ⟨rfl, (condOf_eq_none_iff _).mp hc⟩, _, by rw [operandsOf, hc]⟩
    | some c =>
      have hlt : ¬14 ≤ (condField w).toNat := fun h => by rw [(condOf_eq_none_iff _).mpr h] at hc; cases hc
      exact .inr ⟨by simp [RefusedOperands, hlt], _, by rw [operandsOf, hc], rfl⟩
  | stxr =>
    by_cases ho : stxrOverlaps (rmField w) (rdField w) (rnField w) = true
    · exact .inl ⟨.inr ⟨rfl, (stxrOverlaps_iff _ _ _).mp ho⟩, _, if_pos ho⟩
    · refine .inr ⟨?_, _, if_neg ho, by simpa [Instr.wellFormed] using ho⟩
      rintro (⟨h, _⟩ | ⟨_, h⟩)
      · cases h
      · exact ho ((stxrOverlaps_iff _ _ _).mpr h)
  | _ => exact .inr ⟨by simp [RefusedOperands], _, rfl, rfl⟩

theorem decode_eq_undefined_iff (mode : UnusedFields) (w : InstrWord) :
    decode mode w = .undefined ↔ rowOf w = none := by
  rcases decode_cases mode w with ⟨hrow, he⟩ | ⟨row, hrow, ⟨_, f, _, he⟩ | ⟨_, he⟩⟩
  · simp [hrow, he]
  · simp [hrow, he]
  · rcases operandsOf_cases row w with ⟨_, why, ho⟩ | ⟨_, i, ho, _⟩ <;> simp [hrow, he, ho]

theorem shamtField_toNat (w : InstrWord) : (shamtField w).toNat = w.toNat / 2 ^ 10 % 2 ^ 6 := by
  rw [shamtField, BitVec.extractLsb'_toNat, Nat.shiftRight_eq_div_pow]

/-- Settles O4: only a word without a row is `Undefined`, and a row is found by its line. -/
theorem undefinedWordsMatchNoRow : Obligations.UndefinedWordsMatchNoRow := by
  intro mode w
  simp only [decode_eq_undefined_iff, rowOf_eq_none_iff, rowCovers_iff, op11Field_toNat, shamtField_toNat]

/-! ## Unused fields -/

/-- The place of a field: its lowest bit. -/
def Field.low : Field → Nat
  | .rm => 16 | .shamt => 10 | .rd => 0 | .op => 10 | .dtAddress => 12 | .dtLow => 12 | .rt4 => 4

/-- Its number of bits. -/
def Field.width : Field → Nat
  | .rm => 5 | .shamt => 6 | .rd => 5 | .op => 2 | .dtAddress => 9 | .dtLow => 4 | .rt4 => 1

/-- The bits of a field. -/
def Field.mask (f : Field) : InstrWord := (BitVec.allOnes f.width).setWidth 32 <<< f.low

theorem getLsbD_allOnes_shiftLeft (m n k j : Nat) :
    ((BitVec.allOnes n).setWidth m <<< k).getLsbD j = decide (k ≤ j ∧ j < k + n ∧ j < m) := by
  simp only [BitVec.getLsbD_shiftLeft, BitVec.getLsbD_setWidth, BitVec.getLsbD_allOnes, ← Bool.decide_and,
    ← decide_not]
  exact decide_eq_decide.mpr (by omega)

/-- A slice is zero where its bits of the word are 0. -/
theorem extractLsb'_eq_zero_iff {m : Nat} (w : BitVec m) (k n : Nat) :
    w.extractLsb' k n = 0#n ↔ w &&& ((BitVec.allOnes n).setWidth m <<< k) = 0#m := by
  simp only [BitVec.eq_of_getLsbD_eq_iff, BitVec.getLsbD_and, getLsbD_allOnes_shiftLeft, BitVec.getLsbD_zero,
    Bool.and_eq_false_imp, decide_eq_false_iff_not]
  constructor
  · rintro h j hj hw ⟨hk, hn, _⟩
    have hzero := h (j - k) (by omega)
    rw [BitVec.getLsbD_extractLsb', Nat.add_sub_cancel' hk, hw, Bool.and_true, decide_eq_false_iff_not] at hzero
    omega
  · intro h j hj
    rw [BitVec.getLsbD_extractLsb', Bool.and_eq_false_imp]
    intro _
    by_contra hw
    rw [Bool.not_eq_false] at hw
    have hm := BitVec.lt_of_getLsbD hw
    exact h (k + j) hm hw ⟨by omega, by omega, hm⟩

theorem fieldIsZero_iff (w : InstrWord) (f : Field) : fieldIsZero w f = true ↔ w &&& f.mask = 0#32 := by
  have h : fieldIsZero w f = (w.extractLsb' f.low f.width == 0#f.width) := by cases f <;> rfl
  rw [h, beq_iff_eq, extractLsb'_eq_zero_iff, Field.mask]

/-- The bits of several fields. -/
def fieldsMask (fs : List Field) : InstrWord := fs.foldr (fun f mask => f.mask ||| mask) 0#32

/-- A row's unused bits are those of its unused fields (R92). -/
theorem unusedMask_eq (row : Row) : unusedMask row = fieldsMask (unusedFields row) := by
  cases row <;> rfl

theorem and_or_eq_zero_iff {n : Nat} (w a b : BitVec n) : w &&& (a ||| b) = 0#n ↔ w &&& a = 0#n ∧ w &&& b = 0#n := by
  rw [BitVec.and_or_distrib_left, BitVec.or_eq_zero_iff]

theorem and_fieldsMask_eq_zero_iff (w : InstrWord) (fs : List Field) :
    w &&& fieldsMask fs = 0#32 ↔ ∀ f ∈ fs, w &&& f.mask = 0#32 := by
  induction fs with
  | nil => simp [fieldsMask]
  | cons f fs ih => rw [List.forall_mem_cons, ← ih, fieldsMask, List.foldr_cons, and_or_eq_zero_iff, fieldsMask]

/-- A word has no unused field that is not zero where its row's unused bits are 0 (R92). -/
theorem nonzeroUnused_eq_none_iff (row : Row) (w : InstrWord) :
    nonzeroUnused row w = none ↔ w &&& unusedMask row = 0#32 := by
  rw [nonzeroUnused, List.find?_eq_none, unusedMask_eq, and_fieldsMask_eq_zero_iff]
  simp [← fieldIsZero_iff]

/-- Settles O5: the first reason is the unused field, the other two are those of the operands. -/
theorem refusedWordsAreTheListedOnes : Obligations.RefusedWordsAreTheListedOnes := by
  intro mode w
  show _ ↔ ∃ row, rowOf w = some row ∧ ((mode = .refuse ∧ w &&& unusedMask row ≠ 0#32) ∨ RefusedOperands row w)
  simp only [← nonzeroUnused_eq_none_iff, ne_eq]
  rcases decode_cases mode w with ⟨hrow, he⟩ | ⟨row, hrow, ⟨rfl, f, hu, he⟩ | ⟨hu, he⟩⟩
  · simp [hrow, he]
  · simp [hrow, he, hu]
  · rcases operandsOf_cases row w with ⟨hr, why, ho⟩ | ⟨hr, i, ho, _⟩
    · simp [hrow, he, ho, hr]
    · simpa [hrow, he, ho, hr] using hu

/-! ### Clearing the unused bits -/

/-- Clearing bits outside a slice leaves the slice. -/
theorem extractLsb'_and_not {m k n : Nat} {mask : BitVec m} (h : mask.extractLsb' k n = 0#n) (w : BitVec m) :
    (w &&& ~~~mask).extractLsb' k n = w.extractLsb' k n := by
  apply BitVec.eq_of_getLsbD_eq
  intro j hj
  have hmask : mask.getLsbD (k + j) = false := by simpa [hj] using congrArg (·.getLsbD j) h
  simp only [BitVec.getLsbD_extractLsb', BitVec.getLsbD_and, BitVec.getLsbD_not, hmask, Bool.not_false, Bool.and_true]
  by_cases hm : k + j < m
  · simp [hm]
  · simp [BitVec.getLsbD_of_ge w (k + j) (by omega)]

/-- The unused bits of a row are no bits of its opcode, nor of its Shamt where it has one (R92). -/
theorem unusedMask_outside_opcode : ∀ r ∈ opcodeTable,
    (unusedMask r.row).extractLsb' 21 11 = 0#11 ∧ (r.shamt = none ∨ (unusedMask r.row).extractLsb' 10 6 = 0#6) := by
  decide

theorem rowOf_clear {w : InstrWord} {row : Row} (h : rowOf w = some row) :
    rowOf (w &&& ~~~unusedMask row) = some row := by
  obtain ⟨r, hr, rfl⟩ := exists_mem_of_rowOf h
  obtain ⟨hop, hsh⟩ := unusedMask_outside_opcode r hr
  rw [rowOf_eq_some_iff hr, rowCovers_iff] at h ⊢
  obtain ⟨hfirst, hlast, hs⟩ := h
  rw [op11Field, extractLsb'_and_not hop]
  refine ⟨hfirst, hlast, ?_⟩
  rcases hsh with hnone | hsh
  · exact .inl hnone
  · rwa [shamtField, extractLsb'_and_not hsh]

theorem nonzeroUnused_clear (row : Row) (w : InstrWord) : nonzeroUnused row (w &&& ~~~unusedMask row) = none := by
  rw [nonzeroUnused_eq_none_iff, BitVec.and_assoc, BitVec.not_and_self]
  exact BitVec.and_zero

/-- The operands of a row are not among its unused bits (R92). -/
theorem operandsOf_clear (row : Row) (w : InstrWord) : operandsOf row (w &&& ~~~unusedMask row) = operandsOf row w := by
  have clear {k n : Nat} (h : (unusedMask row).extractLsb' k n = 0#n) := extractLsb'_and_not h w
  cases row with
  | stxr =>
    have hrm : rmField (w &&& ~~~unusedMask .stxr) = rmField w := clear (by decide)
    have hrn : rnField (w &&& ~~~unusedMask .stxr) = rnField w := clear (by decide)
    have hrd : rdField (w &&& ~~~unusedMask .stxr) = rdField w := clear (by decide)
    rw [operandsOf, operandsOf, hrm, hrn, hrd]
  | _ =>
    simp (disch := decide) only [operandsOf, rdField, rnField, rmField, dtField, condField, condBrField, shamtField,
      brField, aluField, movField, hwField, clear]

/-- Settles O6: the cleared word is in the same row, has no unused field left and carries the same operands. -/
theorem unusedFieldsFollowThePolicy : Obligations.UnusedFieldsFollowThePolicy := by
  intro w row hrow
  rw [ne_eq, ← nonzeroUnused_eq_none_iff, decode_ignore hrow, decode_ignore (rowOf_clear hrow),
    decode_of_row .refuse _ _ (rowOf_clear hrow) (nonzeroUnused_clear row w), operandsOf_clear]
  refine ⟨fun hu => ?_, decode_of_row .refuse w row hrow, rfl, rfl⟩
  obtain ⟨f, hf⟩ := Option.ne_none_iff_exists'.mp hu
  exact ⟨f, decode_refuse_of_unused hrow hf⟩

/-! ## The encoder inverted -/

section
open Laws.EncodeRow

/-- The canonical word of an instruction is in its row (R82, R89, R94). -/
theorem rowOf_encode : (i : Instr) → rowOf (encode i) = some i.row
  | .b .. => b .. | .fmuls .. => fmuls .. | .fdivs .. => fdivs .. | .fcmps .. => fcmps .. | .fadds .. => fadds ..
  | .fsubs .. => fsubs .. | .fmuld .. => fmuld .. | .fdivd .. => fdivd .. | .fcmpd .. => fcmpd ..
  | .faddd .. => faddd .. | .fsubd .. => fsubd .. | .sturb .. => sturb .. | .ldurb .. => ldurb ..
  | .bCond .. => bCond .. | .sturh .. => sturh .. | .ldurh .. => ldurh .. | .and .. => Laws.EncodeRow.and ..
  | .add .. => add .. | .addi .. => addi .. | .andi .. => andi .. | .bl .. => bl .. | .sdiv .. => sdiv ..
  | .udiv .. => udiv .. | .mul .. => mul .. | .smulh .. => smulh .. | .umulh .. => umulh .. | .orr .. => orr ..
  | .adds .. => adds .. | .addis .. => addis .. | .orri .. => orri .. | .cbz .. => cbz .. | .cbnz .. => cbnz ..
  | .sturw .. => sturw .. | .ldursw .. => ldursw .. | .sturs .. => sturs .. | .ldurs .. => ldurs ..
  | .stxr .. => stxr .. | .ldxr .. => ldxr .. | .eor .. => eor .. | .sub .. => sub .. | .subi .. => subi ..
  | .eori .. => eori .. | .movz .. => movz .. | .lsr .. => lsr .. | .lsl .. => lsl .. | .br .. => br ..
  | .ands .. => ands .. | .subs .. => subs .. | .subis .. => subis .. | .andis .. => andis .. | .movk .. => movk ..
  | .stur .. => stur .. | .ldur .. => ldur .. | .sturd .. => sturd .. | .ldurd .. => ldurd ..

end

/-- The status register of `STXR` stands above four zeros in `DT_address` (R179). -/
theorem extractLsb'_status (rs : Reg) : (rs ++ 0#4).extractLsb' 4 5 = rs ∧ (rs ++ 0#4).extractLsb' 0 4 = 0#4 :=
  ⟨(BitVec.extractLsb'_append_eq_of_le (by decide)).trans BitVec.extractLsb'_eq_self,
    (BitVec.extractLsb'_append_eq_of_add_le (by decide)).trans BitVec.extractLsb'_eq_self⟩

/-- The condition code stands below a zero in the place of `Rt` (R123). -/
theorem extractLsb'_condition (code : BitVec 4) :
    (0#1 ++ code).extractLsb' 0 4 = code ∧ (0#1 ++ code).extractLsb' 4 1 = 0#1 :=
  ⟨(BitVec.extractLsb'_append_eq_of_add_le (by decide)).trans BitVec.extractLsb'_eq_self,
    (BitVec.extractLsb'_append_eq_of_le (by decide)).trans BitVec.extractLsb'_eq_self⟩

/-- The canonical word has zero in every unused field (R92). -/
theorem nonzeroUnused_encode (i : Instr) : nonzeroUnused i.row (encode i) = none := by
  cases i with
  | bCond cond address =>
    simp [nonzeroUnused, unusedFields, Instr.row, fieldIsZero, encode, (extractLsb'_condition _).2]
  | stxr rs rt rn => simp [nonzeroUnused, unusedFields, Instr.row, fieldIsZero, encode, (extractLsb'_status _).2]
  | _ => simp [nonzeroUnused, unusedFields, Instr.row, fieldIsZero, encode]

/-- The canonical word carries the instruction's operands (R83 to R88). -/
theorem operandsOf_encode {i : Instr} (hwf : i.wellFormed = true) : operandsOf i.row (encode i) = .instr i := by
  cases i with
  | bCond cond address =>
    simp [Instr.row, operandsOf, encode, (extractLsb'_condition _).1]
  | stxr rs rt rn =>
    have hno : stxrOverlaps rs rt rn = false := by simpa [Instr.wellFormed] using hwf
    simp [Instr.row, operandsOf, encode, (extractLsb'_status _).1, hno]
  | _ => simp [Instr.row, operandsOf, encode]

theorem decode_encode (mode : UnusedFields) {i : Instr} (hwf : i.wellFormed = true) :
    decode mode (encode i) = .instr i :=
  (decode_of_row mode _ _ (rowOf_encode i) (nonzeroUnused_encode i)).trans (operandsOf_encode hwf)

/-- Settles O1: the canonical word is in the instruction's row, has no unused field that is not zero, and carries the
operands. -/
theorem decodeInvertsEncode : Obligations.DecodeInvertsEncode := fun mode _ hwf => decode_encode mode hwf

/-! ### The word of a row

The opcode comes from the row's line of the table, the other fields from the word. -/

theorem encodeR_fields (w : InstrWord) :
    encodeR (op11Field w) (rmField w) (shamtField w) (rnField w) (rdField w) = w := by
  unfold encodeR op11Field rmField shamtField rnField rdField
  repeat rw [BitVec.extractLsb'_append_extractLsb'_eq_extractLsb' (by rfl)]
  exact BitVec.extractLsb'_eq_self

theorem encodeI_fields (w : InstrWord) :
    encodeI (w.extractLsb' 22 10) (aluField w) (rnField w) (rdField w) = w := by
  unfold encodeI aluField rnField rdField
  repeat rw [BitVec.extractLsb'_append_extractLsb'_eq_extractLsb' (by rfl)]
  exact BitVec.extractLsb'_eq_self

theorem encodeD_fields (w : InstrWord) :
    encodeD (op11Field w) (dtField w) (opField w) (rnField w) (rdField w) = w := by
  unfold encodeD op11Field dtField opField rnField rdField
  repeat rw [BitVec.extractLsb'_append_extractLsb'_eq_extractLsb' (by rfl)]
  exact BitVec.extractLsb'_eq_self

theorem encodeB_fields (w : InstrWord) : encodeB (w.extractLsb' 26 6) (brField w) = w := by
  unfold encodeB brField
  rw [BitVec.extractLsb'_append_extractLsb'_eq_extractLsb' (by rfl)]
  exact BitVec.extractLsb'_eq_self

theorem encodeCB_fields (w : InstrWord) : encodeCB (w.extractLsb' 24 8) (condBrField w) (rdField w) = w := by
  unfold encodeCB condBrField rdField
  repeat rw [BitVec.extractLsb'_append_extractLsb'_eq_extractLsb' (by rfl)]
  exact BitVec.extractLsb'_eq_self

theorem encodeIM_fields (w : InstrWord) :
    encodeIM (w.extractLsb' 23 9) (hwField w) (movField w) (rdField w) = w := by
  unfold encodeIM hwField movField rdField
  repeat rw [BitVec.extractLsb'_append_extractLsb'_eq_extractLsb' (by rfl)]
  exact BitVec.extractLsb'_eq_self

theorem dtField_eq_append (w : InstrWord) : dtField w = rmField w ++ dtLowField w := by
  unfold dtField rmField dtLowField
  rw [BitVec.extractLsb'_append_extractLsb'_eq_extractLsb' (by rfl)]

theorem rdField_eq_append (w : InstrWord) : rdField w = rt4Field w ++ condField w := by
  unfold rdField rt4Field condField
  rw [BitVec.extractLsb'_append_extractLsb'_eq_extractLsb' (by rfl)]

section
variable {w : InstrWord} {row : Row} {p k : Nat}

theorem op11Field_of_rowOf {shamt : Option Nat} (hrow : rowOf w = some row) (hr : ⟨row, p, p, shamt⟩ ∈ opcodeTable) :
    op11Field w = BitVec.ofNat 11 p := opcode_of_rowOf 0 hrow (by simpa using hr)

theorem encodeR_of_row {rm : Reg} {sh : BitVec 6} {rd : Reg} (hrow : rowOf w = some row)
    (hr : ⟨row, p, p, none⟩ ∈ opcodeTable) (hrm : rmField w = rm) (hsh : shamtField w = sh) (hrd : rdField w = rd) :
    encodeR (BitVec.ofNat 11 p) rm sh (rnField w) rd = w := by
  rw [← op11Field_of_rowOf hrow hr, ← hrm, ← hsh, ← hrd, encodeR_fields]

/-- On a row with a Shamt (R89). -/
theorem encodeR_of_shamtRow {rd : Reg} (hrow : rowOf w = some row) (hr : ⟨row, p, p, some k⟩ ∈ opcodeTable)
    (hrd : rdField w = rd) : encodeR (BitVec.ofNat 11 p) (rmField w) (BitVec.ofNat 6 k) (rnField w) rd = w := by
  rw [← op11Field_of_rowOf hrow hr, ← shamtField_of_rowOf hrow hr, ← hrd, encodeR_fields]

theorem encodeD_of_row {dt : BitVec 9} {op2 : BitVec 2} (hrow : rowOf w = some row)
    (hr : ⟨row, p, p, none⟩ ∈ opcodeTable) (hdt : dtField w = dt) (hop : opField w = op2) :
    encodeD (BitVec.ofNat 11 p) dt op2 (rnField w) (rdField w) = w := by
  rw [← op11Field_of_rowOf hrow hr, ← hdt, ← hop, encodeD_fields]

theorem encodeI_of_row (hrow : rowOf w = some row)
    (hr : ⟨row, p * 2 ^ 1, p * 2 ^ 1 + (2 ^ 1 - 1), none⟩ ∈ opcodeTable) :
    encodeI (BitVec.ofNat 10 p) (aluField w) (rnField w) (rdField w) = w := by
  have hop : w.extractLsb' 22 10 = BitVec.ofNat 10 p := opcode_of_rowOf 1 hrow hr
  rw [← hop, encodeI_fields]

theorem encodeIM_of_row (hrow : rowOf w = some row)
    (hr : ⟨row, p * 2 ^ 2, p * 2 ^ 2 + (2 ^ 2 - 1), none⟩ ∈ opcodeTable) :
    encodeIM (BitVec.ofNat 9 p) (hwField w) (movField w) (rdField w) = w := by
  have hop : w.extractLsb' 23 9 = BitVec.ofNat 9 p := opcode_of_rowOf 2 hrow hr
  rw [← hop, encodeIM_fields]

theorem encodeCB_of_row {rt : Reg} (hrow : rowOf w = some row)
    (hr : ⟨row, p * 2 ^ 3, p * 2 ^ 3 + (2 ^ 3 - 1), none⟩ ∈ opcodeTable) (hrt : rdField w = rt) :
    encodeCB (BitVec.ofNat 8 p) (condBrField w) rt = w := by
  have hop : w.extractLsb' 24 8 = BitVec.ofNat 8 p := opcode_of_rowOf 3 hrow hr
  rw [← hop, ← hrt, encodeCB_fields]

theorem encodeB_of_row (hrow : rowOf w = some row)
    (hr : ⟨row, p * 2 ^ 5, p * 2 ^ 5 + (2 ^ 5 - 1), none⟩ ∈ opcodeTable) :
    encodeB (BitVec.ofNat 6 p) (brField w) = w := by
  have hop : w.extractLsb' 26 6 = BitVec.ofNat 6 p := opcode_of_rowOf 5 hrow hr
  rw [← hop, encodeB_fields]

end

/-- A field the row does not use is zero in a word that is not refused for it (R92). -/
theorem field_eq_zero_of_unused {w : InstrWord} {row : Row} (hu : nonzeroUnused row w = none) (f : Field)
    (hf : f ∈ unusedFields row) : w.extractLsb' f.low f.width = 0#f.width := by
  have := List.find?_eq_none.mp hu f hf
  rw [extractLsb'_eq_zero_iff]
  exact (fieldIsZero_iff w f).mp (by simpa using this)

/-- A word of a row, with its unused fields zero, is the canonical word of what its operands give (R83 to R88, R92). -/
theorem encode_of_operandsOf {w : InstrWord} {row : Row} {i : Instr} (hrow : rowOf w = some row)
    (hu : nonzeroUnused row w = none) (hi : operandsOf row w = .instr i) : encode i = w := by
  have zero := field_eq_zero_of_unused hu
  cases row with
  | b | bl =>
    obtain rfl := Decoded.instr.inj hi
    exact encodeB_of_row hrow (by decide)
  | fmuls | fdivs | fadds | fsubs | fmuld | fdivd | faddd | fsubd | sdiv | udiv | mul =>
    obtain rfl := Decoded.instr.inj hi
    exact encodeR_of_shamtRow hrow (by decide) rfl
  | fcmps | fcmpd =>
    obtain rfl := Decoded.instr.inj hi
    exact encodeR_of_shamtRow hrow (by decide) (zero .rd (by decide))
  | and | add | smulh | umulh | orr | adds | eor | sub | ands | subs =>
    obtain rfl := Decoded.instr.inj hi
    exact encodeR_of_row hrow (by decide) rfl (zero .shamt (by decide)) rfl
  | lsr | lsl =>
    obtain rfl := Decoded.instr.inj hi
    exact encodeR_of_row hrow (by decide) (zero .rm (by decide)) rfl rfl
  | br =>
    obtain rfl := Decoded.instr.inj hi
    exact encodeR_of_row hrow (by decide) (zero .rm (by decide)) (zero .shamt (by decide)) (zero .rd (by decide))
  | addi | andi | addis | orri | subi | eori | subis | andis =>
    obtain rfl := Decoded.instr.inj hi
    exact encodeI_of_row hrow (by decide)
  | sturb | ldurb | sturh | ldurh | sturw | ldursw | sturs | ldurs | stur | ldur | sturd | ldurd =>
    obtain rfl := Decoded.instr.inj hi
    exact encodeD_of_row hrow (by decide) rfl (zero .op (by decide))
  | ldxr =>
    obtain rfl := Decoded.instr.inj hi
    exact encodeD_of_row hrow (by decide) (zero .dtAddress (by decide)) (zero .op (by decide))
  | stxr =>
    simp only [operandsOf] at hi
    split at hi
    · cases hi
    · obtain rfl := Decoded.instr.inj hi
      have hlow : dtLowField w = 0#4 := zero .dtLow (by decide)
      exact encodeD_of_row hrow (by decide) (by rw [dtField_eq_append, hlow]) (zero .op (by decide))
  | cbz | cbnz =>
    obtain rfl := Decoded.instr.inj hi
    exact encodeCB_of_row hrow (by decide) rfl
  | bCond =>
    simp only [operandsOf] at hi
    split at hi
    next c hc =>
      obtain rfl := Decoded.instr.inj hi
      have hrt4 : rt4Field w = 0#1 := zero .rt4 (by decide)
      exact encodeCB_of_row hrow (by decide) (by rw [rdField_eq_append, hrt4, codeOf_condOf _ _ hc])
    next => cases hi
  | movz | movk =>
    obtain rfl := Decoded.instr.inj hi
    exact encodeIM_of_row hrow (by decide)

/-- Settles O2: a word that decodes under `refuse` is in a row and has no unused field that is not zero. -/
theorem encodeInvertsDecode : Obligations.EncodeInvertsDecode := by
  intro w i hdecode
  rcases decode_cases .refuse w with ⟨_, he⟩ | ⟨row, hrow, ⟨_, f, _, he⟩ | ⟨hu, he⟩⟩ <;> rw [hdecode] at he
  · cases he
  · cases he
  · refine ⟨encode_of_operandsOf hrow (by simpa using hu) he.symm, ?_⟩
    rcases operandsOf_cases row w with ⟨_, why, ho⟩ | ⟨_, i', ho, hwf⟩ <;> rw [← he] at ho <;> cases ho
    exact hwf

/-! ## Words of the spec -/

theorem decode_of_encode_eq {w : InstrWord} (mode : UnusedFields) {i : Instr} (h : encode i = w)
    (hwf : i.wellFormed = true) : decode mode w = .instr i := h ▸ decode_encode mode hwf

/-- Settles O7: the words of instructions are their canonical words, and the others are evaluated. -/
theorem specWordsDecode : Obligations.SpecWordsDecode := by
  unfold Obligations.SpecWordsDecode
  refine ⟨?_, ?_, ?_, ?_, ?_, ?_, ?_, ?_, ?_, ?_, ?_, ?_, ?_, ?_, by decide, by decide, by decide, by decide, by decide,
    by decide⟩ <;> exact decode_of_encode_eq _ (by decide) rfl

end Sys2Proof

/-! PROOFS. The branches (spec/40_branches.md): the words and targets of the relative branches, what each condition means
of the flags and after a subtraction that sets them, and the fault that follows a misaligned target. -/

namespace Sys2Proof.Machine

/-! ## Jumps -/

theorem jumped_jump (target : Word) (s : State) : Jumped target s (s.jump target) :=
  ⟨rfl, fun _ => rfl, fun _ => rfl, fun _ => rfl, rfl, rfl, ⟨rfl, rfl, rfl, rfl, rfl⟩⟩

/-- A branch relative to its own address, taken where `p` holds (R120). -/
theorem jumpsTo_of_finishBranch {i : Instr} {s : State} {taken : Bool} {p : Prop} [Decidable p] {offset : Word} {k : Int}
    (hexec : exec i s = finishBranch taken offset s) (htaken : taken = true ↔ p) (hoffset : offset = BitVec.ofInt 64 k) :
    JumpsTo i (if p then BitVec.ofInt 64 (s.pc.toNat + k) else s.pc + 4#64) s := by
  obtain ⟨t, ht, jumped⟩ := finishBranch_spec taken offset s
  have htarget : (s.pc + if taken then offset else 4#64) =
      if p then BitVec.ofInt 64 (s.pc.toNat + k) else s.pc + 4#64 := by
    rw [hoffset, apply_ite (s.pc + ·), add_ofInt]
    exact if_congr htaken rfl rfl
  exact ⟨t, hexec.trans ht, htarget ▸ jumped⟩

/-- A jump after a write keeps what the write has done: `BL` writes its link register, then jumps (R122). -/
theorem WroteX.trans_jumped {rd : Reg} {v target : Word} {s t u : State} (h : WroteX rd v s t)
    (hj : Jumped target t u) : WroteX rd v s u where
  written := (hj.int rd).trans h.written
  others r hr := (hj.int r).trans (h.others r hr)
  fp r := (hj.fp r).trans (h.fp r)
  memory a := (hj.memory a).trans (h.memory a)
  record := h.record.trans hj.record

theorem execBl_spec (address : BitVec 26) (s : State) :
    ∃ t, exec (.bl address) s = .next t ∧ WroteX 30#5 (s.pc + 4#64) s t ∧ t.flags = s.flags ∧
      t.monitor = s.monitor ∧ t.pc = BitVec.ofInt 64 (s.pc.toNat + 4 * address.toInt) := by
  obtain ⟨t, ht, jumped⟩ := finishBranch_spec true (branchAddr address) (s.writeX 30#5 (s.pc + 4#64))
  refine ⟨t, ht, (WroteX.of_writeX _ _ s).trans_jumped jumped, ?_, ?_, ?_⟩
  · rw [jumped.flags, State.writeX_flags]
  · rw [jumped.monitor, State.writeX_monitor]
  · rw [jumped.pc, State.writeX_pc, if_pos rfl, branchAddr_eq, add_ofInt]

/-- Settles O39: both are the relative branch, always taken, `BL` after the write of its link register. -/
theorem branchAndLink : Obligations.BranchAndLink := fun address s =>
  ⟨⟨jumpsTo_of_finishBranch (p := true = true) rfl Iff.rfl (branchAddr_eq address), encodeB_eq_or 0b000101 address⟩,
    execBl_spec address s, encodeB_eq_or 0b100101 address⟩

/-- The condition code in the place of `Rt` (R123). -/
theorem zero_append_eq_setWidth (code : BitVec 4) : 0#1 ++ code = code.setWidth 5 := by
  rw [BitVec.setWidth_eq_append (by decide)]
  rfl

/-- Settles O40: the relative branch, taken where the condition holds. -/
theorem conditionalBranch : Obligations.ConditionalBranch := fun c address _ =>
  ⟨jumpsTo_of_finishBranch rfl Iff.rfl (condBranchAddr_eq address),
    zero_append_eq_setWidth (codeOf c) ▸ encodeCB_eq_wordCB 0b01010100 address (0#1 ++ codeOf c)⟩

/-- Settles O42: the relative branch, taken where all 64 bits of the register are zero, or where they are not. -/
theorem compareAndBranch : Obligations.CompareAndBranch := fun rt address _ =>
  ⟨⟨jumpsTo_of_finishBranch rfl beq_iff_eq (condBranchAddr_eq address), encodeCB_eq_wordCB 0b10110100 address rt⟩,
    jumpsTo_of_finishBranch rfl bne_iff_ne (condBranchAddr_eq address), encodeCB_eq_wordCB 0b10110101 address rt⟩

/-! ## The conditions -/

/-- The condition that holds of the flags where `c` does not (R124). -/
def inverseCond (c : Cond) : Cond :=
  match c with
  | .eq => .ne | .ne => .eq | .hs => .lo | .lo => .hs | .mi => .pl | .pl => .mi | .vs => .vc | .vc => .vs
  | .hi => .ls | .ls => .hi | .ge => .lt | .lt => .ge | .gt => .le | .le => .gt

theorem conditionHolds_inverseCond (c : Cond) (f : Flags) :
    conditionHolds (inverseCond c) f = !conditionHolds c f := by
  cases c <;> simp [inverseCond, conditionHolds, bne]

theorem inverseCond_iff {c : Cond} {f : Flags} {p q : Prop} (h : conditionHolds c f = true ↔ p)
    (hq : ¬p ↔ q) : conditionHolds (inverseCond c) f = true ↔ q := by
  rw [conditionHolds_inverseCond, Bool.not_eq_true', ← Bool.not_eq_true, h, hq]

section Flags

variable (f : Flags)

theorem conditionHolds_hi_iff : conditionHolds .hi f = true ↔ f.c = true ∧ f.z = false := by
  simp [conditionHolds]

theorem conditionHolds_ge_iff : conditionHolds .ge f = true ↔ f.n = f.v := beq_iff_eq

theorem conditionHolds_gt_iff : conditionHolds .gt f = true ↔ f.z = false ∧ f.n = f.v := by
  simp [conditionHolds]

end Flags

/-! ### After a subtraction -/

section Subtraction

variable (a b : Word)

theorem subWithFlags_z_iff : (subWithFlags a b).2.z = true ↔ a = b := by
  simp [subWithFlags_eq_sub]

/-- C says there is no borrow (R200). -/
theorem subWithFlags_c_iff : (subWithFlags a b).2.c = true ↔ b.toNat ≤ a.toNat := by
  simp [subWithFlags_eq_sub]

theorem subWithFlags_n_iff : (subWithFlags a b).2.n = true ↔ (a - b).toInt < 0 := by
  rw [subWithFlags_eq_sub]
  exact BitVec.msb_eq_toInt ▸ decide_eq_true_iff

/-- The difference of two signed words leaves the signed range, and the result has the other sign, or is the signed value
of the result. -/
theorem toInt_sub_cases :
    (a.toInt - b.toInt < -2 ^ 63 ∧ 0 ≤ (a - b).toInt) ∨ (2 ^ 63 ≤ a.toInt - b.toInt ∧ (a - b).toInt < 0) ∨
      (-2 ^ 63 ≤ a.toInt - b.toInt ∧ a.toInt - b.toInt < 2 ^ 63 ∧ (a - b).toInt = a.toInt - b.toInt) := by
  have ha := a.toInt_lt
  have ha' := a.le_toInt
  have hb := b.toInt_lt
  have hb' := b.le_toInt
  rw [BitVec.toInt_sub, Int.bmod]
  omega

/-- V says that the signed difference is not the signed value of the result (R200). -/
theorem subWithFlags_v_iff : (subWithFlags a b).2.v = true ↔ (a - b).toInt ≠ a.toInt - b.toInt := by
  rw [subWithFlags_eq_sub]
  refine decide_eq_true_iff.trans ?_
  rcases toInt_sub_cases a b with h | h | h <;> omega

/-- The sign of the result is the sign of the difference where no overflow reverses it. -/
theorem subWithFlags_n_eq_v_iff : (subWithFlags a b).2.n = (subWithFlags a b).2.v ↔ b.toInt ≤ a.toInt := by
  rw [Bool.eq_iff_iff, subWithFlags_n_iff, subWithFlags_v_iff]
  rcases toInt_sub_cases a b with h | h | h <;> omega

theorem conditionHolds_hi_subWithFlags : conditionHolds .hi (subWithFlags a b).2 = true ↔ b.toNat < a.toNat := by
  rw [conditionHolds_hi_iff, ← Bool.not_eq_true, subWithFlags_c_iff, subWithFlags_z_iff, ← BitVec.toNat_inj]
  omega

theorem conditionHolds_ge_subWithFlags : conditionHolds .ge (subWithFlags a b).2 = true ↔ b.toInt ≤ a.toInt := by
  rw [conditionHolds_ge_iff, subWithFlags_n_eq_v_iff]

theorem conditionHolds_gt_subWithFlags : conditionHolds .gt (subWithFlags a b).2 = true ↔ b.toInt < a.toInt := by
  rw [conditionHolds_gt_iff, ← Bool.not_eq_true, subWithFlags_z_iff, subWithFlags_n_eq_v_iff, ← BitVec.toInt_inj]
  omega

end Subtraction

/-- `SUBS` and `SUBIS` write the flags of the subtraction (R210, R228). -/
theorem exec_flags_of_subtraction {i : Instr} {rd rn : Reg} {s : State} {b : Word}
    (hi : (∃ rm, i = .subs rd rn rm ∧ b = s.readX rm) ∨ (∃ imm, i = .subis rd rn imm ∧ b = imm.setWidth 64)) :
    ∃ t, exec i s = .next t ∧ t.flags = (subWithFlags (s.readX rn) b).2 := by
  rcases hi with ⟨rm, rfl, rfl⟩ | ⟨imm, rfl, rfl⟩ <;> exact ⟨_, rfl, rfl⟩

/-- Settles O41: seven conditions by what the flags say, each of the others as the inverse of one of them. -/
theorem conditionTable : Obligations.ConditionTable := by
  refine ⟨by decide, fun f => ?_, ?_⟩
  · have clear {b : Bool} : ¬b = true ↔ b = false := iff_of_eq (Bool.not_eq_true b)
    exact ⟨Iff.rfl, inverseCond_iff (c := .eq) Iff.rfl clear, Iff.rfl, inverseCond_iff (c := .hs) Iff.rfl clear,
      Iff.rfl, inverseCond_iff (c := .mi) Iff.rfl clear, Iff.rfl, inverseCond_iff (c := .vs) Iff.rfl clear,
      conditionHolds_hi_iff f, inverseCond_iff (conditionHolds_hi_iff f) Iff.rfl,
      conditionHolds_ge_iff f, inverseCond_iff (conditionHolds_ge_iff f) Iff.rfl,
      conditionHolds_gt_iff f, inverseCond_iff (conditionHolds_gt_iff f) Iff.rfl⟩
  · rintro i rd rn s a b rfl hi
    obtain ⟨t, ht, hflags⟩ := exec_flags_of_subtraction hi
    refine ⟨t, ht, ?_⟩
    rw [hflags]
    exact ⟨subWithFlags_z_iff _ b, inverseCond_iff (c := .eq) (subWithFlags_z_iff _ b) Iff.rfl,
      subWithFlags_c_iff _ b, inverseCond_iff (c := .hs) (subWithFlags_c_iff _ b) Nat.not_le,
      subWithFlags_n_iff _ b, inverseCond_iff (c := .mi) (subWithFlags_n_iff _ b) Int.not_lt,
      subWithFlags_v_iff _ b, inverseCond_iff (c := .vs) (subWithFlags_v_iff _ b) not_ne_iff,
      conditionHolds_hi_subWithFlags _ b, inverseCond_iff (conditionHolds_hi_subWithFlags _ b) Nat.not_lt,
      conditionHolds_ge_subWithFlags _ b, inverseCond_iff (conditionHolds_ge_subWithFlags _ b) Int.not_le,
      conditionHolds_gt_subWithFlags _ b, inverseCond_iff (conditionHolds_gt_subWithFlags _ b) Int.not_lt⟩

/-! ## A misaligned target -/

/-- A misaligned `pc` is found by the fetch, before anything else is (R55, R256 order 2). -/
theorem step_of_misaligned {s : State} (hrun : s.run = .running) (hhalt : s.pc ≠ s.cfg.haltPc)
    (hpc : s.pc.toNat % 4 ≠ 0) : step s = raise (.pcAlignment s.pc) s := by
  have hfetch : fetch s = .raised (.pcAlignment s.pc) := if_pos hpc
  rcases step_cases s with ⟨hend | ⟨ec, hfault⟩, _⟩ | ⟨_, hend, _⟩ | ⟨_, _, e, hf, he⟩ | ⟨_, _, u, hf, _⟩ |
    ⟨_, _, w, hf, _⟩
  · rw [hrun] at hend; cases hend
  · rw [hrun] at hfault; cases hfault
  · exact absurd hend hhalt
  · rw [hfetch] at hf; cases hf; exact he
  · rw [hfetch] at hf; cases hf
  · rw [hfetch] at hf; cases hf

theorem extractLsb'_low_two_eq_zero_iff (a : Word) : a.extractLsb' 0 2 = 0#2 ↔ a.toNat % 4 = 0 := by
  rw [← BitVec.toNat_inj, BitVec.extractLsb'_toNat]
  rfl

/-- Settles O43: `BR` jumps to its register, and the next step fetches there. -/
theorem branchRegister : Obligations.BranchRegister := by
  intro rn s
  refine ⟨encodeR_eq_wordR 0b11010110000 0#5 0#6 rn 0#5, s.jump (s.readX rn), rfl, jumped_jump _ s,
    fun hrun hhalt hlow => ?_⟩
  have hpc : (s.jump (s.readX rn)).pc.toNat % 4 ≠ 0 := fun h => hlow ((extractLsb'_low_two_eq_zero_iff _).mpr h)
  have took := took_takeException (.pcAlignment (s.readX rn)) (s.jump (s.readX rn))
  exact ⟨_, step_of_misaligned hrun hhalt hpc, took, took.faultPc, took.faultAddr⟩

end Sys2Proof.Machine

/-! PROOFS. Floating point (spec/41_floating_point.md): the enable, the arithmetic and compare instructions, and what
the numerics record gives: rounding, NaNs, zeros and infinities, and the signalled exceptions. -/

namespace Sys2Proof.Machine

/-! ## The floating-point enable -/

theorem raises_of_raise {i : Instr} {e : Exc} {s : State} (he : exec i s = raise e s) : Raises i e s :=
  ⟨_, he, took_takeException e s⟩

/-- All fourteen floating-point instructions stand behind the one check of the unit (R144). -/
theorem exec_eq_ifFpEnabled {i : Instr} (h : i.usesFpUnit = true) (s : State) :
    ∃ body, exec i s = ifFpEnabled s body := by
  cases i with
  | fmuls | fdivs | fcmps | fadds | fsubs | fmuld | fdivd | fcmpd | faddd | fsubd | sturs | ldurs | sturd | ldurd =>
    exact ⟨_, rfl⟩
  | _ => cases h

/-- Settles O54: a disabled unit stops each instruction at its first check. -/
theorem disabledUnitRaisesClassSeven : Obligations.DisabledUnitRaisesClassSeven := by
  refine ⟨fun i s hi hoff => ?_, rfl, rfl⟩
  obtain ⟨body, he⟩ := exec_eq_ifFpEnabled hi s
  refine raises_of_raise (he.trans (if_neg ?_))
  rw [hoff]
  decide

/-! ## Arithmetic instructions -/

theorem computesD_of_writeD {i : Instr} {s : State} {rd : Reg} {v : Word}
    (he : exec i s = .next (s.writeD rd v).advance) : ComputesD i rd v s := by
  obtain ⟨written, others, int, memory, record⟩ := WroteD.of_writeD rd v s
  exact ⟨_, he, ⟨written, others, int, memory, record.trans ⟨rfl, rfl, rfl, rfl, rfl⟩⟩, rfl, rfl, rfl⟩

/-- The check of the unit, then the check of the traps (R143 item 7, R144): the ways an instruction can end exclude each
other, so that each condition leads to its own. -/
theorem ends_by_checks {on trapped : Bool} {T disabled trap completes : Prop} (hT : trapped = true ↔ T)
    (h : (on = false ∧ disabled) ∨ (on = true ∧ trapped = true ∧ trap) ∨ (on = true ∧ trapped = false ∧ completes)) :
    (on = false → disabled) ∧ (on = true → T → trap) ∧ (on = true → ¬T → completes) := by
  rw [← hT]
  rcases h with ⟨rfl, hd⟩ | ⟨rfl, rfl, ht⟩ | ⟨rfl, rfl, hc⟩
  · exact ⟨fun _ => hd, nofun, nofun⟩
  · exact ⟨nofun, fun _ _ => ht, fun _ hno => absurd rfl hno⟩
  · exact ⟨nofun, nofun, fun _ _ => hc⟩

/-- The three ways `finishArithS_cases` and `finishArithD_cases` list; a single-precision write is one of the
zero-extended value (R27). -/
theorem computesFp_of_cases {i : Instr} {s : State} {rd : Reg} {v : Word} {signals : FpExceptions}
    (h : (s.cfg.fpEnabled = false ∧ exec i s = raise .fpDisabled s) ∨
      (s.cfg.fpEnabled = true ∧ fpTrapped s.cfg.fpTraps signals = true ∧ exec i s = raise .fpException s) ∨
      (s.cfg.fpEnabled = true ∧ fpTrapped s.cfg.fpTraps signals = false ∧
        exec i s = .next (s.writeD rd v).advance)) :
    ComputesFp i rd v signals s :=
  ends_by_checks (fpTrapped_iff _ _) (h.imp (.imp_right raises_of_raise)
    (.imp (.imp_right (.imp_right raises_of_raise)) (.imp_right (.imp_right computesD_of_writeD))))

/-- Settles O55: each instruction is the shared single-precision ending. -/
theorem floatingPointArithmeticSingle : Obligations.FloatingPointArithmeticSingle := fun rd rn rm s =>
  ⟨⟨computesFp_of_cases (finishArithS_cases .mul rd rn rm s), encodeR_eq_wordR 0b00011110001 rm 0b000010 rn rd⟩,
    ⟨computesFp_of_cases (finishArithS_cases .div rd rn rm s), encodeR_eq_wordR 0b00011110001 rm 0b000110 rn rd⟩,
    ⟨computesFp_of_cases (finishArithS_cases .add rd rn rm s), encodeR_eq_wordR 0b00011110001 rm 0b001010 rn rd⟩,
    ⟨computesFp_of_cases (finishArithS_cases .sub rd rn rm s), encodeR_eq_wordR 0b00011110001 rm 0b001110 rn rd⟩⟩

/-- Settles O56: each instruction is the shared double-precision ending. -/
theorem floatingPointArithmeticDouble : Obligations.FloatingPointArithmeticDouble := fun rd rn rm s =>
  ⟨⟨computesFp_of_cases (finishArithD_cases .mul rd rn rm s), encodeR_eq_wordR 0b00011110011 rm 0b000010 rn rd⟩,
    ⟨computesFp_of_cases (finishArithD_cases .div rd rn rm s), encodeR_eq_wordR 0b00011110011 rm 0b000110 rn rd⟩,
    ⟨computesFp_of_cases (finishArithD_cases .add rd rn rm s), encodeR_eq_wordR 0b00011110011 rm 0b001010 rn rd⟩,
    ⟨computesFp_of_cases (finishArithD_cases .sub rd rn rm s), encodeR_eq_wordR 0b00011110011 rm 0b001110 rn rd⟩⟩

/-! ## Classes of patterns -/

section Classes

variable {f : FpFormat} {x y : Nat}

theorem fpIsNan_iff : fpIsNan f x = true ↔ fpExponent f x = fpMax f ∧ fpFraction f x ≠ 0 := by
  simp [fpIsNan]

theorem fpIsNan_eq_false_iff : fpIsNan f x = false ↔ fpIsInf f x ∨ fpFinite f x := by
  rw [← Bool.not_eq_true, fpIsNan_iff]
  by_cases he : fpExponent f x = fpMax f <;> simp [he, fpIsInf, fpFinite]

theorem fpIsInf.not_nan (h : fpIsInf f x) : fpIsNan f x = false := fpIsNan_eq_false_iff.mpr (.inl h)

theorem fpFinite.not_nan (h : fpFinite f x) : fpIsNan f x = false := fpIsNan_eq_false_iff.mpr (.inr h)

theorem fpFinite.not_inf (h : fpFinite f x) : ¬fpIsInf f x := fun hi => h hi.1

theorem fpMax_ne_zero (hf : f.Sound) : fpMax f ≠ 0 := by
  rw [hf.max]
  omega

theorem fpIsZero.finite (hf : f.Sound) (h : fpIsZero f x) : fpFinite f x := fun he =>
  fpMax_ne_zero hf (he.symm.trans h.1)

/-- The model's test on data is the statements' on patterns (R142). -/
theorem fpSignalling_eq_decide (hf : f.Sound) : fpSignalling (fpUnpack f x) = decide (fpIsSignalling f x) := by
  rw [Bool.eq_iff_iff, fpSignalling_unpack f hf, decide_eq_true_iff]

theorem fpUnpack_zero (hf : f.Sound) (h : fpIsZero f x) : ∃ e, fpUnpack f x = .finite (fpSign f x) 0 e := by
  obtain ⟨m, e, hu, -, hz⟩ := fpUnpack_finite f x (h.finite hf)
  obtain rfl := hz.mpr h
  exact ⟨e, hu⟩

end Classes

/-! ## Compares -/

/-- The outcome of a compare in a linear order. -/
def orderIn {α : Type} [LinearOrder α] (x y : α) : FpOrder :=
  if x = y then .equal else if x < y then .less else .greater

/-- The model's order of integers is this one. -/
theorem orderOf_eq_orderIn (x y : Int) : orderOf x y = orderIn x y := rfl

theorem orderIn_strictMono {α β : Type} [LinearOrder α] [LinearOrder β] {g : α → β} (hg : StrictMono g) (x y : α) :
    orderIn (g x) (g y) = orderIn x y := by
  simp only [orderIn, hg.injective.eq_iff, hg.lt_iff_lt]

section Order

variable {α : Type} [LinearOrder α] {x y : α}

theorem orderIn_of_eq (h : x = y) : orderIn x y = .equal := if_pos h

theorem orderIn_of_lt (h : x < y) : orderIn x y = .less := by rw [orderIn, if_neg h.ne, if_pos h]

theorem orderIn_of_gt (h : y < x) : orderIn x y = .greater := by rw [orderIn, if_neg h.ne', if_neg h.not_gt]

end Order

section Compare

variable {f : FpFormat} {x y : Nat}

theorem fpExtended_inf (h : fpIsInf f x) :
    fpExtended f x = if fpSign f x then ⊥ else ((⊤ : WithTop ℚ) : WithBot (WithTop ℚ)) := if_pos h.1

theorem fpExtended_finite (h : fpFinite f x) :
    fpExtended f x = ((fpValue f x : WithTop ℚ) : WithBot (WithTop ℚ)) := if_neg h

/-- A NaN operand leaves a compare unordered (R147). -/
theorem fpCompare_of_nan (h : fpIsNan f x = true ∨ fpIsNan f y = true) :
    fpCompare (fpUnpack f x) (fpUnpack f y) = .unordered := by
  rcases h with h | h <;> rw [fpUnpack_nan f _ h]
  · rfl
  · cases fpUnpack f x <;> rfl

/-- Finite data compare as their values: counted in the lower of their two exponents they are integers. -/
theorem fpCompare_finite (hx : fpFinite f x) (hy : fpFinite f y) :
    fpCompare (fpUnpack f x) (fpUnpack f y) = orderIn (fpValue f x) (fpValue f y) := by
  obtain ⟨m, e, hux, hvx, -⟩ := fpUnpack_finite f x hx
  obtain ⟨n, k, huy, hvy, -⟩ := fpUnpack_finite f y hy
  rw [hux, huy, hvx, hvy, ← signedAt_value _ m e _ (min_le_left e k), ← signedAt_value _ n k _ (min_le_right e k)]
  have mono : StrictMono fun i : Int => (i : ℚ) * (2 : ℚ) ^ min e k := fun i j hij =>
    mul_lt_mul_of_pos_right (Int.cast_lt.mpr hij) (by positivity)
  exact (orderOf_eq_orderIn _ _).trans (orderIn_strictMono mono _ _).symm

/-- Numbers and infinities compare as values (R147). -/
theorem fpCompare_of_not_nan (hx : fpIsNan f x = false) (hy : fpIsNan f y = false) :
    fpCompare (fpUnpack f x) (fpUnpack f y) = orderIn (fpExtended f x) (fpExtended f y) := by
  rcases fpIsNan_eq_false_iff.mp hx with hx | hx <;> rcases fpIsNan_eq_false_iff.mp hy with hy | hy
  · rw [fpUnpack_inf f x hx, fpUnpack_inf f y hy, fpExtended_inf hx, fpExtended_inf hy]
    cases fpSign f x <;> cases fpSign f y <;> rfl
  · obtain ⟨n, k, huy, -⟩ := fpUnpack_finite f y hy
    rw [fpUnpack_inf f x hx, huy, fpExtended_inf hx, fpExtended_finite hy]
    cases fpSign f x
    · exact (orderIn_of_gt (WithBot.coe_lt_coe.mpr (WithTop.coe_lt_top _))).symm
    · exact (orderIn_of_lt (WithBot.bot_lt_coe _)).symm
  · obtain ⟨m, e, hux, -⟩ := fpUnpack_finite f x hx
    rw [hux, fpUnpack_inf f y hy, fpExtended_finite hx, fpExtended_inf hy]
    cases fpSign f y
    · exact (orderIn_of_lt (WithBot.coe_lt_coe.mpr (WithTop.coe_lt_top _))).symm
    · exact (orderIn_of_gt (WithBot.bot_lt_coe _)).symm
  · rw [fpCompare_finite hx hy, fpExtended_finite hx, fpExtended_finite hy]
    have mono : StrictMono fun q : ℚ => ((q : WithTop ℚ) : WithBot (WithTop ℚ)) :=
      WithBot.coe_strictMono.comp WithTop.coe_strictMono
    exact (orderIn_strictMono mono _ _).symm

theorem compareSets_compareFlags : CompareSets f x y (compareFlags (fpCompare (fpUnpack f x) (fpUnpack f y))) := by
  refine ⟨fun hnan => ?_, fun hx hy => ?_⟩
  · rw [fpCompare_of_nan hnan]; rfl
  · rw [fpCompare_of_not_nan hx hy]
    exact ⟨fun h => by rw [orderIn_of_eq h]; rfl, fun h => by rw [orderIn_of_lt h]; rfl,
      fun h => by rw [orderIn_of_gt h]; rfl⟩

/-- A compare signals invalid operation only, on a signalling operand (R147, R152). -/
theorem fpTrapped_compareSignals_iff (hf : f.Sound) (traps : FpExceptions) :
    fpTrapped traps (compareSignals (fpUnpack f x) (fpUnpack f y)) = true ↔
      traps.invalid = true ∧ (fpIsSignalling f x ∨ fpIsSignalling f y) := by
  rw [← fpSignalling_unpack f hf x, ← fpSignalling_unpack f hf y]
  simp [fpTrapped, compareSignals, FpExceptions.empty]

theorem compares_of_finishCompare (hf : f.Sound) {i : Instr} {s : State}
    (hexec : exec i s = finishCompare (fpUnpack f x) (fpUnpack f y) s) : Compares i f x y s := by
  have h := finishCompare_cases (fpUnpack f x) (fpUnpack f y) s
  rw [← hexec] at h
  refine ends_by_checks (fpTrapped_compareSignals_iff hf _) (h.imp (.imp_right raises_of_raise)
    (.imp (.imp_right (.imp_right raises_of_raise)) (.imp_right (.imp_right fun he => ?_))))
  exact ⟨_, he, compareSets_compareFlags, fun _ => rfl, fun _ => rfl, fun _ => rfl, rfl, ⟨rfl, rfl, rfl, rfl, rfl⟩, rfl⟩

end Compare

/-- Settles O57: both compares are the shared ending, and the order of the model is that of the values. -/
theorem floatingPointCompare : Obligations.FloatingPointCompare := fun rn rm _ =>
  ⟨⟨compares_of_finishCompare FpFormat.single_sound rfl, encodeR_eq_wordR 0b00011110001 rm 0b001000 rn 0#5⟩,
    compares_of_finishCompare FpFormat.double_sound rfl, encodeR_eq_wordR 0b00011110011 rm 0b001000 rn 0#5⟩

/-! ## What an operation gives -/

/-- The sign of an infinity that an operation gives for an infinite operand (R143 items 2, 3). -/
def infSign (f : FpFormat) (op : FpOp) (x y : Nat) : Bool :=
  match op with
  | .mul | .div => fpSign f x != fpSign f y
  | .add => if fpIsInf f x then fpSign f x else fpSign f y
  | .sub => if fpIsInf f x then fpSign f x else !fpSign f y

/-- The sign of an exact zero (R143 item 3). -/
def zeroSign (f : FpFormat) (op : FpOp) (x y : Nat) : Bool :=
  match op with
  | .mul | .div => fpSign f x != fpSign f y
  | .add => fpSign f x && fpSign f y
  | .sub => fpSign f x && !fpSign f y

/-- What an operation gives for finite operands (R143 items 1 to 3): the exact zero, or the exact result rounded. -/
inductive Rounds (f : FpFormat) (t : Tininess) (op : FpOp) (x y : Nat) : FpResult → Prop
  | zero (value : exactResult op (fpValue f x) (fpValue f y) = 0) :
    Rounds f t op x y (fpExact f (zeroSign f op x y) 0)
  | rounded (neg : Bool) (num den : Nat) (e : Int) (hn : 0 < num) (hd : 0 < den)
    (value : exactResult op (fpValue f x) (fpValue f y) = (if neg then -1 else 1) * ((num : ℚ) / den * (2 : ℚ) ^ e))
    (sign : op = .mul ∨ op = .div → neg = (fpSign f x != fpSign f y)) :
    Rounds f t op x y (roundScaled f t neg num den e)

section Finite

variable {f : FpFormat} {x y : Nat} (t : Tininess)

theorem sign_mul_sign (s u : Bool) :
    (if s then -1 else 1 : ℚ) * (if u then -1 else 1) = if s != u then -1 else 1 := by
  cases s <;> cases u <;> norm_num

theorem sign_div_sign (s u : Bool) :
    (if s then -1 else 1 : ℚ) / (if u then -1 else 1) = if s != u then -1 else 1 := by
  cases s <;> cases u <;> norm_num

theorem sign_not (s : Bool) : (if !s then -1 else 1 : ℚ) = -(if s then -1 else 1) := by
  cases s <;> norm_num

theorem fpMul_rounds (hx : fpFinite f x) (hy : fpFinite f y) :
    Rounds f t .mul x y (fpMul f t (fpUnpack f x) (fpUnpack f y)) := by
  obtain ⟨m, e, hux, hvx, -⟩ := fpUnpack_finite f x hx
  obtain ⟨n, k, huy, hvy, -⟩ := fpUnpack_finite f y hy
  have value : exactResult .mul (fpValue f x) (fpValue f y) =
      (if fpSign f x != fpSign f y then -1 else 1) * (((m * n : Nat) : ℚ) / (1 : Nat) * (2 : ℚ) ^ (e + k)) := by
    rw [exactResult, hvx, hvy, ← sign_mul_sign, zpow_add₀ (by norm_num)]
    push_cast
    ring
  rw [hux, huy]
  simp only [fpMul]
  split
  case isTrue h => exact .zero (by rw [value, h]; simp)
  case isFalse h => exact .rounded _ _ _ _ (Nat.pos_of_ne_zero h) one_pos value fun _ => rfl

theorem fpDiv_rounds (hx : fpFinite f x) (hy : fpFinite f y) (hnz : ¬fpIsZero f y) :
    Rounds f t .div x y (fpDiv f t (fpUnpack f x) (fpUnpack f y)) := by
  obtain ⟨m, e, hux, hvx, -⟩ := fpUnpack_finite f x hx
  obtain ⟨n, k, huy, hvy, hzy⟩ := fpUnpack_finite f y hy
  have hn : n ≠ 0 := fun h => hnz (hzy.mp h)
  have value : exactResult .div (fpValue f x) (fpValue f y) =
      (if fpSign f x != fpSign f y then -1 else 1) * ((m : ℚ) / n * (2 : ℚ) ^ (e - k)) := by
    rw [exactResult, hvx, hvy, ← sign_div_sign, zpow_sub₀ (by norm_num), mul_div_mul_comm, mul_div_mul_comm]
  rw [hux, huy]
  simp only [fpDiv, if_neg hn]
  split
  case isTrue h => exact .zero (by rw [value, h]; simp)
  case isFalse h => exact .rounded _ _ _ _ (Nat.pos_of_ne_zero h) (Nat.pos_of_ne_zero hn) value fun _ => rfl

theorem signed_natAbs (i : Int) : (i : ℚ) = (if decide (i < 0) then -1 else 1) * (i.natAbs : ℚ) := by
  by_cases h : i < 0
  · simp [h, abs_of_neg]
  · simp [h, abs_of_nonneg (not_lt.mp h)]

/-- The sum of two finite data, counted in the lower of their two exponents. -/
theorem fpAdd_finite (s u : Bool) (m n : Nat) (e k : Int) {v : ℚ}
    (hv : v = (if s then -1 else 1) * ((m : ℚ) * (2 : ℚ) ^ e) + (if u then -1 else 1) * ((n : ℚ) * (2 : ℚ) ^ k)) :
    (v = 0 ∧ fpAdd f t (.finite s m e) (.finite u n k) = fpExact f (s && u) 0) ∨
      ∃ (neg : Bool) (num : Nat) (low : Int), 0 < num ∧
        v = (if neg then -1 else 1) * ((num : ℚ) / (1 : Nat) * (2 : ℚ) ^ low) ∧
        fpAdd f t (.finite s m e) (.finite u n k) = roundScaled f t neg num 1 low := by
  rw [← signedAt_value s m e _ (min_le_left e k), ← signedAt_value u n k _ (min_le_right e k), ← add_mul,
    ← Int.cast_add] at hv
  simp only [fpAdd]
  generalize signedAt s m e (min e k) + signedAt u n k (min e k) = sum at *
  split
  case isTrue h => exact .inl ⟨by rw [hv, h]; simp, rfl⟩
  case isFalse h =>
    refine .inr ⟨_, _, _, Int.natAbs_pos.mpr h, ?_, rfl⟩
    rw [hv, Nat.cast_one, div_one, ← mul_assoc, ← signed_natAbs]

theorem fpAdd_rounds (hx : fpFinite f x) (hy : fpFinite f y) :
    Rounds f t .add x y (fpAdd f t (fpUnpack f x) (fpUnpack f y)) := by
  obtain ⟨m, e, hux, hvx, -⟩ := fpUnpack_finite f x hx
  obtain ⟨n, k, huy, hvy, -⟩ := fpUnpack_finite f y hy
  rw [hux, huy]
  rcases fpAdd_finite (f := f) t (fpSign f x) (fpSign f y) m n e k (congrArg₂ (· + ·) hvx hvy) with
    ⟨hv, he⟩ | ⟨neg, num, low, hn, hv, he⟩ <;> rw [he]
  · exact .zero hv
  · exact .rounded _ _ _ _ hn one_pos hv nofun

theorem fpSub_rounds (hx : fpFinite f x) (hy : fpFinite f y) :
    Rounds f t .sub x y (fpSub f t (fpUnpack f x) (fpUnpack f y)) := by
  obtain ⟨m, e, hux, hvx, -⟩ := fpUnpack_finite f x hx
  obtain ⟨n, k, huy, hvy, -⟩ := fpUnpack_finite f y hy
  have value : exactResult .sub (fpValue f x) (fpValue f y) = (if fpSign f x then -1 else 1) * ((m : ℚ) * (2 : ℚ) ^ e) +
      (if !fpSign f y then -1 else 1) * ((n : ℚ) * (2 : ℚ) ^ k) := by
    rw [exactResult, hvx, hvy, sign_not, neg_mul, sub_eq_add_neg]
  rw [hux, huy]
  rcases fpAdd_finite (f := f) t (fpSign f x) (!fpSign f y) m n e k value with
    ⟨hv, he⟩ | ⟨neg, num, low, hn, hv, he⟩ <;> rw [fpSub, fpNegate, he]
  · exact .zero hv
  · exact .rounded _ _ _ _ hn one_pos hv nofun

/-- Every operation on finite operands, a division by zero aside (R143 items 1 to 3). -/
theorem fpApply_rounds {op : FpOp} (hx : fpFinite f x) (hy : fpFinite f y) (hdiv : op = .div → ¬fpIsZero f y) :
    Rounds f t op x y (fpApply op f t (fpUnpack f x) (fpUnpack f y)) := by
  cases op with
  | mul => exact fpMul_rounds t hx hy
  | div => exact fpDiv_rounds t hx hy (hdiv rfl)
  | add => exact fpAdd_rounds t hx hy
  | sub => exact fpSub_rounds t hx hy

end Finite

/-! ### Where an operand is no number, and division by zero -/

section Special

variable {f : FpFormat} {x y : Nat} {op : FpOp} (t : Tininess)

theorem fpApply_nan_left (q : Bool) (b : FpDatum) : fpApply op f t (.nan q) b = fpNanOperand (.nan q) b := by
  cases op with
  | mul | div | add => rfl
  | sub => cases b <;> rfl

theorem fpApply_nan_right (a : FpDatum) (q : Bool) : fpApply op f t a (.nan q) = fpNanOperand a (.nan q) := by
  cases op <;> cases a <;> rfl

/-- A NaN operand (R143 item 5). -/
theorem fpApply_of_nan (h : fpIsNan f x = true ∨ fpIsNan f y = true) :
    fpApply op f t (fpUnpack f x) (fpUnpack f y) = fpNanOperand (fpUnpack f x) (fpUnpack f y) := by
  rcases h with h | h <;> rw [fpUnpack_nan f _ h]
  · exact fpApply_nan_left t _ _
  · exact fpApply_nan_right t _ _

/-- The invalid operations (R143 item 4). -/
theorem fpApply_of_invalid (hf : f.Sound) (h : fpInvalidPair f op x y) :
    fpApply op f t (fpUnpack f x) (fpUnpack f y) = fpInvalid := by
  cases op with
  | mul =>
    rcases h with ⟨hz, hi⟩ | ⟨hi, hz⟩ <;> obtain ⟨e, hu⟩ := fpUnpack_zero hf hz <;> rw [hu, fpUnpack_inf f _ hi] <;> rfl
  | div =>
    rcases h with ⟨hx, hy⟩ | ⟨hx, hy⟩
    · obtain ⟨e, hux⟩ := fpUnpack_zero hf hx
      obtain ⟨k, huy⟩ := fpUnpack_zero hf hy
      rw [hux, huy]; rfl
    · rw [fpUnpack_inf f x hx, fpUnpack_inf f y hy]; rfl
  | add =>
    obtain ⟨hx, hy, hs⟩ := h
    rw [fpUnpack_inf f x hx, fpUnpack_inf f y hy]
    exact if_neg hs
  | sub =>
    obtain ⟨hx, hy, hs⟩ := h
    rw [fpUnpack_inf f x hx, fpUnpack_inf f y hy, hs]
    exact if_neg (Bool.eq_not_self _).mp

/-- An infinite operand on the left, where the operation is not invalid (R143 item 2). -/
theorem fpApply_of_inf_left (hx : fpIsInf f x) (hy : fpIsNan f y = false) (valid : ¬fpInvalidPair f op x y) :
    fpApply op f t (fpUnpack f x) (fpUnpack f y) = fpExact f (infSign f op x y) (fpInfMag f) := by
  rw [fpUnpack_inf f x hx]
  rcases fpIsNan_eq_false_iff.mp hy with hy | hy
  · rw [fpUnpack_inf f y hy]
    cases op with
    | mul => rfl
    | div => exact absurd (.inr ⟨hx, hy⟩) valid
    | add =>
      have hs : fpSign f x = fpSign f y := not_ne_iff.mp fun hne => valid ⟨hx, hy, hne⟩
      exact (if_pos hs).trans (congrArg (fpExact f · _) (if_pos hx).symm)
    | sub =>
      have hs : fpSign f x = !fpSign f y := Bool.eq_not.mpr fun he => valid ⟨hx, hy, he⟩
      exact (if_pos hs).trans (congrArg (fpExact f · _) (if_pos hx).symm)
  · obtain ⟨n, k, huy, -, hz⟩ := fpUnpack_finite f y hy
    rw [huy]
    cases op with
    | mul => exact if_neg fun hn => valid (.inr ⟨hx, hz.mp hn⟩)
    | div => rfl
    | add | sub => exact congrArg (fpExact f · _) (if_pos hx).symm

/-- An infinite operand on the right of a number, where it is no divisor and the operation is not invalid (R143 item
2). -/
theorem fpApply_of_inf_right (hx : fpFinite f x) (hy : fpIsInf f y) (hop : op ≠ .div)
    (valid : ¬fpInvalidPair f op x y) :
    fpApply op f t (fpUnpack f x) (fpUnpack f y) = fpExact f (infSign f op x y) (fpInfMag f) := by
  obtain ⟨m, e, hux, -, hz⟩ := fpUnpack_finite f x hx
  rw [hux, fpUnpack_inf f y hy]
  cases op with
  | mul => exact if_neg fun hm => valid (.inl ⟨hz.mp hm, hy⟩)
  | div => exact absurd rfl hop
  | add | sub => exact congrArg (fpExact f · _) (if_neg hx.not_inf).symm

/-- The infinite results of infinite operands (R143 item 2). -/
theorem fpApply_of_inf (hx : fpIsNan f x = false) (hy : fpIsNan f y = false) (valid : ¬fpInvalidPair f op x y)
    (inf : fpIsInf f x ∨ fpIsInf f y ∧ op ≠ .div) :
    fpApply op f t (fpUnpack f x) (fpUnpack f y) = fpExact f (infSign f op x y) (fpInfMag f) := by
  rcases fpIsNan_eq_false_iff.mp hx with hxi | hxf
  · exact fpApply_of_inf_left t hxi hy valid
  · obtain ⟨hyi, hop⟩ := inf.resolve_left hxf.not_inf
    exact fpApply_of_inf_right t hxf hyi hop valid

/-- A number over an infinity (R143 item 2). -/
theorem fpDiv_of_inf_right (hx : fpFinite f x) (hy : fpIsInf f y) :
    fpApply .div f t (fpUnpack f x) (fpUnpack f y) = fpExact f (fpSign f x != fpSign f y) 0 := by
  obtain ⟨m, e, hux, -⟩ := fpUnpack_finite f x hx
  rw [hux, fpUnpack_inf f y hy]
  rfl

/-- A non-zero number over a zero (R143 items 2, 7). -/
theorem fpDiv_of_zero_right (hf : f.Sound) (hx : fpFinite f x) (hnz : ¬fpIsZero f x) (hy : fpIsZero f y) :
    fpApply .div f t (fpUnpack f x) (fpUnpack f y) =
      ⟨some (fpPack f (fpSign f x != fpSign f y) (fpInfMag f)), { FpExceptions.empty with divByZero := true }⟩ := by
  obtain ⟨m, e, hux, -, hz⟩ := fpUnpack_finite f x hx
  obtain ⟨k, huy⟩ := fpUnpack_zero hf hy
  rw [hux, huy]
  exact if_neg fun hm => hnz (hz.mp hm)

end Special

/-! ### All cases -/

section Pairs

variable {f : FpFormat} {x y : Nat} {op : FpOp}

theorem fpInvalidPair.not_nan (hf : f.Sound) (h : fpInvalidPair f op x y) :
    fpIsNan f x = false ∧ fpIsNan f y = false := by
  have zero {z : Nat} (hz : fpIsZero f z) : fpIsNan f z = false := (hz.finite hf).not_nan
  cases op with
  | mul =>
    rcases h with ⟨hx, hy⟩ | ⟨hx, hy⟩
    · exact ⟨zero hx, hy.not_nan⟩
    · exact ⟨hx.not_nan, zero hy⟩
  | div =>
    rcases h with ⟨hx, hy⟩ | ⟨hx, hy⟩
    · exact ⟨zero hx, zero hy⟩
    · exact ⟨hx.not_nan, hy.not_nan⟩
  | add | sub =>
    obtain ⟨hx, hy, -⟩ := h
    exact ⟨hx.not_nan, hy.not_nan⟩

/-- An operation is invalid on an infinity, or as the quotient of two zeros (R143 item 4). -/
theorem fpInvalidPair.inf_or_div_zero (h : fpInvalidPair f op x y) :
    fpIsInf f x ∨ fpIsInf f y ∨ op = .div ∧ fpIsZero f x ∧ fpIsZero f y := by
  cases op with
  | mul =>
    rcases h with ⟨-, hy⟩ | ⟨hx, -⟩
    · exact .inr (.inl hy)
    · exact .inl hx
  | div =>
    rcases h with ⟨hx, hy⟩ | ⟨hx, -⟩
    · exact .inr (.inr ⟨rfl, hx, hy⟩)
    · exact .inl hx
  | add | sub => exact .inl h.1

theorem not_invalidPair_of_finite (hx : fpFinite f x) (hy : fpFinite f y)
    (hdiv : op = .div → fpIsZero f x → ¬fpIsZero f y) : ¬fpInvalidPair f op x y := fun h => by
  rcases h.inf_or_div_zero with h | h | ⟨hop, hzx, hzy⟩
  · exact hx.not_inf h
  · exact hy.not_inf h
  · exact hdiv hop hzx hzy

end Pairs

/-- Where the result is a NaN (R143 items 4, 5). -/
def NanCase (f : FpFormat) (op : FpOp) (x y : Nat) : Prop :=
  fpIsNan f x = true ∨ fpIsNan f y = true ∨ fpInvalidPair f op x y

/-- What an operation can give for two patterns (R143 items 2 to 5). -/
inductive Gives (f : FpFormat) (t : Tininess) (op : FpOp) (x y : Nat) : FpResult → Prop
  | nanOperand (nan : fpIsNan f x = true ∨ fpIsNan f y = true) :
    Gives f t op x y (fpNanOperand (fpUnpack f x) (fpUnpack f y))
  | invalid (pair : fpInvalidPair f op x y) : Gives f t op x y fpInvalid
  | infinite (number : ¬NanCase f op x y) (inf : fpIsInf f x ∨ fpIsInf f y ∧ op ≠ .div) :
    Gives f t op x y (fpExact f (infSign f op x y) (fpInfMag f))
  | overInfinity (number : ¬NanCase f op x y) (div : op = .div) (inf : fpIsInf f y) :
    Gives f t op x y (fpExact f (fpSign f x != fpSign f y) 0)
  | overZero (number : ¬NanCase f op x y) (div : op = .div) (finite : fpFinite f x) (nonzero : ¬fpIsZero f x)
    (zero : fpIsZero f y) : Gives f t op x y
      ⟨some (fpPack f (fpSign f x != fpSign f y) (fpInfMag f)), { FpExceptions.empty with divByZero := true }⟩
  | rounded {r : FpResult} (number : ¬NanCase f op x y) (finite : fpFinite f x ∧ fpFinite f y)
    (div : op = .div → ¬fpIsZero f y) (rounds : Rounds f t op x y r) : Gives f t op x y r

theorem not_nanCase {f : FpFormat} {op : FpOp} {x y : Nat} (hx : fpIsNan f x = false) (hy : fpIsNan f y = false)
    (valid : ¬fpInvalidPair f op x y) : ¬NanCase f op x y := by
  rintro (h | h | h)
  · rw [hx] at h; cases h
  · rw [hy] at h; cases h
  · exact valid h

/-- By the classes of the operands: a NaN, an invalid pair, an infinity, or two numbers. -/
theorem fpApply_gives {f : FpFormat} (hf : f.Sound) (t : Tininess) (op : FpOp) (x y : Nat) :
    Gives f t op x y (fpApply op f t (fpUnpack f x) (fpUnpack f y)) := by
  by_cases hnan : fpIsNan f x = true ∨ fpIsNan f y = true
  · rw [fpApply_of_nan t hnan]
    exact .nanOperand hnan
  by_cases valid : fpInvalidPair f op x y
  · rw [fpApply_of_invalid t hf valid]
    exact .invalid valid
  obtain ⟨hx, hy⟩ := not_or.mp hnan
  rw [Bool.not_eq_true] at hx hy
  have number := not_nanCase hx hy valid
  by_cases inf : fpIsInf f x ∨ fpIsInf f y ∧ op ≠ .div
  · rw [fpApply_of_inf t hx hy valid inf]
    exact .infinite number inf
  obtain ⟨hxi, hyi⟩ := not_or.mp inf
  have hxf := (fpIsNan_eq_false_iff.mp hx).resolve_left hxi
  rcases fpIsNan_eq_false_iff.mp hy with hy | hyf
  · obtain rfl : op = .div := not_ne_iff.mp fun hop => hyi ⟨hy, hop⟩
    rw [fpDiv_of_inf_right t hxf hy]
    exact .overInfinity number rfl hy
  by_cases hz : op = .div ∧ fpIsZero f y
  · obtain ⟨rfl, hz⟩ := hz
    have hnz : ¬fpIsZero f x := fun h => valid (.inl ⟨h, hz⟩)
    rw [fpDiv_of_zero_right t hf hxf hnz hz]
    exact .overZero number rfl hxf hnz hz
  · have hdiv : op = .div → ¬fpIsZero f y := not_and.mp hz
    exact .rounded number ⟨hxf, hyf⟩ hdiv (fpApply_rounds t hxf hyf hdiv)

/-! ### The pattern of a result -/

section Patterns

variable {f : FpFormat} {x y : Nat} {op : FpOp} {t : Tininess} {r : FpResult}

theorem fpInfMag_lt (hf : f.Sound) : fpInfMag f < 2 ^ (f.expBits + f.fracBits) := by
  rw [pow_add]
  exact Nat.mul_lt_mul_of_pos_right hf.width (by positivity)

theorem fpFraction_pack (neg : Bool) (mag : Nat) : fpFraction f (fpPack f neg mag) = mag % 2 ^ f.fracBits := by
  unfold fpFraction fpPack
  rw [pow_add, ← mul_assoc, Nat.mul_add_mod_self_right]

/-- A magnitude up to infinity packs to no NaN. -/
theorem fpIsNan_pack (hf : f.Sound) (neg : Bool) {mag : Nat} (h : mag ≤ fpInfMag f) :
    fpIsNan f (fpPack f neg mag) = false := by
  rcases h.eq_or_lt with rfl | hlt
  · exact (fpIsInf_pack f hf neg).not_nan
  · refine fpFinite.not_nan ?_
    unfold fpFinite
    rw [fpExponent_pack f neg mag (hlt.trans (fpInfMag_lt hf))]
    exact (Nat.div_lt_of_lt_mul (by rw [Nat.mul_comm]; exact hlt)).ne

theorem fpIsZero_pack (neg : Bool) : fpIsZero f (fpPack f neg 0) := by
  refine ⟨?_, ?_⟩
  · rw [fpExponent_pack f neg 0 (by positivity), Nat.zero_div]
  · rw [fpFraction_pack, Nat.zero_mod]

/-- A pattern of the format is its three fields (R140). -/
theorem fpPack_fields (h : x < 2 ^ (1 + f.expBits + f.fracBits)) :
    fpPack f (fpSign f x) (fpExponent f x * 2 ^ f.fracBits + fpFraction f x) = x := by
  have hfrac : fpFraction f x = x % 2 ^ (f.expBits + f.fracBits) % 2 ^ f.fracBits := by
    unfold fpFraction
    rw [add_comm f.expBits, pow_add, Nat.mod_mul_right_mod]
  have hsign : (fpSign f x).toNat = x / 2 ^ (f.expBits + f.fracBits) := by
    have hlt : x / 2 ^ (f.expBits + f.fracBits) < 2 :=
      Nat.div_lt_of_lt_mul (by rw [← pow_succ]; exact lt_of_lt_of_eq h (by ring))
    unfold fpSign
    rw [Nat.mod_eq_of_lt hlt]
    interval_cases x / 2 ^ (f.expBits + f.fracBits) <;> rfl
  rw [fpPack, fpExponent_eq, hfrac, Nat.div_add_mod', hsign, Nat.div_add_mod']

theorem fpPack_inf (h : x < 2 ^ (1 + f.expBits + f.fracBits)) (hi : fpIsInf f x) :
    fpPack f (fpSign f x) (fpInfMag f) = x := by
  have hx := fpPack_fields h
  rwa [hi.1, hi.2] at hx

theorem roundScaled_bits (neg : Bool) (num den : Nat) (e : Int) :
    ∃ mag, mag ≤ fpInfMag f ∧ (roundScaled f t neg num den e).bits = some (fpPack f neg mag) := by
  simp only [roundScaled, roundRatio]
  split
  case isTrue => exact ⟨_, le_rfl, rfl⟩
  case isFalse h => exact ⟨_, (Nat.lt_of_not_le h).le, rfl⟩

theorem Rounds.bits (h : Rounds f t op x y r) : ∃ neg mag, mag ≤ fpInfMag f ∧ r.bits = some (fpPack f neg mag) ∧
    (op = .mul ∨ op = .div → neg = (fpSign f x != fpSign f y)) := by
  cases h with
  | zero value => exact ⟨_, 0, Nat.zero_le _, rfl, by rintro (rfl | rfl) <;> rfl⟩
  | rounded neg num den e hn hd value sign =>
    obtain ⟨mag, hmag, hb⟩ := roundScaled_bits (f := f) (t := t) neg num den e
    exact ⟨neg, mag, hmag, hb, sign⟩

/-- A result is a NaN, or a packed magnitude up to infinity, with the sign of R143 item 3 in products and quotients. -/
theorem Gives.bits (h : Gives f t op x y r) :
    (NanCase f op x y ∧ r.bits = none) ∨ ¬NanCase f op x y ∧ ∃ neg mag, mag ≤ fpInfMag f ∧
      r.bits = some (fpPack f neg mag) ∧ (op = .mul ∨ op = .div → neg = (fpSign f x != fpSign f y)) := by
  cases h with
  | nanOperand nan => exact .inl ⟨or_assoc.mp (.inl nan), rfl⟩
  | invalid pair => exact .inl ⟨.inr (.inr pair), rfl⟩
  | infinite number => exact .inr ⟨number, _, _, le_rfl, rfl, by rintro (rfl | rfl) <;> rfl⟩
  | overInfinity number => exact .inr ⟨number, _, _, Nat.zero_le _, rfl, fun _ => rfl⟩
  | overZero number => exact .inr ⟨number, _, _, le_rfl, rfl, fun _ => rfl⟩
  | rounded number _ _ rounds => exact .inr ⟨number, rounds.bits⟩

end Patterns

/-! ### The numerics record -/

/-- The pattern of a NaN result under either rule, `drawn` being the free one (R143 item 6, log 13). -/
def nanPattern (f : FpFormat) (rule : NanRule) (drawn x y : Nat) : Nat :=
  match rule with
  | .a64 => a64Nan f x y
  | .free => asNan f drawn

/-- The numerics record at any format, on patterns as numbers (R143). -/
def fpNumerics (f : FpFormat) (cfg : Config) (op : FpOp) (drawn x y : Nat) : Nat :=
  (fpApply op f cfg.tininess (fpUnpack f x) (fpUnpack f y)).bits.getD (nanPattern f cfg.nanRule drawn x y)

section Nan

variable {f : FpFormat} {x y : Nat} {op : FpOp}

/-- The bit that tells quiet NaNs from signalling ones lies in the fraction (R142). -/
theorem quietBit_lt (hf : f.Sound) : 2 ^ (f.fracBits - 1) < 2 ^ f.fracBits :=
  Nat.pow_lt_pow_right (by decide) (by have := hf.frac; omega)

theorem fpIsNan_quiet (hf : f.Sound) (h : fpIsNan f x = true) : fpIsNan f (fpQuiet f x) = true := by
  have hlt := quietBit_lt hf
  rw [fpIsNan_iff] at h ⊢
  obtain ⟨hexp, hfrac⟩ := h
  unfold fpQuiet fpExponent fpFraction at *
  rw [Nat.or_div_two_pow, Nat.div_eq_of_lt hlt, Nat.or_zero, Nat.or_mod_two_pow]
  exact ⟨hexp, fun h0 => hfrac (Nat.or_eq_zero_iff.mp h0).1⟩

theorem fpDefaultNan_eq : fpDefaultNan f = fpMax f * 2 ^ f.fracBits + 2 ^ (f.fracBits - 1) := by
  simp [fpDefaultNan, fpPack, fpInfMag]

theorem fpDefaultNan_lt (hf : f.Sound) : fpInfMag f + 2 ^ (f.fracBits - 1) < 2 ^ (f.expBits + f.fracBits) := by
  have hlt := quietBit_lt hf
  calc fpInfMag f + 2 ^ (f.fracBits - 1) < fpMax f * 2 ^ f.fracBits + 2 ^ f.fracBits := Nat.add_lt_add_left hlt _
    _ = (fpMax f + 1) * 2 ^ f.fracBits := by ring
    _ ≤ 2 ^ f.expBits * 2 ^ f.fracBits := Nat.mul_le_mul_right _ hf.width
    _ = 2 ^ (f.expBits + f.fracBits) := (pow_add _ _ _).symm

theorem fpIsNan_default (hf : f.Sound) : fpIsNan f (fpDefaultNan f) = true := by
  have hlt := quietBit_lt hf
  rw [fpIsNan_iff, fpDefaultNan, fpExponent_pack f _ _ (fpDefaultNan_lt hf), fpFraction_pack, fpInfMag,
    Nat.mul_add_mod_self_right, Nat.mod_eq_of_lt hlt, Nat.add_comm, Nat.add_mul_div_right _ _ (by positivity),
    Nat.div_eq_of_lt hlt]
  exact ⟨Nat.zero_add _, by positivity⟩

/-- The rule gives an operand made quiet, where that operand is a NaN, or the default NaN (R143 item 6). -/
theorem a64Nan_cases (hf : f.Sound) : (fpIsNan f x = true ∧ a64Nan f x y = fpQuiet f x) ∨
    (fpIsNan f y = true ∧ a64Nan f x y = fpQuiet f y) ∨ a64Nan f x y = fpDefaultNan f := by
  unfold a64Nan
  split
  case isTrue h => exact .inl ⟨((fpSignalling_unpack f hf x).mp h).1, rfl⟩
  split
  case isTrue h => exact .inr (.inl ⟨((fpSignalling_unpack f hf y).mp h).1, rfl⟩)
  split
  case isTrue h => exact .inl ⟨h, rfl⟩
  split
  case isTrue h => exact .inr (.inl ⟨h, rfl⟩)
  case isFalse => exact .inr (.inr rfl)

theorem fpIsNan_nanPattern (hf : f.Sound) (rule : NanRule) (drawn : Nat) :
    fpIsNan f (nanPattern f rule drawn x y) = true := by
  cases rule with
  | a64 =>
    rcases a64Nan_cases (x := x) (y := y) hf with ⟨h, he⟩ | ⟨h, he⟩ | he <;> rw [nanPattern, he]
    · exact fpIsNan_quiet hf h
    · exact fpIsNan_quiet hf h
    · exact fpIsNan_default hf
  | free =>
    rw [nanPattern, asNan]
    split
    case isTrue h => exact h
    case isFalse => exact fpIsNan_default hf

theorem nanPattern_lt (hf : f.Sound) (rule : NanRule) {drawn : Nat} (hd : drawn < 2 ^ (1 + f.expBits + f.fracBits))
    (hx : x < 2 ^ (1 + f.expBits + f.fracBits)) (hy : y < 2 ^ (1 + f.expBits + f.fracBits)) :
    nanPattern f rule drawn x y < 2 ^ (1 + f.expBits + f.fracBits) := by
  have default : fpDefaultNan f < 2 ^ (1 + f.expBits + f.fracBits) := fpPack_lt f _ _ (fpDefaultNan_lt hf)
  have quiet {z : Nat} (hz : z < 2 ^ (1 + f.expBits + f.fracBits)) : fpQuiet f z < 2 ^ (1 + f.expBits + f.fracBits) :=
    Nat.or_lt_two_pow hz (Nat.pow_lt_pow_right (by decide) (by omega))
  cases rule with
  | a64 =>
    rcases a64Nan_cases (x := x) (y := y) hf with ⟨-, he⟩ | ⟨-, he⟩ | he <;> rw [nanPattern, he]
    · exact quiet hx
    · exact quiet hy
    · exact default
  | free =>
    rw [nanPattern, asNan]
    split
    case isTrue => exact hd
    case isFalse => exact default

end Nan

section Record

variable {f : FpFormat} {cfg : Config} {op : FpOp} {drawn x y : Nat}

theorem fpNumerics_of_bits {v : Nat} (h : (fpApply op f cfg.tininess (fpUnpack f x) (fpUnpack f y)).bits = some v) :
    fpNumerics f cfg op drawn x y = v := by
  rw [fpNumerics, h, Option.getD_some]

/-- What the record gives: a NaN pattern, or a packed magnitude up to infinity (R143). -/
theorem fpNumerics_cases (hf : f.Sound) (cfg : Config) (op : FpOp) (drawn x y : Nat) :
    (NanCase f op x y ∧ fpNumerics f cfg op drawn x y = nanPattern f cfg.nanRule drawn x y) ∨
      ¬NanCase f op x y ∧ ∃ neg mag, mag ≤ fpInfMag f ∧ fpNumerics f cfg op drawn x y = fpPack f neg mag ∧
        (op = .mul ∨ op = .div → neg = (fpSign f x != fpSign f y)) := by
  rcases (fpApply_gives hf cfg.tininess op x y).bits with ⟨hnan, hb⟩ | ⟨hnum, neg, mag, hmag, hb, sign⟩
  · exact .inl ⟨hnan, by rw [fpNumerics, hb, Option.getD_none]⟩
  · exact .inr ⟨hnum, neg, mag, hmag, fpNumerics_of_bits hb, sign⟩

theorem fpNumerics_lt (hf : f.Sound) (cfg : Config) (op : FpOp) (hd : drawn < 2 ^ (1 + f.expBits + f.fracBits))
    (hx : x < 2 ^ (1 + f.expBits + f.fracBits)) (hy : y < 2 ^ (1 + f.expBits + f.fracBits)) :
    fpNumerics f cfg op drawn x y < 2 ^ (1 + f.expBits + f.fracBits) := by
  rcases fpNumerics_cases hf cfg op drawn x y with ⟨-, he⟩ | ⟨-, neg, mag, hmag, he, -⟩ <;> rw [he]
  · exact nanPattern_lt hf _ hd hx hy
  · exact fpPack_lt f neg mag (hmag.trans_lt (fpInfMag_lt hf))

end Record

/-- The single-precision record is the record at that format. -/
theorem numericsSingle_toNat (cfg : Config) (op : FpOp) (a b : BitVec 32) :
    (numericsSingle cfg op a b).1.toNat =
      fpNumerics .single cfg op (Config.nanSingle op a b).toNat a.toNat b.toNat := by
  have he : (numericsSingle cfg op a b).1 =
      BitVec.ofNat 32 (fpNumerics .single cfg op (Config.nanSingle op a b).toNat a.toNat b.toNat) := by
    unfold numericsSingle fpNumerics nanPattern
    generalize fpApply op .single cfg.tininess _ _ = r
    obtain ⟨bits, signals⟩ := r
    cases bits <;> cases cfg.nanRule <;> rfl
  rw [he, BitVec.toNat_ofNat]
  exact Nat.mod_eq_of_lt (fpNumerics_lt FpFormat.single_sound cfg op (BitVec.isLt _) a.isLt b.isLt)

/-- The double-precision record is the record at that format. -/
theorem numericsDouble_toNat (cfg : Config) (op : FpOp) (a b : BitVec 64) :
    (numericsDouble cfg op a b).1.toNat =
      fpNumerics .double cfg op (Config.nanDouble op a b).toNat a.toNat b.toNat := by
  have he : (numericsDouble cfg op a b).1 =
      BitVec.ofNat 64 (fpNumerics .double cfg op (Config.nanDouble op a b).toNat a.toNat b.toNat) := by
    unfold numericsDouble fpNumerics nanPattern
    generalize fpApply op .double cfg.tininess _ _ = r
    obtain ⟨bits, signals⟩ := r
    cases bits <;> cases cfg.nanRule <;> rfl
  rw [he, BitVec.toNat_ofNat]
  exact Nat.mod_eq_of_lt (fpNumerics_lt FpFormat.double_sound cfg op (BitVec.isLt _) a.isLt b.isLt)

/-! ## Rounding -/

section Rounding

variable {f : FpFormat} {t : Tininess} {op : FpOp} {x y : Nat} {r : FpResult}

/-- A correctly rounded result, and the signals of its rounding (R143 items 2, 7). -/
theorem Rounds.correct (hf : f.Sound) (h : Rounds f t op x y r) :
    ∃ b, r.bits = some b ∧ CorrectlyRounded f (exactResult op (fpValue f x) (fpValue f y)) b ∧
      RoundedSignals f t (exactResult op (fpValue f x) (fpValue f y)) b r.signals := by
  cases h with
  | zero value =>
    rw [value]
    exact ⟨_, rfl, correctlyRounded_zero f hf _, zero_signals f hf t _⟩
  | rounded neg num den e hn hd value sign =>
    rw [value]
    obtain ⟨b, hb, correct⟩ := roundScaled_correct f hf t neg num den e hn hd
    obtain ⟨signals, -⟩ := roundScaled_signals f hf t neg num den e hn hd b hb
    exact ⟨b, hb, correct, signals⟩

/-- Rounding signals neither invalid operation nor division by zero (log 15). -/
theorem Rounds.signals (hf : f.Sound) (h : Rounds f t op x y r) :
    r.signals.invalid = false ∧ r.signals.divByZero = false := by
  cases h with
  | zero value => exact ⟨rfl, rfl⟩
  | rounded neg num den e hn hd value sign =>
    obtain ⟨b, hb, -⟩ := roundScaled_correct f hf t neg num den e hn hd
    exact (roundScaled_signals f hf t neg num den e hn hd b hb).2

theorem fpNumerics_rounded (hf : f.Sound) (cfg : Config) (drawn : Nat) (hx : fpFinite f x) (hy : fpFinite f y)
    (hdiv : op = .div → ¬fpIsZero f y) :
    CorrectlyRounded f (exactResult op (fpValue f x) (fpValue f y)) (fpNumerics f cfg op drawn x y) ∧
      RoundedSignals f cfg.tininess (exactResult op (fpValue f x) (fpValue f y)) (fpNumerics f cfg op drawn x y)
        (fpApply op f cfg.tininess (fpUnpack f x) (fpUnpack f y)).signals := by
  obtain ⟨b, hb, correct, signals⟩ := (fpApply_rounds cfg.tininess hx hy hdiv).correct hf
  rw [fpNumerics_of_bits hb]
  exact ⟨correct, signals⟩

end Rounding

/-- Settles O58: on finite operands the record is the exact zero or the rounded exact result, at either format. -/
theorem floatingPointRounding : Obligations.FloatingPointRounding := by
  refine ⟨fun cfg op a b hx hy hdiv => ?_, fun cfg op a b hx hy hdiv => ?_⟩
  · rw [numericsSingle_toNat]
    exact fpNumerics_rounded FpFormat.single_sound cfg _ hx hy hdiv
  · rw [numericsDouble_toNat]
    exact fpNumerics_rounded FpFormat.double_sound cfg _ hx hy hdiv

/-! ## NaN results -/

section NanResults

variable {f : FpFormat} {cfg : Config} {op : FpOp} {x y : Nat}

theorem fpNumerics_nanLaw (hf : f.Sound) (cfg : Config) (op : FpOp) (drawn x y : Nat) :
    NanLaw f op x y (fpNumerics f cfg op drawn x y) := by
  rcases fpNumerics_cases hf cfg op drawn x y with ⟨hnan, he⟩ | ⟨hnum, neg, mag, hmag, he, -⟩ <;> rw [NanLaw, he]
  · exact iff_of_true (fpIsNan_nanPattern hf _ _) hnan
  · exact iff_of_false (by rw [fpIsNan_pack hf neg hmag]; exact Bool.false_ne_true) hnum

/-- The A64 rule, clause by clause (R143 item 6). -/
theorem a64NanLaw_of_nanCase (hf : f.Sound) {r : Nat} (h : NanCase f op x y → r = a64Nan f x y) :
    A64NanLaw f op x y r := by
  have sx := fpSignalling_eq_decide (x := x) hf
  have sy := fpSignalling_eq_decide (x := y) hf
  refine ⟨fun hx => ?_, fun hx hy => ?_, fun hx hy hnx => ?_, fun hx hy hnx hny => ?_, fun pair => ?_⟩
  · rw [h (.inl hx.1)]
    simp [a64Nan, sx, hx, fpQuiet]
  · rw [h (.inr (.inl hy.1))]
    simp [a64Nan, sx, sy, hx, hy, fpQuiet]
  · rw [h (.inl hnx)]
    simp [a64Nan, sx, sy, hx, hy, hnx, fpQuiet]
  · rw [h (.inr (.inl hny))]
    simp [a64Nan, sx, sy, hx, hy, hnx, hny, fpQuiet]
  · obtain ⟨hnx, hny⟩ := pair.not_nan hf
    rw [h (.inr (.inr pair)), ← fpDefaultNan_eq]
    simp [a64Nan, sx, sy, hnx, hny]

theorem fpNumerics_a64NanLaw (hf : f.Sound) (drawn : Nat) (hrule : cfg.nanRule = .a64) :
    A64NanLaw f op x y (fpNumerics f cfg op drawn x y) := by
  refine a64NanLaw_of_nanCase hf fun hnan => ?_
  rcases fpNumerics_cases hf cfg op drawn x y with ⟨-, he⟩ | ⟨hnum, -⟩
  · rw [he, hrule]; rfl
  · exact absurd hnan hnum

/-- Invalid operation is signalled on a signalling operand and for an invalid pair only (log 15). -/
theorem Gives.invalidSignal (hf : f.Sound) {t : Tininess} {r : FpResult} (h : Gives f t op x y r) :
    InvalidSignal f op x y r.signals := by
  have clear (hnum : ¬NanCase f op x y) (hr : r.signals.invalid = false) : InvalidSignal f op x y r.signals := by
    refine iff_of_false (by rw [hr]; exact Bool.false_ne_true) ?_
    rintro (hs | hs | pair)
    · exact hnum (.inl hs.1)
    · exact hnum (.inr (.inl hs.1))
    · exact hnum (.inr (.inr pair))
  cases h with
  | nanOperand nan =>
    have valid : ¬fpInvalidPair f op x y := fun pair => by
      obtain ⟨hx, hy⟩ := pair.not_nan hf
      rw [hx, hy] at nan
      exact nan.elim nofun nofun
    simp [InvalidSignal, fpNanOperand, fpSignalling_eq_decide hf, valid]
  | invalid pair => exact iff_of_true rfl (.inr (.inr pair))
  | infinite number => exact clear number rfl
  | overInfinity number => exact clear number rfl
  | overZero number => exact clear number rfl
  | rounded number _ _ rounds => exact clear number (rounds.signals hf).1

/-- Where tininess is detected bears on a signal only, not on the result (log 14). -/
theorem roundScaled_bits_tininess (t u : Tininess) (neg : Bool) (num den : Nat) (e : Int) :
    (roundScaled f t neg num den e).bits = (roundScaled f u neg num den e).bits := by
  simp only [roundScaled, roundRatio]
  split <;> rfl

theorem fpAdd_bits_tininess (t u : Tininess) (a b : FpDatum) : (fpAdd f t a b).bits = (fpAdd f u a b).bits := by
  cases a <;> cases b <;> simp only [fpAdd, apply_ite FpResult.bits, roundScaled_bits_tininess t u]

theorem fpApply_bits_tininess (t u : Tininess) (a b : FpDatum) :
    (fpApply op f t a b).bits = (fpApply op f u a b).bits := by
  cases op with
  | mul =>
    cases a <;> cases b <;> simp only [fpApply, fpMul, apply_ite FpResult.bits, roundScaled_bits_tininess t u]
  | div =>
    cases a <;> cases b <;> simp only [fpApply, fpDiv, apply_ite FpResult.bits, roundScaled_bits_tininess t u]
  | add => exact fpAdd_bits_tininess t u a b
  | sub => exact fpAdd_bits_tininess t u a (fpNegate b)

/-- The result is a function of the operands and of the rule for NaN patterns (R143 item 6). -/
theorem fpNumerics_eq_of_nanRule {cfg' : Config} (h : cfg'.nanRule = cfg.nanRule) (drawn : Nat) :
    fpNumerics f cfg' op drawn x y = fpNumerics f cfg op drawn x y := by
  rw [fpNumerics, fpNumerics, h, fpApply_bits_tininess cfg'.tininess cfg.tininess]

end NanResults

/-- Settles O59: the record gives a NaN pattern for a NaN operand and an invalid pair, a packed magnitude otherwise. -/
theorem nanResults : Obligations.NanResults := by
  refine ⟨fun cfg op a b => ⟨?_, ?_, fun hrule => ?_, fun cfg' hrule => BitVec.eq_of_toNat_eq ?_⟩,
    fun cfg op a b => ⟨?_, ?_, fun hrule => ?_, fun cfg' hrule => BitVec.eq_of_toNat_eq ?_⟩⟩
  · rw [numericsSingle_toNat]
    exact fpNumerics_nanLaw FpFormat.single_sound cfg op _ _ _
  · exact (fpApply_gives FpFormat.single_sound cfg.tininess op _ _).invalidSignal FpFormat.single_sound
  · rw [numericsSingle_toNat]
    exact fpNumerics_a64NanLaw FpFormat.single_sound _ hrule
  · rw [numericsSingle_toNat, numericsSingle_toNat, fpNumerics_eq_of_nanRule hrule]
  · rw [numericsDouble_toNat]
    exact fpNumerics_nanLaw FpFormat.double_sound cfg op _ _ _
  · exact (fpApply_gives FpFormat.double_sound cfg.tininess op _ _).invalidSignal FpFormat.double_sound
  · rw [numericsDouble_toNat]
    exact fpNumerics_a64NanLaw FpFormat.double_sound _ hrule
  · rw [numericsDouble_toNat, numericsDouble_toNat, fpNumerics_eq_of_nanRule hrule]

/-! ## Zeros and infinities -/

section Specials

variable {f : FpFormat} {cfg : Config} {op : FpOp} {drawn x y : Nat} {t : Tininess} {r : FpResult}

theorem fpNumerics_of_exact {neg : Bool} {mag : Nat}
    (h : fpApply op f cfg.tininess (fpUnpack f x) (fpUnpack f y) = fpExact f neg mag) :
    fpNumerics f cfg op drawn x y = fpPack f neg mag :=
  fpNumerics_of_bits (by rw [h]; rfl)

/-- An exact result of zero is not rounded. -/
theorem Rounds.eq_of_zero (h : Rounds f t op x y r) (hv : exactResult op (fpValue f x) (fpValue f y) = 0) :
    r = fpExact f (zeroSign f op x y) 0 := by
  cases h with
  | zero value => rfl
  | rounded neg num den e hn hd value sign =>
    have hpos : (0 : ℚ) < num / den * (2 : ℚ) ^ e := by positivity
    have habs := abs_signed neg _ hpos
    rw [← value, hv, abs_zero] at habs
    exact absurd habs hpos.ne

theorem fpNumerics_of_exact_zero (hx : fpFinite f x) (hy : fpFinite f y) (hdiv : op = .div → ¬fpIsZero f y)
    (hv : exactResult op (fpValue f x) (fpValue f y) = 0) :
    fpNumerics f cfg op drawn x y = fpPack f (zeroSign f op x y) 0 :=
  fpNumerics_of_exact ((fpApply_rounds cfg.tininess hx hy hdiv).eq_of_zero hv)

/-- The value of a number is its magnitude with its sign, and is zero for a zero only. -/
theorem fpValue_eq_signed (hx : fpFinite f x) :
    ∃ c : ℚ, 0 ≤ c ∧ fpValue f x = (if fpSign f x then -1 else 1) * c ∧ (c = 0 ↔ fpIsZero f x) := by
  obtain ⟨m, e, -, hv, hz⟩ := fpUnpack_finite f x hx
  have hpow : (2 : ℚ) ^ e ≠ 0 := by positivity
  exact ⟨_, by positivity, hv, by simp [hpow, ← hz]⟩

theorem fpValue_of_isZero (hf : f.Sound) (h : fpIsZero f x) : fpValue f x = 0 := by
  obtain ⟨c, -, hv, hz⟩ := fpValue_eq_signed (h.finite hf)
  rw [hv, hz.mpr h, mul_zero]

/-! ### Products and quotients -/

theorem fpNumerics_product_sign (hf : f.Sound) (hop : op = .mul ∨ op = .div)
    (hnan : fpIsNan f (fpNumerics f cfg op drawn x y) = false) :
    fpSign f (fpNumerics f cfg op drawn x y) = (fpSign f x != fpSign f y) := by
  rcases fpNumerics_cases hf cfg op drawn x y with ⟨-, he⟩ | ⟨-, neg, mag, hmag, he, sign⟩
  · rw [he, fpIsNan_nanPattern hf] at hnan
    cases hnan
  · rw [he, fpSign_pack f neg mag (hmag.trans_lt (fpInfMag_lt hf)), sign hop]

theorem fpIsInf_of_inf (hf : f.Sound) (hx : fpIsNan f x = false) (hy : fpIsNan f y = false)
    (valid : ¬fpInvalidPair f op x y) (inf : fpIsInf f x ∨ fpIsInf f y ∧ op ≠ .div) :
    fpIsInf f (fpNumerics f cfg op drawn x y) := by
  rw [fpNumerics_of_exact (fpApply_of_inf cfg.tininess hx hy valid inf)]
  exact fpIsInf_pack f hf _

theorem fpIsZero_of_exact_zero (hx : fpFinite f x) (hy : fpFinite f y) (hdiv : op = .div → ¬fpIsZero f y)
    (hv : exactResult op (fpValue f x) (fpValue f y) = 0) : fpIsZero f (fpNumerics f cfg op drawn x y) := by
  rw [fpNumerics_of_exact_zero hx hy hdiv hv]
  exact fpIsZero_pack _

theorem fpNumerics_productSpecials (hf : f.Sound) (hop : op = .mul ∨ op = .div) :
    ProductSpecials f op x y (fpNumerics f cfg op drawn x y) := by
  refine ⟨fpNumerics_product_sign hf hop, ?_, ?_, ?_, ?_, ?_, ?_, ?_⟩
  · rintro rfl hx hy hnz
    refine fpIsInf_of_inf hf hx.not_nan hy ?_ (.inl hx)
    rintro (⟨hz, -⟩ | ⟨-, hz⟩)
    · exact hz.finite hf hx.1
    · exact hnz hz
  · rintro rfl hy hx hnz
    refine fpIsInf_of_inf hf hx hy.not_nan ?_ (.inr ⟨hy, nofun⟩)
    rintro (⟨hz, -⟩ | ⟨-, hz⟩)
    · exact hnz hz
    · exact hz.finite hf hy.1
  · rintro rfl hx hy hz
    refine fpIsZero_of_exact_zero hx hy nofun ?_
    rcases hz with hz | hz <;> simp [exactResult, fpValue_of_isZero hf hz]
  · rintro rfl hx hy
    refine fpIsInf_of_inf hf hx.not_nan hy.not_nan ?_ (.inl hx)
    rintro (⟨hz, -⟩ | ⟨-, hi⟩)
    · exact hz.finite hf hx.1
    · exact hy.not_inf hi
  · rintro rfl hx hy
    rw [fpNumerics_of_exact (fpDiv_of_inf_right cfg.tininess hx hy)]
    exact fpIsZero_pack _
  · rintro rfl hx hnz hy
    rw [fpNumerics_of_bits (congrArg FpResult.bits (fpDiv_of_zero_right cfg.tininess hf hx hnz hy))]
    exact fpIsInf_pack f hf _
  · rintro rfl hx hy hnz
    exact fpIsZero_of_exact_zero (hx.finite hf) hy (fun _ => hnz) (by simp [exactResult, fpValue_of_isZero hf hx])

/-! ### Sums and differences -/

/-- A difference is a sum whose second term has the other sign. -/
theorem infSign_sum (negated : Bool) : infSign f (if negated then .sub else .add) x y =
    if fpIsInf f x then fpSign f x else (fpSign f y != negated) := by
  cases negated <;> simp [infSign]

theorem zeroSign_sum (negated : Bool) : zeroSign f (if negated then .sub else .add) x y =
    (fpSign f x && (fpSign f y != negated)) := by
  cases negated <;> simp [zeroSign]

theorem invalidPair_sum (negated : Bool) : fpInvalidPair f (if negated then .sub else .add) x y ↔
    fpIsInf f x ∧ fpIsInf f y ∧ fpSign f x ≠ (fpSign f y != negated) := by
  cases negated <;> simp [fpInvalidPair]

theorem exactResult_sum (negated : Bool) (v w : ℚ) :
    exactResult (if negated then .sub else .add) v w = v + w * (if negated then -1 else 1) := by
  cases negated <;> simp [exactResult, sub_eq_add_neg]

theorem sumOp_ne_div (negated : Bool) : (if negated then .sub else .add) ≠ FpOp.div := by
  cases negated <;> decide

/-- Two terms that are not positive sum to zero only as two zeros. -/
theorem isZero_of_negative_terms (negated : Bool) (hx : fpFinite f x) (hy : fpFinite f y)
    (hv : exactResult (if negated then .sub else .add) (fpValue f x) (fpValue f y) = 0) (hsx : fpSign f x = true)
    (hsy : (fpSign f y != negated) = true) : fpIsZero f x ∧ fpIsZero f y := by
  obtain ⟨c, hc, hvx, hzx⟩ := fpValue_eq_signed hx
  obtain ⟨d, hd, hvy, hzy⟩ := fpValue_eq_signed hy
  have hsum : c + d = 0 := by
    rw [exactResult_sum, hvx, hvy, mul_right_comm, sign_mul_sign, hsx, hsy, if_pos rfl] at hv
    linarith
  exact ⟨hzx.mp (by linarith), hzy.mp (by linarith)⟩

theorem fpNumerics_sumSpecials (hf : f.Sound) (negated : Bool) (hlt : x < 2 ^ (1 + f.expBits + f.fracBits)) :
    SumSpecials f negated x y (fpNumerics f cfg (if negated then .sub else .add) drawn x y) := by
  have inf (hx : fpIsNan f x = false) (hy : fpIsNan f y = false)
      (valid : ¬(fpIsInf f x ∧ fpIsInf f y ∧ fpSign f x ≠ (fpSign f y != negated))) (hi : fpIsInf f x ∨ fpIsInf f y) :
      fpNumerics f cfg (if negated then .sub else .add) drawn x y =
        fpPack f (if fpIsInf f x then fpSign f x else (fpSign f y != negated)) (fpInfMag f) := by
    rw [← infSign_sum]
    exact fpNumerics_of_exact (fpApply_of_inf cfg.tininess hx hy ((invalidPair_sum negated).not.mpr valid)
      (hi.imp_right fun h => ⟨h, sumOp_ne_div negated⟩))
  refine ⟨fun hx hy => ?_, fun hx hy => ?_, fun hx hy hs => ?_, fun hx hy hv => ?_⟩
  · rw [inf hx.not_nan hy.not_nan (fun ⟨_, hi, _⟩ => hy.not_inf hi) (.inl hx), if_pos hx, fpPack_inf hlt hx]
  · rw [inf hx.not_nan hy.not_nan (fun ⟨hi, _, _⟩ => hx.not_inf hi) (.inr hy), if_neg hx.not_inf]
    exact ⟨fpIsInf_pack f hf _, fpSign_pack f _ _ (fpInfMag_lt hf)⟩
  · rw [inf hx.not_nan hy.not_nan (fun ⟨_, _, hne⟩ => hne hs) (.inl hx), if_pos hx, fpPack_inf hlt hx]
  · rw [fpNumerics_of_exact_zero hx hy (fun h => absurd h (sumOp_ne_div negated)) hv, zeroSign_sum]
    cases hneg : fpSign f x && (fpSign f y != negated) with
    | true =>
      obtain ⟨hsx, hsy⟩ := Bool.and_eq_true_iff.mp hneg
      obtain ⟨hzx, hzy⟩ := isZero_of_negative_terms negated hx hy hv hsx hsy
      rw [if_pos ⟨hzx, hzy, hsx, hsy⟩]
      simp [fpPack]
    | false =>
      rw [if_neg]
      · simp [fpPack]
      · rintro ⟨-, -, hsx, hsy⟩
        rw [hsx, hsy] at hneg
        cases hneg

/-! ### Signals -/

/-- Division by zero is signalled where a non-zero number is divided by a zero, and nowhere else (log 15). -/
theorem Gives.divByZeroSignal (hf : f.Sound) (h : Gives f t op x y r) : DivByZeroSignal f op x y r.signals := by
  cases h with
  | nanOperand nan =>
    refine iff_of_false Bool.false_ne_true ?_
    rintro ⟨-, hx, -, hy⟩
    rw [hx.not_nan, (hy.finite hf).not_nan] at nan
    exact nan.elim nofun nofun
  | invalid pair =>
    refine iff_of_false Bool.false_ne_true ?_
    rintro ⟨-, hx, hnz, hy⟩
    exact not_invalidPair_of_finite hx (hy.finite hf) (fun _ hz => absurd hz hnz) pair
  | infinite number inf =>
    refine iff_of_false Bool.false_ne_true ?_
    rintro ⟨hop, hx, -, -⟩
    rcases inf with hi | ⟨-, hne⟩
    · exact hx.not_inf hi
    · exact hne hop
  | overInfinity number div inf => exact iff_of_false Bool.false_ne_true fun ⟨_, _, _, hz⟩ => hz.finite hf inf.1
  | overZero number div finite nonzero zero => exact iff_of_true rfl ⟨div, finite, nonzero, zero⟩
  | rounded number finite div rounds =>
    refine iff_of_false (by rw [(rounds.signals hf).2]; exact Bool.false_ne_true) ?_
    rintro ⟨hop, -, -, hy⟩
    exact div hop hy

/-- Only a result of the constructor `rounded` is rounded (R143 item 2, log 15). -/
theorem Gives.unroundedSignals (h : Gives f t op x y r) : UnroundedSignals f op x y r.signals := by
  cases h with
  | nanOperand | invalid | infinite | overInfinity | overZero => exact fun _ => ⟨rfl, rfl, rfl⟩
  | rounded number finite div rounds =>
    rintro (hx | hy | ⟨hop, hz⟩)
    · exact absurd finite.1 hx
    · exact absurd finite.2 hy
    · exact absurd hz (div hop)

end Specials

/-- Settles O60, by the equations for zeros and infinities and by the cases of what an operation gives. -/
theorem zeroAndInfinityResults : Obligations.ZeroAndInfinityResults := by
  have single := FpFormat.single_sound
  have double := FpFormat.double_sound
  refine ⟨fun cfg a b => ⟨fun op hop => ?_, fun op => ?_, ?_, ?_⟩,
    fun cfg a b => ⟨fun op hop => ?_, fun op => ?_, ?_, ?_⟩⟩
  · rw [numericsSingle_toNat]
    exact fpNumerics_productSpecials single hop
  · have gives := fpApply_gives single cfg.tininess op a.toNat b.toNat
    exact ⟨gives.divByZeroSignal single, gives.unroundedSignals⟩
  · rw [numericsSingle_toNat]
    exact fpNumerics_sumSpecials single false a.isLt
  · rw [numericsSingle_toNat]
    exact fpNumerics_sumSpecials single true a.isLt
  · rw [numericsDouble_toNat]
    exact fpNumerics_productSpecials double hop
  · have gives := fpApply_gives double cfg.tininess op a.toNat b.toNat
    exact ⟨gives.divByZeroSignal double, gives.unroundedSignals⟩
  · rw [numericsDouble_toNat]
    exact fpNumerics_sumSpecials double false a.isLt
  · rw [numericsDouble_toNat]
    exact fpNumerics_sumSpecials double true a.isLt

end Sys2Proof.Machine

/-! PROOFS. The loads and stores (spec/42_loads_stores.md): what each loads or stores where it may, that it is
Data Abort where it may not, the check of the floating-point unit before either, and the outcomes of the exclusive
accesses. -/

namespace Sys2Proof.Machine

section Accesses

variable {i : Instr} {s t : State} {a : Word} {n : Nat} {rt : Reg}

/-! ## Loaded values -/

/-- `LDURB`: one byte (R172). -/
theorem loadZero_one (b : Nat → Byte) : loadZero 8 ((List.range 1).map b) = (b 0).setWidth 64 :=
  congrArg (BitVec.setWidth 64) (ofNat_beNat_one b)

/-- `LDURH`: a halfword (R174). -/
theorem loadZero_two (b : Nat → Byte) : loadZero 16 ((List.range 2).map b) = (be16 b).setWidth 64 :=
  congrArg (BitVec.setWidth 64) (ofNat_beNat_two b)

/-- `LDURS`: a word in the low half, zero in the upper (R27, R178). -/
theorem loadZero_four (b : Nat → Byte) : loadZero 32 ((List.range 4).map b) = (be32 b).setWidth 64 :=
  congrArg (BitVec.setWidth 64) (ofNat_beNat_four b)

/-- `LDURSW`: a word, its sign extended (R176). -/
theorem loadSign_four (b : Nat → Byte) : loadSign 32 ((List.range 4).map b) = (be32 b).signExtend 64 :=
  congrArg (BitVec.signExtend 64) (ofNat_beNat_four b)

/-- `LDUR`: a doubleword (R182). -/
theorem loadZero_eight (b : Nat → Byte) : loadZero 64 ((List.range 8).map b) = be64 b := by
  rw [loadZero, ofNat_beNat_eight, BitVec.setWidth_eq]

/-! ## Loads into, and stores from, an integer register -/

theorem computes_of_writeX {v : Word} (he : exec i s = .next (s.writeX rt v).advance) : Computes i rt v s := by
  obtain ⟨t, ht, h⟩ := finishX_spec rt v s
  exact ⟨t, he.trans ht, h⟩

/-- A load that puts `load` of its bytes into an integer register (R53, R185). -/
theorem loadsX_of_finishLoad {load : List Byte → Word} {value : (Nat → Byte) → Word}
    (he : exec i s = finishLoad a n (fun bytes t => t.writeX rt (load bytes)) s)
    (hvalue : ∀ b, load ((List.range n).map b) = value b) : LoadsX i rt a n value s := by
  refine ⟨fun b hb => computes_of_writeX ?_, fun h => raises_of_raise (he.trans (finishLoad_of_not_mayAccess h _))⟩
  rw [he, finishLoad_of_holds hb, hvalue]

/-- A store of a register, whatever register file it lies in (R54, R185). -/
theorem storesAt_of_finishStore {v : Word} (he : exec i s = finishStore a n v.toNat s) : StoresAt i a n v s := by
  refine ⟨fun h => ?_, fun h => raises_of_raise (he.trans (finishStore_of_not_mayAccess h _))⟩
  obtain ⟨t, ht, stored⟩ := finishStore_of_mayAccess h v
  exact ⟨t, he.trans ht, stored⟩

/-! ## Loads into, and stores from, a floating-point register -/

/-- The check of the unit comes first; behind it the instruction is what follows the check (R144). -/
theorem ends_by_fpEnabled {body : Result} {P : Prop} (he : exec i s = ifFpEnabled s body) (h : exec i s = body → P) :
    (s.cfg.fpEnabled = false → Raises i .fpDisabled s) ∧ (s.cfg.fpEnabled = true → P) := by
  rcases ifFpEnabled_cases s body with ⟨hon, hbody⟩ | ⟨hoff, hraise⟩
  · rw [hon]
    exact ⟨nofun, fun _ => h (he.trans hbody)⟩
  · rw [hoff]
    exact ⟨fun _ => raises_of_raise (he.trans hraise), nofun⟩

/-- A load that puts `load` of its bytes into a floating-point register (R53, R144, R185). -/
theorem loadsD_of_finishLoad {load : List Byte → Word} {value : (Nat → Byte) → Word}
    (he : exec i s = ifFpEnabled s (finishLoad a n (fun bytes t => t.writeD rt (load bytes)) s))
    (hvalue : ∀ b, load ((List.range n).map b) = value b) : LoadsD i rt a n value s := by
  refine ends_by_fpEnabled he fun hbody => ⟨fun b hb => computesD_of_writeD ?_, fun h => raises_of_raise ?_⟩
  · rw [hbody, finishLoad_of_holds hb, hvalue]
  · rw [hbody, finishLoad_of_not_mayAccess h]

/-- A store of `n` bytes sees the low 8n bits only (R54). -/
theorem Stored.of_low_eq {v w : Word} (h : Stored a n v s t)
    (hlow : v.extractLsb' 0 (8 * n) = w.extractLsb' 0 (8 * n)) : Stored a n w s t :=
  { h with
    bytes := fun j hj => by
      have hbyte (u : Word) : (u.extractLsb' 0 (8 * n)).extractLsb' (8 * (n - 1 - j)) 8 =
          u.extractLsb' (8 * (n - 1 - j)) 8 := by
        rw [BitVec.extractLsb'_extractLsb'_of_le (by omega)]
      rw [h.bytes j hj, ← hbyte v, hlow, hbyte w] }

theorem StoresAt.of_low_eq {v w : Word} (h : StoresAt i a n v s)
    (hlow : v.extractLsb' 0 (8 * n) = w.extractLsb' 0 (8 * n)) : StoresAt i a n w s := by
  obtain ⟨stores, aborts⟩ := h
  refine ⟨fun hmay => ?_, aborts⟩
  obtain ⟨t, ht, stored⟩ := stores hmay
  exact ⟨t, ht, stored.of_low_eq hlow⟩

/-- A store of `s[rt]` is one of the low half of `d[rt]` (R27, R177). -/
theorem storesAt_of_finishStore_readS (he : exec i s = finishStore a 4 (s.readS rt).toNat s) :
    StoresAt i a 4 (s.readD rt) s := by
  have hstores : StoresAt i a 4 ((s.readS rt).setWidth 64) s :=
    storesAt_of_finishStore (by rwa [BitVec.toNat_setWidth_of_le (by decide)])
  exact hstores.of_low_eq ((BitVec.extractLsb'_setWidth_of_le (by decide)).trans BitVec.extractLsb'_eq_self)

end Accesses

/-! ## The loads and stores of the rules -/

/-- Settles O44: each is the shared ending of loads with its own value of the bytes. -/
theorem integerLoads : Obligations.IntegerLoads := fun rt rn offset _ =>
  ⟨⟨loadsX_of_finishLoad rfl loadZero_one, encodeD_eq_wordD 0b00111000010 offset rn rt⟩,
    ⟨loadsX_of_finishLoad rfl loadZero_two, encodeD_eq_wordD 0b01111000010 offset rn rt⟩,
    ⟨loadsX_of_finishLoad rfl loadSign_four, encodeD_eq_wordD 0b10111000100 offset rn rt⟩,
    ⟨loadsX_of_finishLoad rfl loadZero_eight, encodeD_eq_wordD 0b11111000010 offset rn rt⟩⟩

/-- Settles O45: each is the shared ending of stores with its own number of bytes. -/
theorem integerStores : Obligations.IntegerStores := fun rt rn offset _ =>
  ⟨⟨storesAt_of_finishStore rfl, encodeD_eq_wordD 0b00111000000 offset rn rt⟩,
    ⟨storesAt_of_finishStore rfl, encodeD_eq_wordD 0b01111000000 offset rn rt⟩,
    ⟨storesAt_of_finishStore rfl, encodeD_eq_wordD 0b10111000000 offset rn rt⟩,
    ⟨storesAt_of_finishStore rfl, encodeD_eq_wordD 0b11111000000 offset rn rt⟩⟩

/-- Settles O46: behind the check of the unit each is the shared ending of loads. -/
theorem floatingPointLoads : Obligations.FloatingPointLoads := fun rt rn offset _ =>
  ⟨⟨loadsD_of_finishLoad (load := loadZero 32) rfl loadZero_four, encodeD_eq_wordD 0b10111100010 offset rn rt⟩,
    ⟨loadsD_of_finishLoad rfl ofNat_beNat_eight, encodeD_eq_wordD 0b11111100010 offset rn rt⟩⟩

/-- Settles O47: behind the check of the unit each is the shared ending of stores. -/
theorem floatingPointStores : Obligations.FloatingPointStores := fun rt rn offset _ =>
  ⟨⟨ends_by_fpEnabled rfl storesAt_of_finishStore_readS, encodeD_eq_wordD 0b10111100000 offset rn rt⟩,
    ⟨ends_by_fpEnabled rfl storesAt_of_finishStore, encodeD_eq_wordD 0b11111100000 offset rn rt⟩⟩

/-! ## Exclusive loads and stores -/

/-- Settles O50: exception entry clears the monitor, so that an `LDXR` that aborts leaves it clear. -/
theorem loadExclusive : Obligations.LoadExclusive := by
  refine fun rt rn s => ⟨encodeD_eq_wordR 0b11001000010 0#5 rn rt, fun b hb => execLdxr_of_holds hb, fun h => ?_⟩
  obtain ⟨t, ht, took⟩ : Raises (.ldxr rt rn) (.dataAbort (s.readX rn)) s :=
    raises_of_raise (exec_of_not_mayAccess rfl rfl nofun h)
  exact ⟨t, ht, took, took.monitor⟩

theorem stxrOverlaps_eq_true_iff (rs rt rn : Reg) :
    stxrOverlaps rs rt rn = true ↔ rs ≠ 31#5 ∧ (rs = rt ∨ rs = rn) := by
  simp [stxrOverlaps]

theorem execStxr_of_overlap {rs rt rn : Reg} {s : State} (ho : stxrOverlaps rs rt rn = true) :
    exec (.stxr rs rt rn) s = .refused (.refusedWord .stxrOverlap) := if_pos ho

/-- What an `STXR` that passes its checks does, by what the monitor holds and what is drawn (R179, log 11). -/
theorem execStxr_of_mayAccess {rs rt rn : Reg} {s : State} (ho : stxrOverlaps rs rt rn = false)
    (hmay : MayAccess s .write (s.readX rn) 8) :
    ∃ t, exec (.stxr rs rt rn) s = .next t ∧
      if s.monitor = .armed (s.readX rn) then
        StxrStored rs (s.readX rn) (s.readX rt) s t ∨ (s.cfg.stxrSpuriousFail = true ∧ StxrFailed rs s t)
      else StxrFailed rs s t := by
  by_cases hmon : s.monitor = .armed (s.readX rn)
  · simp only [if_pos hmon]
    cases hdraw : s.cfg.stxrSpuriousFail && Config.stxrFails s.draws with
    | false =>
      obtain ⟨t, ht, stored⟩ := execStxr_stores ho hmay hmon hdraw
      exact ⟨t, ht, .inl stored⟩
    | true =>
      obtain ⟨hspurious, -⟩ := Bool.and_eq_true_iff.mp hdraw
      obtain ⟨t, ht, failed⟩ := execStxr_fails ho hmay fun ⟨_, hno⟩ => by rw [hdraw] at hno; cases hno
      exact ⟨t, ht, .inr ⟨hspurious, failed⟩⟩
  · simp only [if_neg hmon]
    exact execStxr_fails ho hmay fun ⟨hmatch, _⟩ => hmon hmatch

/-- Settles O51: the refusal, then the abort, then what the monitor and the draw decide. -/
theorem storeExclusive : Obligations.StoreExclusive := by
  intro rs rt rn s
  rw [← stxrOverlaps_eq_true_iff, Bool.not_eq_true]
  exact ⟨encodeD_eq_wordR 0b11001000000 rs rn rt, execStxr_of_overlap, fun ho =>
    ⟨fun hmay => raises_of_raise (execStxr_of_not_mayAccess ho hmay), execStxr_of_mayAccess ho⟩⟩

end Sys2Proof.Machine

/-! PROOFS. The integer register instructions (spec/43_integer_register.md): the words they write as arithmetic on
numbers, and the two endings they share, with and without the flags. -/

namespace Sys2Proof.Machine

/-! ## Results as numbers -/

section Words

variable (a b : Word)

theorem sub_eq_ofInt : a - b = BitVec.ofInt 64 (a.toNat - b.toNat) := by
  rw [BitVec.sub_eq_add_neg, Int.sub_eq_add_neg, ← add_ofInt, BitVec.ofInt_neg, BitVec.ofInt_natCast,
    BitVec.ofNat_toNat, BitVec.setWidth_eq]

theorem ushiftRight_eq_ofNat (k : Nat) : a >>> k = BitVec.ofNat 64 (a.toNat / 2 ^ k) := by
  rw [← Nat.shiftRight_eq_div_pow, ← BitVec.toNat_ushiftRight, BitVec.ofNat_toNat, BitVec.setWidth_eq]

theorem shiftLeft_eq_ofNat (k : Nat) : a <<< k = BitVec.ofNat 64 (a.toNat * 2 ^ k) := by
  apply BitVec.eq_of_toNat_eq
  rw [BitVec.toNat_shiftLeft, Nat.shiftLeft_eq, BitVec.toNat_ofNat]

/-- A zero-extended immediate has no top bit (R91). -/
theorem msb_aluImm (imm : BitVec 12) : (aluImm imm).msb = false := by
  rw [aluImm, BitVec.msb_setWidth, BitVec.getLsbD_of_ge imm 63 (by decide), Bool.and_false]

/-! ## Flags -/

theorem logicFlags_eq : logicFlags a = ⟨a.msb, decide (a = 0#64), false, false⟩ := by
  rw [logicFlags, beq_eq_decide]

/-- V's two comparisons as one condition (R200). -/
theorem addWithCarry_eq (cin : Bool) :
    addWithCarry a b cin = (BitVec.ofNat 64 (a.toNat + b.toNat + cin.toNat),
      ⟨(BitVec.ofNat 64 (a.toNat + b.toNat + cin.toNat)).msb,
        decide (BitVec.ofNat 64 (a.toNat + b.toNat + cin.toNat) = 0#64),
        decide (2 ^ 64 ≤ a.toNat + b.toNat + cin.toNat),
        decide (a.toInt + b.toInt + cin.toNat < -2 ^ 63 ∨ 2 ^ 63 ≤ a.toInt + b.toInt + cin.toNat)⟩) := by
  rw [addWithCarry, Bool.decide_or, beq_eq_decide]

end Words

/-! ## Endings -/

section Endings

variable {i : Instr} {rd : Reg} {s : State} {v w : Word}

theorem computes_of_finishX (he : exec i s = finishX rd v s) (hv : v = w) : Computes i rd w s :=
  hv ▸ computes_of_writeX he

theorem computesWithFlags_of_finishXFlags {f g : Flags} (he : exec i s = finishXFlags rd v f s) (hr : (v, f) = (w, g)) :
    ComputesWithFlags i rd w g s := by
  obtain ⟨rfl, rfl⟩ := Prod.mk.inj hr
  obtain ⟨t, ht, h⟩ := finishXFlags_spec rd v f s
  exact ⟨t, he.trans ht, h⟩

end Endings

/-! ## The instructions of the rules -/

/-- Settles O30: both end with the result and the flags of one `AddWithCarry`, which for `SUBS` is the subtraction. -/
theorem registerAddSubFlags : Obligations.RegisterAddSubFlags := by
  refine ⟨?_, subWithFlags_eq_sub, addWithCarry_eq⟩
  rintro rd rn rm s a b rfl rfl
  exact ⟨⟨computesWithFlags_of_finishXFlags rfl (addWithCarry_eq_add _ _),
      encodeR_eq_wordR 0b10101011000 rm 0b000000 rn rd⟩,
    computesWithFlags_of_finishXFlags rfl (subWithFlags_eq_sub _ _), encodeR_eq_wordR 0b11101011000 rm 0b000000 rn rd⟩

/-- Settles O28: each ends by writing its bitwise result. -/
theorem registerLogic : Obligations.RegisterLogic := fun rd rn rm _ =>
  ⟨⟨computes_of_finishX rfl rfl, encodeR_eq_wordR 0b10001010000 rm 0b000000 rn rd⟩,
    ⟨computes_of_finishX rfl rfl, encodeR_eq_wordR 0b10101010000 rm 0b000000 rn rd⟩,
    ⟨computes_of_finishX rfl rfl, encodeR_eq_wordR 0b11001010000 rm 0b000000 rn rd⟩⟩

/-- Settles O29: the sum and the difference of words are those of the numbers, modulo 2^64. -/
theorem registerAddSub : Obligations.RegisterAddSub := fun rd rn rm _ =>
  ⟨⟨computes_of_finishX rfl (BitVec.add_def _ _), encodeR_eq_wordR 0b10001011000 rm 0b000000 rn rd⟩,
    ⟨computes_of_finishX rfl (sub_eq_ofInt _ _), encodeR_eq_wordR 0b11001011000 rm 0b000000 rn rd⟩⟩

/-- Settles O31: both write the flags of their result; the immediate of `ANDIS` clears the top bit of its result. -/
theorem andSetsFlags : Obligations.AndSetsFlags := by
  refine ⟨fun rd rn rm s => ⟨?_, encodeR_eq_wordR 0b11101010000 rm 0b000000 rn rd⟩,
    fun rd rn imm s => ⟨?_, encodeI_eq_wordI 0b1111001000 imm rn rd⟩⟩
  · exact computesWithFlags_of_finishXFlags rfl (congrArg _ (logicFlags_eq _))
  · have hflags : logicFlags (s.readX rn &&& aluImm imm) =
        ⟨false, decide (s.readX rn &&& aluImm imm = 0#64), false, false⟩ := by
      rw [logicFlags_eq, BitVec.msb_and, msb_aluImm, Bool.and_false]
    exact computesWithFlags_of_finishXFlags rfl (congrArg _ hflags)

/-- Settles O32: a shift by k places divides by 2^k, or multiplies by it modulo 2^64. -/
theorem shiftsMultiplyAndDivideByPowers : Obligations.ShiftsMultiplyAndDivideByPowers := fun rd rn shamt _ =>
  ⟨⟨computes_of_finishX rfl (ushiftRight_eq_ofNat _ _), encodeR_eq_wordI 0b11010011010 shamt rn rd⟩,
    ⟨computes_of_finishX rfl (shiftLeft_eq_ofNat _ _), encodeR_eq_wordI 0b11010011011 shamt rn rd⟩⟩

end Sys2Proof.Machine

/-! PROOFS. The integer immediate and wide-move instructions (spec/44_integer_immediate.md): the zero-extended immediate
as a number, sums and differences with it, and the wide moves. -/

namespace Sys2Proof.Machine

/-! ## The zero-extended immediate as a number -/

section Immediates

variable (a : Word) (imm : BitVec 12)

theorem toNat_aluImm : (aluImm imm).toNat = imm.toNat :=
  BitVec.toNat_setWidth_of_le (by decide)

/-- The signed value of the extended immediate is the unsigned value of its field: its top bit is clear (R91). -/
theorem toInt_aluImm : (aluImm imm).toInt = imm.toNat := by
  rw [BitVec.toInt_eq_toNat_of_msb (msb_aluImm imm), toNat_aluImm]

theorem add_aluImm_eq_ofNat : a + aluImm imm = BitVec.ofNat 64 (a.toNat + imm.toNat) := by
  rw [BitVec.add_def, toNat_aluImm]

theorem sub_aluImm_eq_ofInt : a - aluImm imm = BitVec.ofInt 64 (a.toNat - imm.toNat) := by
  rw [sub_eq_ofInt, toNat_aluImm]

/-- The immediate is not negative, so a sum with it overflows upwards only (R223). -/
theorem addWithCarry_aluImm : addWithCarry a (aluImm imm) false =
    (a + aluImm imm, ⟨(a + aluImm imm).msb, decide (a + aluImm imm = 0#64), decide (2 ^ 64 ≤ a.toNat + imm.toNat),
      decide (2 ^ 63 ≤ a.toInt + (imm.toNat : Int))⟩) := by
  have hlow : ¬a.toInt + (imm.toNat : Int) < -2 ^ 63 := by
    have := a.le_toInt
    omega
  rw [addWithCarry_eq_add, toNat_aluImm, toInt_aluImm, decide_eq_decide.mpr (or_iff_right hlow)]

/-- The immediate is not negative, so a difference with it overflows downwards only (R228). -/
theorem subWithFlags_aluImm : subWithFlags a (aluImm imm) =
    (a - aluImm imm, ⟨(a - aluImm imm).msb, decide (a = aluImm imm), decide (imm.toNat ≤ a.toNat),
      decide (a.toInt - (imm.toNat : Int) < -2 ^ 63)⟩) := by
  have hhigh : ¬2 ^ 63 ≤ a.toInt - (imm.toNat : Int) := by
    have := a.toInt_lt
    omega
  rw [subWithFlags_eq_sub, toNat_aluImm, toInt_aluImm, decide_eq_decide.mpr (or_iff_left hhigh)]

end Immediates

/-! ## The immediate instructions of the rules -/

/-- Settles O33: the sum and the difference with the extended immediate are those of the numbers, modulo 2^64. -/
theorem immediateAddSub : Obligations.ImmediateAddSub := fun rd rn imm _ =>
  ⟨⟨computes_of_finishX rfl (add_aluImm_eq_ofNat _ imm), encodeI_eq_wordI 0b1001000100 imm rn rd⟩,
    ⟨computes_of_finishX rfl (sub_aluImm_eq_ofInt _ imm), encodeI_eq_wordI 0b1101000100 imm rn rd⟩⟩

/-- Settles O34: both end with the result and the flags of one `AddWithCarry`, where the immediate leaves one way to
overflow. -/
theorem immediateAddSubFlags : Obligations.ImmediateAddSubFlags := by
  rintro rd rn imm s a b rfl rfl
  exact ⟨⟨computesWithFlags_of_finishXFlags rfl (addWithCarry_aluImm _ imm),
      encodeI_eq_wordI 0b1011000100 imm rn rd⟩,
    computesWithFlags_of_finishXFlags rfl (subWithFlags_aluImm _ imm), encodeI_eq_wordI 0b1111000100 imm rn rd⟩

/-- Settles O35: each ends by writing its bitwise result; the operand is the extended immediate itself (R220). -/
theorem immediateLogic : Obligations.ImmediateLogic := fun rd rn imm _ =>
  ⟨⟨computes_of_finishX rfl rfl, encodeI_eq_wordI 0b1001001000 imm rn rd⟩,
    ⟨computes_of_finishX rfl rfl, encodeI_eq_wordI 0b1011001000 imm rn rd⟩,
    ⟨computes_of_finishX rfl rfl, encodeI_eq_wordI 0b1101001000 imm rn rd⟩⟩

/-! ## The wide moves -/

/-- Settles O36: `MOVZ` writes the shifted immediate as a number; `MOVK`'s result is known bit by bit. -/
theorem moveWide : Obligations.MoveWide := fun rd imm hw s =>
  ⟨⟨computes_of_finishX rfl (movImm_eq imm hw), encodeIM_eq_wordIM 0b110100101 hw imm rd⟩,
    ⟨movKeep (s.readX rd) imm hw, computes_of_finishX rfl rfl, movKeep_getLsbD _ imm hw⟩,
    encodeIM_eq_wordIM 0b111100101 hw imm rd⟩

end Sys2Proof.Machine

/-! PROOFS. Multiply and divide (spec/45_multiply_divide.md): what a zero divisor gives, and the remainder of the signed
division. The laws of the products and quotients themselves are the model's own. -/

namespace Sys2Proof.Machine

/-! ## Products -/

/-- Settles O37: the three instructions write the halves that the laws of R246 relate to the exact products. -/
theorem multiplyHalves : Obligations.MultiplyHalves := fun rd rn rm s =>
  ⟨⟨productLow (s.readX rn) (s.readX rm), signedProductHigh (s.readX rn) (s.readX rm),
      unsignedProductHigh (s.readX rn) (s.readX rm),
      computes_of_finishX rfl rfl, computes_of_finishX rfl rfl, computes_of_finishX rfl rfl,
      unsignedProductHigh_law _ _, signedProductHigh_law _ _⟩,
    encodeR_eq_wordR 0b10011011000 rm 0b011111 rn rd, encodeR_eq_wordR 0b10011011010 rm 0b000000 rn rd,
    encodeR_eq_wordR 0b10011011110 rm 0b000000 rn rd⟩

/-! ## The remainder of a division rounded toward zero -/

theorem abs_tmod_lt_abs (x : Int) {y : Int} (hy : y ≠ 0) : |x.tmod y| < |y| := by
  rw [Int.abs_eq_natAbs, Int.abs_eq_natAbs, Int.natAbs_tmod]
  exact Int.ofNat_lt.mpr (Nat.mod_lt _ (Int.natAbs_pos.mpr hy))

/-- A remainder that is not zero has the sign of the dividend, which is then not zero either. -/
theorem tmod_eq_zero_or_sign_of_dividend (x y : Int) :
    x.tmod y = 0 ∨ (0 < x.tmod y ∧ 0 < x) ∨ (x.tmod y < 0 ∧ x < 0) := by
  by_cases hdvd : y ∣ x
  · exact .inl (Int.tmod_eq_zero_of_dvd hdvd)
  have hsign : (x.tmod y).sign = x.sign := (Int.sign_tmod x y).trans (if_neg hdvd)
  rcases lt_trichotomy x 0 with hneg | rfl | hpos
  · exact .inr (.inr ⟨Int.sign_eq_neg_one_iff_neg.mp (hsign.trans (Int.sign_eq_neg_one_of_neg hneg)), hneg⟩)
  · exact absurd (dvd_zero y) hdvd
  · exact .inr (.inl ⟨Int.sign_eq_one_iff_pos.mp (hsign.trans (Int.sign_eq_one_of_pos hpos)), hpos⟩)

/-! ## Quotients -/

section Quotients

variable (a : Word) {b : Word}

theorem signedQuotient_of_eq_zero (hb : b = 0#64) : signedQuotient a b = 0#64 := if_pos hb

theorem unsignedQuotient_of_eq_zero (hb : b = 0#64) : unsignedQuotient a b = 0#64 := if_pos hb

/-- The remainder law of `SDIV` (R246), for every quotient that fits. -/
theorem signedQuotient_law (hb : b ≠ 0#64) (hfits : ¬(a.toInt = -2 ^ 63 ∧ b.toInt = -1)) :
    ∃ r : Int, a.toInt = (signedQuotient a b).toInt * b.toInt + r ∧
      |r| < |b.toInt| ∧ (r = 0 ∨ (0 < r ∧ 0 < a.toInt) ∨ (r < 0 ∧ a.toInt < 0)) := by
  have hdivisor : b.toInt ≠ 0 := BitVec.toInt_ne.mpr hb
  refine ⟨a.toInt.tmod b.toInt, ?_, abs_tmod_lt_abs _ hdivisor, tmod_eq_zero_or_sign_of_dividend _ _⟩
  rw [signedQuotient_toInt a b hb hfits, Int.tdiv_mul_add_tmod]

end Quotients

/-- Settles O38: the remainders are those of the division rounded toward zero and of the division of naturals. -/
theorem divideLaws : Obligations.DivideLaws := by
  rintro rd rn rm s a b rfl rfl
  refine ⟨⟨signedQuotient (s.readX rn) (s.readX rm), computes_of_finishX rfl rfl, signedQuotient_of_eq_zero _,
      signedQuotient_overflow _ _, signedQuotient_law _⟩,
    ⟨unsignedQuotient (s.readX rn) (s.readX rm), computes_of_finishX rfl rfl, unsignedQuotient_of_eq_zero _,
      fun hb => ⟨_, unsignedQuotient_law _ _ hb, Nat.mod_lt _ (BitVec.toNat_pos_of_ne_zero hb)⟩⟩,
    encodeR_eq_wordR 0b10011010110 rm 0b000010 rn rd, encodeR_eq_wordR 0b10011010110 rm 0b000011 rn rd⟩

end Sys2Proof.Machine

/-! PROOFS. Exceptions (spec/60_exceptions.md): the order of a step's checks, why each exception is raised, and what its
entry writes. -/

namespace Sys2Proof.Machine

/-! ## The classes and the record -/

theorem esrWord_eq_ofNat (ec : ExcClass) (iss : BitVec 25) :
    esrWord ec iss = BitVec.ofNat 32 (ec.code.toNat * 2 ^ 26 + 1 * 2 ^ 25 + iss.toNat) := by
  have hiss := iss.isLt
  have hcode := ec.code.isLt
  apply BitVec.eq_of_toNat_eq
  rw [esrWord, BitVec.toNat_append, BitVec.toNat_append, ← Nat.shiftLeft_add_eq_or_of_lt hiss,
    ← Nat.shiftLeft_add_eq_or_of_lt (by decide), Nat.shiftLeft_eq, Nat.shiftLeft_eq, BitVec.toNat_ofNat,
    BitVec.toNat_ofNat]
  omega

/-- Settles O21: each word by evaluation, and the number of each of the ten classes. -/
theorem exceptionClassTable : Obligations.ExceptionClassTable := by
  refine ⟨rfl, rfl, rfl, rfl, rfl, rfl, rfl, rfl, rfl, rfl, fun ec => ?_⟩
  cases ec <;> decide

theorem recordsAddress_iff (ec : ExcClass) :
    recordsAddress ec = true ↔ ec.code = 32#6 ∨ ec.code = 34#6 ∨ ec.code = 36#6 := by
  cases ec <;> decide

theorem Exc.addr_isSome (e : Exc) : e.addr.isSome = recordsAddress e.cls := by
  cases e <;> rfl

/-! ## Before an instruction's own rule -/

/-- Settles O10, by what the run has come to. -/
theorem terminalStatesRepeat : Obligations.TerminalStatesRepeat := by
  intro s hs
  rcases step_cases s with ⟨_, he⟩ | ⟨hrun, _⟩ | ⟨hrun, _⟩ | ⟨hrun, _⟩ | ⟨hrun, _⟩
  · exact he
  all_goals exact absurd hrun hs

theorem step_of_haltPc {s : State} (hrun : s.run = .running) (hpc : s.pc = s.cfg.haltPc) :
    step s = .next { s with run := .ended } := by
  simp [step, prepare, hrun, hpc]

section Fetch

variable {s : State} (hrun : s.run = .running) (hhalt : s.pc ≠ s.cfg.haltPc)
include hrun hhalt

theorem step_of_fetch_raised {e : Exc} (hf : fetch s = .raised e) : step s = raise e s := by
  simp [step, prepare, prepareRunning, hrun, hhalt, hf]

theorem step_of_fetch_unwritten {a : Nat} (hf : fetch s = .unwritten a) : step s = .fault (.unwrittenRead a) := by
  simp [step, prepare, prepareRunning, hrun, hhalt, hf]

end Fetch

theorem permitsAll_eq_false_iff (map : MemMap) (k : AccessKind) (a n : Nat) :
    permitsAll map k a n = false ↔ ∃ j, j < n ∧ permits map k (a + j) = false := by
  rw [← Bool.not_eq_true, permitsAll_iff]
  simp

/-- A fetch of a byte that is not executable (R55, R256 order 3). -/
theorem fetch_of_not_executable {s : State} {j : Nat} (haligned : s.pc.toNat % 4 = 0) (hj : j < 4)
    (hno : permits s.cfg.memMap .fetch (s.pc.toNat + j) = false) : fetch s = .raised (.instructionAbort s.pc) := by
  have hmarks := (permitsAll_eq_false_iff s.cfg.memMap .fetch s.pc.toNat 4).mpr ⟨j, hj, hno⟩
  rcases fetch_cases s with ⟨h, _⟩ | ⟨_, _, he⟩ | ⟨_, h, _⟩ | ⟨_, h, _⟩
  · exact absurd haligned h
  · exact he
  · rw [hmarks] at h; cases h
  · rw [hmarks] at h; cases h

/-- A fetch past its checks stops at the first unwritten byte of the word (R37, R256 order 4). -/
theorem fetch_of_unwritten {s : State} {j : Nat} (hmay : MayAccess s .fetch s.pc 4) (hj : j < 4)
    (hwritten : ∀ k, k < j → (s.mem.read (s.pc.toNat + k)).isSome = true)
    (hunwritten : s.mem.read (s.pc.toNat + j) = none) : fetch s = .unwritten (s.pc.toNat + j) := by
  obtain ⟨haligned, hmarks⟩ := hmay
  have hread := Memory.readBytes_first_unwritten s.mem s.pc.toNat 4 j hj hwritten hunwritten
  rcases fetch_cases s with ⟨h, _⟩ | ⟨_, h, _⟩ | ⟨_, _, u, hu, he⟩ | ⟨_, _, bytes, hb, _⟩
  · exact absurd haligned h
  · rw [(permitsAll_iff _ _ _ _).mpr hmarks] at h; cases h
  · rw [hread] at hu; cases hu; exact he
  · rw [hread] at hb; cases hb

/-- Settles O9: each check by what the fetch gives, then by what the fetched word decodes to. -/
theorem stepChecksInOrder : Obligations.StepChecksInOrder := by
  intro s hrun
  refine ⟨step_of_haltPc hrun, fun hhalt => ⟨fun hpc => ?_, ?_, ?_, ?_, ?_⟩⟩
  · exact ⟨_, step_of_misaligned hrun hhalt hpc, took_takeException _ s⟩
  · rintro haligned ⟨j, hj, hno⟩
    exact ⟨_, step_of_fetch_raised hrun hhalt (fetch_of_not_executable haligned hj hno), took_takeException _ s⟩
  · intro hmay j hj hwritten hunwritten
    exact step_of_fetch_unwritten hrun hhalt (fetch_of_unwritten hmay hj hwritten hunwritten)
  · intro w hw hundefined
    rcases step_cases_of_fetches hw with ⟨_, he⟩ | ⟨why, hd, _⟩ | ⟨i, hd, _⟩
    · exact ⟨_, he, took_takeException _ s⟩
    · rw [hundefined] at hd; cases hd
    · rw [hundefined] at hd; cases hd
  · intro w why hw hrefused
    rcases step_cases_of_fetches hw with ⟨hd, _⟩ | ⟨why', hd, he⟩ | ⟨i, hd, _⟩ <;> rw [hrefused] at hd <;> cases hd
    exact he

/-! ## Why an instruction raises an exception -/

/-- Why `i` raises an exception in `s`: the rows of R252 that belong to an instruction's own rule. -/
inductive ExecCause (i : Instr) (s : State) : Exc → Prop
  | disabled (uses : i.usesFpUnit = true) (off : s.cfg.fpEnabled = false) : ExecCause i s .fpDisabled
  | abort (k : AccessKind) (a : Word) (n : Nat) (access : dataAccess i s = some (k, a, n))
    (forbidden : ¬MayAccess s k a n) : ExecCause i s (.dataAbort a)
  | trap (signals : FpExceptions) (on : s.cfg.fpEnabled = true) (signalled : fpSignals i s = some signals)
    (trapped : Trapped s.cfg.fpTraps signals) : ExecCause i s .fpException

/-- What `exec i s` can answer as to exceptions: one it has a cause for, a state in which the run goes on as in `s`, or
a stop. -/
inductive RaisesForCause (i : Instr) (s : State) : Result → Prop
  | raised (e : Exc) (cause : ExecCause i s e) : RaisesForCause i s (.next (takeException e s))
  | completed (t : State) (run : t.run = s.run) : RaisesForCause i s (.next t)
  | fault (x : Fault) : RaisesForCause i s (.fault x)
  | refused (r : Refusal) : RaisesForCause i s (.refused r)

/-! ### By ending, in the order of the operations of the model -/

section Endings

variable {i : Instr} {s : State}

/-- The state the branch is taken in may differ from `s`: `BL` has written its link register (R122). -/
theorem finishBranch_raisesForCause {u : State} (taken : Bool) (offset : Word) (hu : u.run = s.run) :
    RaisesForCause i s (finishBranch taken offset u) := by
  obtain ⟨t, ht, hj⟩ := finishBranch_spec taken offset u
  rw [ht]
  exact .completed t (hj.record.run.trans hu)

theorem finishLoad_raisesForCause {a : Word} {n : Nat} {put : List Byte → State → State}
    (access : dataAccess i s = some (.read, a, n)) (hput : ∀ bytes, (put bytes s).run = s.run) :
    RaisesForCause i s (finishLoad a n put s) := by
  rcases finishLoad_cases a n put s with ⟨_, bytes, _, he⟩ | ⟨ha, he⟩ | ⟨_, u, _, he⟩ <;> rw [he]
  · exact .completed _ (hput bytes)
  · exact .raised _ (.abort _ a n access ((accessible_eq_false_iff _ _ _ _).mp ha))
  · exact .fault _

theorem finishStore_raisesForCause {a : Word} {n : Nat} (access : dataAccess i s = some (.write, a, n)) (v : Nat) :
    RaisesForCause i s (finishStore a n v s) := by
  rcases finishStore_cases a n v s with ⟨_, he⟩ | ⟨ha, he⟩ <;> rw [he]
  · exact .completed _ rfl
  · exact .raised _ (.abort _ a n access ((accessible_eq_false_iff _ _ _ _).mp ha))

theorem ifFpEnabled_raisesForCause {body : Result} (uses : i.usesFpUnit = true) (h : RaisesForCause i s body) :
    RaisesForCause i s (ifFpEnabled s body) := by
  rcases ifFpEnabled_cases s body with ⟨_, he⟩ | ⟨off, he⟩ <;> rw [he]
  · exact h
  · exact .raised _ (.disabled uses off)

/-- The three ways that `finishArithS_cases`, `finishArithD_cases` and `finishCompare_cases` list. -/
theorem raisesForCause_of_checks {r : Result} {t : State} {signals : FpExceptions}
    (h : (s.cfg.fpEnabled = false ∧ r = raise .fpDisabled s) ∨
      (s.cfg.fpEnabled = true ∧ fpTrapped s.cfg.fpTraps signals = true ∧ r = raise .fpException s) ∨
      (s.cfg.fpEnabled = true ∧ fpTrapped s.cfg.fpTraps signals = false ∧ r = .next t))
    (uses : i.usesFpUnit = true) (signalled : fpSignals i s = some signals) (run : t.run = s.run) :
    RaisesForCause i s r := by
  rcases h with ⟨off, rfl⟩ | ⟨on, trapped, rfl⟩ | ⟨_, _, rfl⟩
  · exact .raised _ (.disabled uses off)
  · exact .raised _ (.trap signals on signalled ((fpTrapped_iff _ _).mp trapped))
  · exact .completed t run

theorem execStxr_raisesForCause (rs rt rn : Reg) : RaisesForCause (.stxr rs rt rn) s (execStxr rs rt rn s) := by
  rcases execStxr_cases rs rt rn s with ⟨_, he⟩ | ⟨_, ha, he⟩ | ⟨_, _, _, _, he⟩ | ⟨_, _, _, he⟩ <;> rw [he]
  · exact .refused _
  · exact .raised _ (.abort _ _ 8 rfl ((accessible_eq_false_iff _ _ _ _).mp ha))
  · exact .completed _ (by simp)
  · exact .completed _ (by simp)

end Endings

/-- Every instruction, by the way its meaning ends (R252). -/
theorem exec_raisesForCause (i : Instr) (s : State) : RaisesForCause i s (exec i s) := by
  cases i with
  | and | orr | eor | add | sub | lsr | lsl | addi | subi | andi | orri | eori | movz | movk | sdiv | udiv | mul
  | smulh | umulh | adds | subs | ands | addis | subis | andis => exact .completed _ (State.writeX_run _ _ _)
  | b | bCond | cbz | cbnz => exact finishBranch_raisesForCause _ _ rfl
  | bl => exact finishBranch_raisesForCause _ _ (State.writeX_run _ _ _)
  | br => exact .completed _ rfl
  | ldurb | ldurh | ldursw | ldur | ldxr =>
    dsimp only [exec, execLdurb, execLdurh, execLdursw, execLdur, execLdxr]
    exact finishLoad_raisesForCause rfl fun _ => State.writeX_run _ _ _
  | ldurs | ldurd => exact ifFpEnabled_raisesForCause rfl (finishLoad_raisesForCause rfl fun _ => rfl)
  | sturb | sturh | sturw | stur => exact finishStore_raisesForCause rfl _
  | sturs | sturd => exact ifFpEnabled_raisesForCause rfl (finishStore_raisesForCause rfl _)
  | stxr => exact execStxr_raisesForCause _ _ _
  | fadds | fsubs | fmuls | fdivs => exact raisesForCause_of_checks (finishArithS_cases _ _ _ _ s) rfl rfl rfl
  | faddd | fsubd | fmuld | fdivd => exact raisesForCause_of_checks (finishArithD_cases _ _ _ _ s) rfl rfl rfl
  | fcmps | fcmpd => exact raisesForCause_of_checks (finishCompare_cases _ _ s) rfl rfl rfl

/-! ## Why a step raises an exception -/

/-- Why a step from `s` raises an exception: the rows of R252. -/
inductive StepCause (s : State) : Exc → Prop
  | misaligned (pc : s.pc.toNat % 4 ≠ 0) : StepCause s (.pcAlignment s.pc)
  | notExecutable (aligned : s.pc.toNat % 4 = 0) (j : Nat) (inside : j < 4)
    (forbidden : permits s.cfg.memMap .fetch (s.pc.toNat + j) = false) : StepCause s (.instructionAbort s.pc)
  | undefined (w : InstrWord) (fetches : Fetches s w) (decoded : decode s.cfg.unusedFields w = .undefined) :
    StepCause s .unknown
  | instr (i : Instr) (e : Exc) (runs : Runs s i) (cause : ExecCause i s e) : StepCause s e

theorem stepCause_of_fetch_raised {s : State} {e : Exc} (h : fetch s = .raised e) : StepCause s e := by
  rcases fetch_cases s with ⟨hpc, he⟩ | ⟨haligned, hmarks, he⟩ | ⟨_, _, u, _, he⟩ | ⟨_, _, bytes, _, he⟩ <;>
    rw [h] at he <;> cases he
  · exact .misaligned hpc
  · obtain ⟨j, hj, hno⟩ := (permitsAll_eq_false_iff _ _ _ _).mp hmarks
    exact .notExecutable haligned j hj hno

/-- A step from a running state to a faulted one is the entry of one exception, for a cause (R252, R253). -/
theorem step_faulted_cases {s t : State} {ec : ExcClass} (hrun : s.run = .running) (hst : step s = .next t)
    (hfault : t.run = .faulted ec) : ∃ e, StepCause s e ∧ e.cls = ec ∧ t = takeException e s := by
  have entry {e : Exc} (cause : StepCause s e) (ht : t = takeException e s) :
      ∃ e, StepCause s e ∧ e.cls = ec ∧ t = takeException e s := by
    subst ht
    exact ⟨e, cause, RunStatus.faulted.inj hfault, rfl⟩
  rcases step_cases s with ⟨hend | ⟨ec', hend⟩, _⟩ | ⟨_, _, he⟩ | ⟨_, _, e, hf, he⟩ | ⟨_, _, u, _, he⟩ |
    ⟨_, hhalt, w, hf, ⟨hd, he⟩ | ⟨why, _, he⟩ | ⟨i, hd, he⟩⟩
  · rw [hrun] at hend; cases hend
  · rw [hrun] at hend; cases hend
  · rw [hst] at he; cases he; cases hfault
  · rw [hst] at he; cases he; exact entry (stepCause_of_fetch_raised hf) rfl
  · rw [hst] at he; cases he
  · rw [hst] at he; cases he; exact entry (.undefined w (fetches_of_fetch hrun hhalt hf) hd) rfl
  · rw [hst] at he; cases he
  · have h := exec_raisesForCause i s
    rw [← he, hst] at h
    cases h with
    | raised e cause => exact entry (.instr i e ⟨w, fetches_of_fetch hrun hhalt hf, hd⟩ cause) rfl
    | completed _ run => rw [run, hrun] at hfault; cases hfault

/-- Settles O18, by the causes of a step's exception: no cause has one of the four other classes. -/
theorem onlySixClassesAreRaised : Obligations.OnlySixClassesAreRaised := by
  intro s t ec hrun hst hfault
  obtain ⟨e, cause, rfl, rfl⟩ := step_faulted_cases hrun hst hfault
  cases cause with
  | misaligned hpc => exact ⟨rfl, hpc⟩
  | notExecutable aligned j inside forbidden => exact ⟨rfl, aligned, j, inside, forbidden⟩
  | undefined w fetches hd => exact ⟨rfl, w, fetches, hd⟩
  | instr i e runs cause =>
    cases cause with
    | disabled uses off => exact ⟨rfl, off, i, runs, uses⟩
    | abort k a n access forbidden => exact ⟨i, k, a, n, runs, access, forbidden, rfl⟩
    | trap signals on signalled trapped => exact ⟨rfl, on, i, signals, runs, signalled, trapped⟩

theorem not_trapped_empty (signals : FpExceptions) : ¬Trapped FpExceptions.empty signals := by
  simp [FpExceptions.empty]

/-- Settles O19: class 7 needs the unit disabled and class 40 an exception that traps. -/
theorem defaultParametersRaiseFourClasses : Obligations.DefaultParametersRaiseFourClasses := by
  intro s t ec hrun hon htraps hst hfault
  have h := onlySixClassesAreRaised s t ec hrun hst hfault
  cases ec with
  | unknown | instructionAbort | pcAlignment | dataAbort => decide
  | simdDisabled =>
    obtain ⟨_, hoff, _⟩ := h
    rw [hon] at hoff
    cases hoff
  | fpException =>
    obtain ⟨_, _, i, signals, _, _, htrapped⟩ := h
    rw [htraps] at htrapped
    exact absurd htrapped (not_trapped_empty signals)
  | illegalState | supervisorCall | watchpoint | breakpoint => exact h.elim

/-! ## What exception entry writes -/

/-- Settles O20: the step is the entry of one exception, and a step from the faulted state repeats it. -/
theorem exceptionEntryWritesOnlyTheRecord : Obligations.ExceptionEntryWritesOnlyTheRecord := by
  intro s t ec hrun hst hfault
  obtain ⟨e, -, rfl, rfl⟩ := step_faulted_cases hrun hst hfault
  obtain ⟨⟨iss, hesr⟩, hfaultPc, haddr, hmonitor, -, hx, hd, hmem, hflags, hpc, -⟩ := took_takeException e s
  refine ⟨⟨iss.toNat, iss.isLt, hesr.trans (congrArg some (esrWord_eq_ofNat e.cls iss))⟩, hfaultPc, ?_, hmonitor, hx, hd,
    hflags, hmem, hpc, terminalStatesRepeat _ nofun⟩
  rw [Exc.addr_isSome] at haddr
  simp only [← recordsAddress_iff]
  split
  case isTrue hrecords => exact ⟨e, rfl, (Exc.addr_isSome e).trans hrecords, haddr.trans (if_pos hrecords)⟩
  case isFalse hnone => exact haddr.trans (if_neg hnone)

end Sys2Proof.Machine
